-- ==== Sys2Proof/Word.lean ====
section
/-! DEFINITION. The word types of HCC-1 (00_scope.md R7, R8, R11, R12; 20_memory.md R60).
All values are unsigned; bit 0 is the least significant bit. -/

namespace Sys2Proof

/-- A byte value, 0 to 255 (R7). -/
abbrev Byte := BitVec 8

/-- A host-visible register or RAM word (R11). -/
abbrev Word := BitVec 32

/-- A byte offset in the 64 KiB host window (R11, R60). -/
abbrev Offset := BitVec 16

/-- A node index, also the NCOUNT and DPOS fields: 9 bits (R8). -/
abbrev NodeIdx := BitVec 9

end Sys2Proof
end

