-- ==== Sys2Proof/Syntax.lean ====
section
/-! DEFINITION. The commands of HCC-1: one constructor per row of spec/opcode_table.json (30_encoding.md R84),
and the two command formats (R80). -/

namespace Sys2Proof

/-- The seven commands (R84). ENCB's operand is the byte to encode (R86); no other command has one. -/
inductive Instr
  | nop
  | sreset
  | clrf
  | encb (b : Byte)
  | dstep
  | decb
  | buildtab
deriving DecidableEq, Repr

/-- The formats of a command word (R80): `c0` has no operand, `cb` has BYTE in bits 7:0. -/
inductive Format
  | c0
  | cb
deriving DecidableEq, Repr

/-- The format of each command (R84). -/
def Instr.format : Instr → Format
  | .encb _ => .cb
  | .nop | .sreset | .clrf | .dstep | .decb | .buildtab => .c0

/-- Bits 23:0 of a command's word: BYTE in bits 7:0 for ENCB, 0 otherwise (R80, R86). -/
def Instr.operandField : Instr → BitVec 24
  | .encb b => b.setWidth 24
  | .nop | .sreset | .clrf | .dstep | .decb | .buildtab => 0

end Sys2Proof
end

