-- ==== Sys2Proof/WellFormed.lean ====
section
/-! DEFINITION. When an operand field fits its format, and when an instruction is well formed (30_encoding.md R80, R85).
An `Instr` carries a `Byte`, so every `Instr` is well formed; the check has work to do on the 24 operand bits of a
command word, and the decoder calls it there. -/

namespace Sys2Proof

/-- The must-be-0 bits of R80: all of bits 23:0 for C0, bits 23:8 for CB. -/
def Format.accepts (f : Format) (operand : BitVec 24) : Bool :=
  match f with
  | .c0 => operand == 0
  | .cb => operand.extractLsb' 8 16 == 0

/-- An instruction is well formed when its operand bits fit its format. -/
def Instr.wellFormed (i : Instr) : Bool :=
  i.format.accepts i.operandField

end Sys2Proof
end

