-- ==== Sys2Proof/Decode.lean ====
section
/-! DEFINITION. The decoder of command words (30_encoding.md R80, R84, R85, R87), total on every 32-bit word and rejecting by
name, and the encoder beside it. A command is one word written to CMD: there is no fetch and no byte order
(10_state.md R39, 20_memory.md R64). -/

namespace Sys2Proof

/-- Why a word is no command (R85). -/
inductive DecodeReject
  /-- OP is not in the opcode map of R84. -/
  | unlistedOpcode (op : Byte)
  /-- OP is listed and a must-be-0 bit of its format is set. -/
  | mustBeZero (op : Byte) (operand : BitVec 24)
deriving DecidableEq, Repr

/-- One row of the opcode map (R84): OP, the format, and the command with the given BYTE. -/
structure OpRow where
  op : Byte
  format : Format
  command : Byte → Instr

/-- The opcode map (R84). -/
def opcodeMap : List OpRow :=
  [ ⟨0x00, .c0, fun _ => .nop⟩,
    ⟨0x01, .c0, fun _ => .sreset⟩,
    ⟨0x02, .c0, fun _ => .clrf⟩,
    ⟨0x10, .cb, fun b => .encb b⟩,
    ⟨0x20, .c0, fun _ => .dstep⟩,
    ⟨0x21, .c0, fun _ => .decb⟩,
    ⟨0x30, .c0, fun _ => .buildtab⟩ ]

/-- OP, bits 31:24 of a command word (R80). -/
def opField (w : Word) : Byte := w.extractLsb' 24 8

/-- Bits 23:0 of a command word (R80). -/
def operandBits (w : Word) : BitVec 24 := w.extractLsb' 0 24

/-- BYTE, bits 7:0 of a command word (R86). -/
def byteField (w : Word) : Byte := w.extractLsb' 0 8

/-- "A decoder selects a command from `w[31:24]` alone; then `w & must-be-0 mask = 0` must hold" (R84). -/
def decode (w : Word) : Except DecodeReject Instr :=
  match opcodeMap.find? (fun row => row.op == opField w) with
  | none => .error (.unlistedOpcode (opField w))
  | some row =>
    if row.format.accepts (operandBits w) then .ok (row.command (byteField w))
    else .error (.mustBeZero (opField w) (operandBits w))

/-- The opcode of each command (R84). -/
def Instr.opcode : Instr → Byte
  | .nop => 0x00
  | .sreset => 0x01
  | .clrf => 0x02
  | .encb _ => 0x10
  | .dstep => 0x20
  | .decb => 0x21
  | .buildtab => 0x30

/-- The word of a command: OP in bits 31:24, the operand field in bits 23:0 (R80, R84). -/
def encode (i : Instr) : Word := i.opcode ++ i.operandField

/-- The host's table interface: the command the decoder reads from a word of `nbits` bits `w`, bits above `nbits` 0. -/
def decodeTableWord (nbits w : Nat) : Option Instr :=
  match decode (BitVec.ofNat 32 (w % 2 ^ nbits)) with
  | .ok i => some i
  | .error _ => none

end Sys2Proof
end

