-- ==== Sys2Proof/Config.lean ====
section
/-! DEFINITION. What an implementation of HCC-1 fixes (00_scope.md section 3, 93_implementation_defined.md section 4). -/

namespace Sys2Proof.Config

/-- The constant the ID register reads as (10_state.md R21). -/
def idValue : Word := 0x48434331

/-- NMAX, the number of node slots (R8). -/
def nmax : Nat := 511

/-- MAXCODE, the longest code in bits (R9). -/
def maxCode : Nat := 255

/-- BITCAP's value in the reference configuration (R10). The model carries BITCAP in the CAP register
(log entry 4), so every statement about a state ranges over its values. -/
def bitcapReference : Word := 262144

/-- The values BITCAP may have: "a multiple of 32 with 32 <= BITCAP <= 262144" (R10). -/
abbrev BitcapLegal (c : Nat) : Prop := c % 32 = 0 ∧ 32 ≤ c ∧ c ≤ 262144

/-- HCC_BASE, where the platform puts the host window (20_memory.md R61): OPEN, so it has no value here
(log entry 8). -/
opaque hccBase : Nat

end Sys2Proof.Config
end

