-- ==== Sys2Proof/Machine/State.lean ====
section
/-! DEFINITION. The state of HCC-1 (10_state.md), the host's requests (20_memory.md R62), the fault codes
(60_exceptions.md R210), and how a step may stop. -/

namespace Sys2Proof.Machine

/-- The size n of a host access, in bytes: 1, 2 or 4 (20_memory.md R62). -/
inductive Size
  | byte
  | half
  | word
deriving DecidableEq, Repr

/-- What the outside does to HCC-1: a host access (dir, off, n, data) (R62), or the reset input (R240). -/
inductive Request
  | read (off : Offset) (n : Size)
  | write (off : Offset) (n : Size) (data : Word)
  | resetInput
deriving DecidableEq, Repr

/-- The recorded fault causes (R210); their numbers are `FaultCode.number`. -/
inductive FaultCode
  | accessErr
  | illegalCmd
  | range
  | noCode
  | bitOverflow
  | noChild
  | badIndex
  | codeTooLong
  | treeLoop
deriving DecidableEq, Repr

/-- A RAM, as its non-zero bytes by window offset, offsets rising (20_memory.md R60). An offset that is not listed reads as
0, the spec's reset contents (10_state.md R31, R33, R34). -/
abbrev Memory := List Host.Cell

/-- The ways a step may stop with a fault: none. HCC-1's own faults are records in FAULT, FCODE and FINFO after which the
machine goes on (R211, R216), and "Every operation of HCC-1 is one atomic step that either completes … or faults" (R16), so
nothing raises a stopping fault (log entry 13; safe: there is no case the spec leaves without an effect). -/
inductive Fault
deriving DecidableEq, Repr

/-- The ways a step may be refused. -/
inductive Refusal
  /-- Raised only by an arm of `exec` whose command has no meaning yet; no arm is in that case. Safe. -/
  | notModelled (mnemonic : String)
deriving DecidableEq, Repr

/-- The whole state: the spec's elements (10_state.md R20 to R35), then the model's boundary to the host (log entries 1, 2). -/
structure State where
  /-- CAP: the parameter BITCAP (R22). No operation writes it. -/
  cap : Word
  /-- NCOUNT, the number of nodes of the tree (R24). -/
  ncount : NodeIdx
  /-- BITLEN, the length of the bit sequence (R25). -/
  bitlen : Word
  /-- RDPTR, the next bit the decoder consumes (R26). -/
  rdptr : Word
  /-- DPOS, the decoder's current node (R27). -/
  dpos : NodeIdx
  /-- DOUT, the byte of the leaf most recently reached (R28). -/
  dout : Byte
  /-- STATUS.FAULT (R23, R35). -/
  fault : Bool
  /-- STATUS.DVALID (R23, R35). -/
  dvalid : Bool
  /-- STATUS.DEMPTY (R23, R35). -/
  dempty : Bool
  /-- STATUS.FCODE (R23, R35). -/
  fcode : Byte
  /-- FINFO (R29). -/
  finfo : Word
  /-- The tree RAM (R31), by window offset. -/
  tree : Memory
  /-- The code RAM (R33), by window offset. -/
  code : Memory
  /-- The bit RAM (R34), by window offset. -/
  bits : Memory
  /-- The requests the host has issued and HCC-1 has not performed, oldest first (R62; log entry 1). -/
  port : List Request
  /-- The values host reads have returned, newest first (R62, R63; log entry 2). -/
  replies : List Word
deriving DecidableEq, Repr

/-- The machine right after reset in the reference configuration: every element at the value of 10_state.md section 5
(70_reset_and_hazards.md R240), no request pending and no reply given. -/
def State.reset : State where
  cap := Config.bitcapReference
  ncount := 1
  bitlen := 0
  rdptr := 0
  dpos := 0
  dout := 0
  fault := false
  dvalid := false
  dempty := false
  fcode := 0
  finfo := 0
  tree := []
  code := []
  bits := []
  port := []
  replies := []

end Sys2Proof.Machine
end

