-- ==== Sys2Proof/Machine/Ops.lean ====
section
/-! DEFINITION. The shared operations: the RAMs by byte, word and bit (20_memory.md R60, 30_encoding.md R81 to R83), recording
a fault (60_exceptions.md R211) and clearing it (41_control.md R143), the reset of every element (70_reset_and_hazards.md
R240), and dropping a command while a fault is recorded (41_control.md R140). -/

namespace Sys2Proof.Machine

/-! ### A RAM as bytes -/

/-- The byte at offset `a`; an offset that is not listed reads as 0. -/
def Memory.read : Memory → Nat → Byte
  | [], _ => 0
  | (k, v) :: rest, a => if k = a then v else Memory.read rest a

/-- The RAM without an entry at `a`. -/
def Memory.erase (m : Memory) (a : Nat) : Memory :=
  m.filter (fun c => c.1 != a)

/-- The RAM with the entry `(a, v)` before the first larger offset. -/
def Memory.insert : Memory → Nat → Byte → Memory
  | [], a, v => [(a, v)]
  | (k, w) :: rest, a, v =>
    if a < k then (a, v) :: (k, w) :: rest else (k, w) :: Memory.insert rest a v

/-- Writes one byte and keeps the canonical form: writing 0 removes the entry. -/
def Memory.write (m : Memory) (a : Nat) (v : Byte) : Memory :=
  if v = 0 then Memory.erase m a else Memory.insert (Memory.erase m a) a v

/-- The canonical form: offsets strictly rising, no entry equal to what an unlisted offset reads as. -/
abbrev Memory.wf (m : Memory) : Prop :=
  m.Pairwise (fun x y => x.1 < y.1) ∧ ∀ c ∈ m, c.2 ≠ 0

/-! ### A RAM as words and bits -/

/-- The word at offset `a`, its most significant byte at the lowest offset (log entry 5; no access can tell, R64). -/
def Memory.readWord (m : Memory) (a : Nat) : Word :=
  Memory.read m a ++ Memory.read m (a + 1) ++ Memory.read m (a + 2) ++ Memory.read m (a + 3)

/-- Stores the word at offset `a`, its most significant byte at the lowest offset. -/
def Memory.writeWord (m : Memory) (a : Nat) (v : Word) : Memory :=
  let m1 := Memory.write m a (v.extractLsb' 24 8)
  let m2 := Memory.write m1 (a + 1) (v.extractLsb' 16 8)
  let m3 := Memory.write m2 (a + 2) (v.extractLsb' 8 8)
  Memory.write m3 (a + 3) (v.extractLsb' 0 8)

/-- `w` with bit `i` set to `x`. -/
def setWordBit (w : Word) (i : Nat) (x : Bool) : Word :=
  if x then w ||| (1#32 <<< i) else w &&& ~~~(1#32 <<< i)

/-- The word whose bit `31 - t` is `f t`, for t = 0 to 31 (the packing of R82 and R83). -/
def packWord (f : Nat → Bool) : Word :=
  (List.range 32).foldl (fun w t => setWordBit w (31 - t) (f t)) 0

/-- The offset of node word NODE[i] (R60). -/
def nodeAddr (i : NodeIdx) : Nat := 0x1000 + 4 * i.toNat

/-- The offset of word k of code entry b: HDR for k = 0, W1 to W8 for k = 1 to 8 (R60, R82). -/
def codeAddr (b : Byte) (k : Nat) : Nat := 0x4000 + 64 * b.toNat + 4 * k

/-- The offset of bit word w (R60). -/
def bitWordAddr (w : Nat) : Nat := 0x8000 + 4 * w

/-- BIT(p): bit `31 - (p mod 32)` of bit word `floor(p / 32)` (R83). -/
def readBit (m : Memory) (p : Nat) : Bool :=
  (Memory.readWord m (bitWordAddr (p / 32))).getLsbD (31 - p % 32)

/-- `BIT(p) <- x`, other bits of the word unchanged (R83). -/
def writeBit (m : Memory) (p : Nat) (x : Bool) : Memory :=
  let a := bitWordAddr (p / 32)
  Memory.writeWord m a (setWordBit (Memory.readWord m a) (31 - p % 32) x)

/-- `BIT(p + j) <- xs[j]` for every j, j = 0 first (the loop of R150). -/
def writeBits (m : Memory) (p : Nat) : List Bool → Memory
  | [] => m
  | x :: xs => writeBits (writeBit m p x) (p + 1) xs

/-! ### Faults -/

/-- The numbers of the fault codes (R210). -/
def FaultCode.number : FaultCode → Byte
  | .accessErr => 0x01
  | .illegalCmd => 0x02
  | .range => 0x03
  | .noCode => 0x04
  | .bitOverflow => 0x05
  | .noChild => 0x06
  | .badIndex => 0x07
  | .codeTooLong => 0x08
  | .treeLoop => 0x09

/-- `raise Fault(code, info)`: "if FAULT = 0, then FAULT <- 1; FCODE <- code; FINFO <- info", with no other effect (R211); a
further fault is not recorded (R212). This is the whole of the trap entry (R216). -/
def State.raise (s : State) (c : FaultCode) (info : Word) : State :=
  if s.fault then s else { s with fault := true, fcode := c.number, finfo := info }

/-- "FAULT <- 0; FCODE <- 0; FINFO <- 0": the return from a fault (R143, R217). -/
def State.clearFault (s : State) : State :=
  { s with fault := false, fcode := 0, finfo := 0 }

/-- The drop of R140: "if FAULT = 1 and op not in {NOP, SRESET, CLRF}: return", no effect and no record (R213). `command` is
the command's own rule. -/
def State.unlessFaulted (s : State) (command : State → State) : State :=
  if s.fault then s else command s

/-! ### Reset, the walk position, replies -/

/-- ResetState (R240): every element takes its reset value. CAP keeps BITCAP, which is its reset value (R22); the host's
pending requests and past replies are not HCC-1's (log entry 6). -/
def State.resetState (s : State) : State :=
  { State.reset with cap := s.cap, port := s.port, replies := s.replies }

/-- ROOT, the node index NCOUNT - 1 (R14). NCOUNT is at least 1 in every reachable state (log entry 7). -/
def State.root (s : State) : NodeIdx := s.ncount - 1

/-- A host read returns `v` (R62). -/
def State.reply (s : State) (v : Word) : State :=
  { s with replies := v :: s.replies }

end Sys2Proof.Machine
end

