-- ==== Sys2Proof/Machine/Operands.lean ====
section
/-! DEFINITION. The data a command takes: the fields of a node word (30_encoding.md R81), the fields of a code entry (R82),
and the offsets of the host window with the words they name (20_memory.md R60). ENCB's BYTE (R86) is the operand of `Instr.encb`
and needs no further assembly. -/

namespace Sys2Proof.Machine

/-! ### Node words (R81) -/

/-- NODE[i], the stored word. -/
def nodeWord (m : Memory) (i : NodeIdx) : Word := Memory.readWord m (nodeAddr i)

/-- VALUE, bits 7:0. -/
def nodeValue (w : Word) : Byte := w.extractLsb' 0 8

/-- LIDX, bits 16:8. -/
def nodeLeft (w : Word) : NodeIdx := w.extractLsb' 8 9

/-- LP, bit 17: a left child is present. -/
def nodeHasLeft (w : Word) : Bool := w.getLsbD 17

/-- RIDX, bits 28:20. -/
def nodeRight (w : Word) : NodeIdx := w.extractLsb' 20 9

/-- RP, bit 29: a right child is present. -/
def nodeHasRight (w : Word) : Bool := w.getLsbD 29

/-- A node is a leaf iff both present bits are 0 (10_state.md R31). -/
def nodeIsLeaf (w : Word) : Bool := !nodeHasLeft w && !nodeHasRight w

/-- The child a path bit selects: 1 the right child, 0 the left child (00_scope.md R13). -/
def nodeHasChild (w : Word) (side : Bool) : Bool := if side then nodeHasRight w else nodeHasLeft w

/-- The index of the child a path bit selects (R13). -/
def nodeChild (w : Word) (side : Bool) : NodeIdx := if side then nodeRight w else nodeLeft w

/-- The bits a node word stores: "the stored word is `w & 0x3FF3FFFF`" (R81). -/
def nodeMask : Word := 0x3FF3FFFF

/-! ### Code entries (R82) -/

/-- CODE[b].VALID, bit 31 of HDR. -/
def codeValid (m : Memory) (b : Byte) : Bool := (Memory.readWord m (codeAddr b 0)).getLsbD 31

/-- CODE[b].LEN, bits 7:0 of HDR. -/
def codeLen (m : Memory) (b : Byte) : Byte := (Memory.readWord m (codeAddr b 0)).extractLsb' 0 8

/-- CODE[b].BITS[j]: bit `31 - (j mod 32)` of word `1 + floor(j / 32)`. -/
def codeBit (m : Memory) (b : Byte) (j : Nat) : Bool :=
  (Memory.readWord m (codeAddr b (1 + j / 32))).getLsbD (31 - j % 32)

/-- The code of byte b, `BITS[0] ... BITS[LEN-1]` (10_state.md R33). -/
def codePath (m : Memory) (b : Byte) : List Bool := (List.range (codeLen m b).toNat).map (codeBit m b)

/-- The HDR word of an entry: VALID in bit 31, LEN in bits 7:0, bits 30:8 zero. -/
def headerWord (valid : Bool) (len : Byte) : Word :=
  ((BitVec.ofBool valid).setWidth 32 <<< 31) ||| len.setWidth 32

/-- Word k (1 to 8) of an entry whose code is `path` padded with 0 to 255 bits. -/
def pathWord (path : List Bool) (k : Nat) : Word := packWord (fun t => path.getD (32 * (k - 1) + t) false)

/-- `T[b] <- {VALID 1, LEN |path|, BITS path ++ "0...0"}` (44_table_build.md R180): all nine words of the entry. -/
def writeEntry (m : Memory) (b : Byte) (path : List Bool) : Memory :=
  (List.range 8).foldl (fun m k => Memory.writeWord m (codeAddr b (k + 1)) (pathWord path (k + 1)))
    (Memory.writeWord m (codeAddr b 0) (headerWord true (BitVec.ofNat 8 path.length)))

/-- The bits HDR stores: "the stored HDR is `w & 0x800000FF`" (R82). -/
def headerMask : Word := 0x800000FF

/-- The bits word k of an entry stores: all for W1 to W7, `0xFFFFFFFE` for W8 (R82). -/
def codeWordMask (k : Nat) : Word := if k = 8 then 0xFFFFFFFE else 0xFFFFFFFF

/-! ### Offsets of the host window (R60) -/

/-- The ten registers (10_state.md R21 to R30). -/
inductive Reg
  | id
  | cap
  | status
  | cmd
  | ncount
  | bitlen
  | rdptr
  | dpos
  | dout
  | finfo
deriving DecidableEq, Repr

/-- The word an offset names. -/
inductive Target
  /-- A register. -/
  | reg (r : Reg)
  /-- NODE[i], i = 0 to 510. -/
  | node (i : NodeIdx)
  /-- Word k of code entry b: HDR for k = 0, W1 to W8 for k = 1 to 8. -/
  | codeWord (b : Byte) (k : Nat)
  /-- Bit word w. -/
  | bitWord (w : Nat)
deriving DecidableEq, Repr

/-- The offset of each register (R60). -/
def Reg.offset : Reg → Offset
  | .id => 0x0000
  | .cap => 0x0004
  | .status => 0x0008
  | .cmd => 0x000C
  | .ncount => 0x0010
  | .bitlen => 0x0014
  | .rdptr => 0x0018
  | .dpos => 0x001C
  | .dout => 0x0020
  | .finfo => 0x0024

/-- The registers in the order of their offsets. -/
def Reg.all : List Reg := [.id, .cap, .status, .cmd, .ncount, .bitlen, .rdptr, .dpos, .dout, .finfo]

/-- The word at a 4-byte aligned offset, `none` where the offset is unmapped (R60). `cap` is BITCAP. -/
def target (cap : Nat) (off : Offset) : Option Target :=
  let o := off.toNat
  if o < 0x1000 then (Reg.all.find? (fun r => r.offset == off)).map Target.reg
  else if o < 0x4000 then
    if o < 0x17FC then some (.node (BitVec.ofNat 9 ((o - 0x1000) / 4))) else none
  else if o < 0x8000 then
    let k := (o - 0x4000) % 64 / 4
    if k ≤ 8 then some (.codeWord (BitVec.ofNat 8 ((o - 0x4000) / 64)) k) else none
  else
    let w := (o - 0x8000) / 4
    if w < cap / 32 then some (.bitWord w) else none

/-- The word an access reaches if it is accepted: "n = 4, off mod 4 = 0, and off is the offset of a mapped word" (R63). -/
def accepted (s : State) (off : Offset) (n : Size) : Option Target :=
  if n = .word ∧ off.toNat % 4 = 0 then target s.cap.toNat off else none

end Sys2Proof.Machine
end

