-- ==== Sys2Proof/Machine/Flags.lean ====
section
/-! DEFINITION. The STATUS word and its computed flag (10_state.md R23, R36), the FINFO layouts (60_exceptions.md R225), and
what each end of a decode command leaves in DVALID and DEMPTY (43_decoder.md R161, R162). HCC-1 has no condition codes (R41). -/

namespace Sys2Proof.Machine

/-- A bit as a word. -/
def boolWord (b : Bool) : Word := (BitVec.ofBool b).setWidth 32

/-- ATROOT: 1 if DPOS = NCOUNT - 1 (R36). -/
def State.atRoot (s : State) : Bool := s.dpos == s.root

/-- The value STATUS reads as: "zext_32(FCODE) << 8 | ATROOT << 3 | DEMPTY << 2 | DVALID << 1 | FAULT" (R23). -/
def State.status (s : State) : Word :=
  (s.fcode.setWidth 32 <<< 8) ||| (boolWord s.atRoot <<< 3) ||| (boolWord s.dempty <<< 2) |||
    (boolWord s.dvalid <<< 1) ||| boolWord s.fault

/-! ### FINFO (R225) -/

/-- The size code of R63: 0, 1, 2 for 1, 2, 4 bytes. -/
def Size.code : Size → Word
  | .byte => 0
  | .half => 1
  | .word => 2

/-- ACCESS_ERR: the offset, bit 16 set for a write, the size code in bits 18:17. -/
def infoAccess (isWrite : Bool) (off : Offset) (n : Size) : Word :=
  off.setWidth 32 ||| (boolWord isWrite <<< 16) ||| (n.code <<< 17)

/-- RANGE: the register's offset. -/
def infoRange (r : Reg) : Word := r.offset.setWidth 32

/-- NO_CODE: the byte. -/
def infoByte (b : Byte) : Word := b.setWidth 32

/-- BIT_OVERFLOW: the byte in bits 7:0, its code length in bits 15:8. -/
def infoOverflow (b len : Byte) : Word := b.setWidth 32 ||| (len.setWidth 32 <<< 8)

/-- CODE_TOO_LONG and TREE_LOOP: the node. -/
def infoNode (i : NodeIdx) : Word := i.setWidth 32

/-- NO_CHILD: the node in bits 8:0, the side in bit 12. -/
def infoNoChild (i : NodeIdx) (side : Bool) : Word := i.setWidth 32 ||| (boolWord side <<< 12)

/-- BAD_INDEX: the parent in bits 8:0, the side in bit 12, the child index found in bits 24:16. -/
def infoBadIndex (i : NodeIdx) (side : Bool) (child : NodeIdx) : Word :=
  i.setWidth 32 ||| (boolWord side <<< 12) ||| (child.setWidth 32 <<< 16)

/-! ### The ends of a decode command -/

/-- No bit was left at read position `r`, tree position `d`: DEMPTY <- 1, DVALID <- 0. -/
def State.decodedEmpty (s : State) (r : Nat) (d : NodeIdx) : State :=
  { s with rdptr := BitVec.ofNat 32 r, dpos := d, dempty := true, dvalid := false }

/-- The walk moved to an internal node: DEMPTY <- 0, DVALID <- 0. -/
def State.decodedMove (s : State) (r : Nat) (d : NodeIdx) : State :=
  { s with rdptr := BitVec.ofNat 32 r, dpos := d, dempty := false, dvalid := false }

/-- The walk reached a leaf holding `v`: DOUT <- v, DEMPTY <- 0, DVALID <- 1. -/
def State.decodedByte (s : State) (r : Nat) (d : NodeIdx) (v : Byte) : State :=
  { s with rdptr := BitVec.ofNat 32 r, dpos := d, dout := v, dempty := false, dvalid := true }

end Sys2Proof.Machine
end

