-- ==== Sys2Proof/Machine/Control.lean ====
section
/-! DEFINITION. The control commands (41_control.md R141 to R143). They run while FAULT = 1 too (R140). -/

namespace Sys2Proof.Machine

/-- NOP: "no operation" (R141). -/
def execNop (s : State) : Host.Outcome State Fault Refusal :=
  .next s

/-- SRESET: ResetState (R142, R240). -/
def execSreset (s : State) : Host.Outcome State Fault Refusal :=
  .next s.resetState

/-- CLRF: clears the fault record, nothing else (R143). -/
def execClrf (s : State) : Host.Outcome State Fault Refusal :=
  .next s.clearFault

end Sys2Proof.Machine
end

