-- ==== Sys2Proof/Machine/Decoder.lean ====
section
/-! DEFINITION. The decoder (43_decoder.md R160 to R162). -/

namespace Sys2Proof.Machine

/-- The result of one decode iteration (R160). -/
inductive DecodeResult
  | empty
  | fail (c : FaultCode) (info : Word)
  | move (r : Nat) (d : NodeIdx)
  | emit (r : Nat) (d : NodeIdx) (v : Byte)
deriving DecidableEq, Repr

/-- How a DECB ends (R162). -/
inductive DecbEnd
  | ranOut (r : Nat) (d : NodeIdx)
  | failed (c : FaultCode) (info : Word)
  | byte (r : Nat) (d : NodeIdx) (v : Byte)
deriving DecidableEq, Repr

/-- DecodeStep(r, d), one iteration from read position r and tree position d; it writes nothing (R160). -/
def decodeStep (s : State) (r : Nat) (d : NodeIdx) : DecodeResult :=
  if r ≥ s.bitlen.toNat then .empty
  else
    let b := readBit s.bits r
    let n := nodeWord s.tree d
    let c := nodeChild n b
    if !nodeHasChild n b then .fail .noChild (infoNoChild d b)
    else if c.toNat ≥ s.ncount.toNat then .fail .badIndex (infoBadIndex d b c)
    else if nodeIsLeaf (nodeWord s.tree c) then .emit (r + 1) s.root (nodeValue (nodeWord s.tree c))
    else .move (r + 1) c

/-- DSTEP's rule (R161). -/
def decodeBit (s : State) : State :=
  match decodeStep s s.rdptr.toNat s.dpos with
  | .empty => s.decodedEmpty s.rdptr.toNat s.dpos
  | .fail c info => s.raise c info
  | .move r d => s.decodedMove r d
  | .emit r d v => s.decodedByte r d v

/-- DECB's loop from (r, d) with `left` bits left, `left` = BITLEN - r: with none left DecodeStep gives Empty (R162; log entry 11). -/
def decbLoop (s : State) (left r : Nat) (d : NodeIdx) : DecbEnd :=
  match left with
  | 0 => .ranOut r d
  | left + 1 =>
    match decodeStep s r d with
    | .empty => .ranOut r d
    | .fail c info => .failed c info
    | .move r' d' => decbLoop s left r' d'
    | .emit r' d' v => .byte r' d' v

/-- DECB's rule: a fault leaves RDPTR and DPOS as before the command (R162). -/
def decodeByte (s : State) : State :=
  match decbLoop s (s.bitlen.toNat - s.rdptr.toNat) s.rdptr.toNat s.dpos with
  | .ranOut r d => s.decodedEmpty r d
  | .failed c info => s.raise c info
  | .byte r d v => s.decodedByte r d v

/-- DSTEP, dropped while FAULT = 1 (R140, R161). -/
def execDstep (s : State) : Host.Outcome State Fault Refusal :=
  .next (s.unlessFaulted decodeBit)

/-- DECB, dropped while FAULT = 1 (R140, R162). -/
def execDecb (s : State) : Host.Outcome State Fault Refusal :=
  .next (s.unlessFaulted decodeByte)

end Sys2Proof.Machine
end

