-- ==== Sys2Proof/Machine/Encoder.lean ====
section
/-! DEFINITION. The encoder (42_encoder.md R150). -/

namespace Sys2Proof.Machine

/-- ENCB(b) (R150): NO_CODE checked first, BIT_OVERFLOW second; else the code's LEN bits go to positions BITLEN onwards and
BITLEN grows by LEN. -/
def encodeByte (b : Byte) (s : State) : State :=
  let len := codeLen s.code b
  if !codeValid s.code b then s.raise .noCode (infoByte b)
  else if s.bitlen.toNat + len.toNat > s.cap.toNat then s.raise .bitOverflow (infoOverflow b len)
  else
    { s with
      bits := writeBits s.bits s.bitlen.toNat (codePath s.code b)
      bitlen := BitVec.ofNat 32 (s.bitlen.toNat + len.toNat) }

/-- ENCB b, dropped while FAULT = 1 (R140, R150). -/
def execEncb (b : Byte) (s : State) : Host.Outcome State Fault Refusal :=
  .next (s.unlessFaulted (encodeByte b))

end Sys2Proof.Machine
end

