-- ==== Sys2Proof/Machine/TableBuild.lean ====
section
/-! DEFINITION. The code-table builder (44_table_build.md R180). -/

namespace Sys2Proof.Machine

/-- What the walk carries: the visits made so far, and the staging copy T of the code RAM. -/
structure WalkState where
  visits : Nat
  table : Memory
deriving DecidableEq, Repr

/-- Walk(i, path) (R180), `levels` = 255 - |path|, so an internal node with `levels` = 0 stands at depth 255 (log entry 11).
It answers the fault raised, or the visits and T it leaves. -/
def walk (s : State) (levels : Nat) (i : NodeIdx) (path : List Bool) (w : WalkState) :
    Except (FaultCode × Word) WalkState :=
  if w.visits + 1 > s.ncount.toNat then .error (.treeLoop, infoNode i)
  else
    let n := nodeWord s.tree i
    if nodeIsLeaf n then .ok ⟨w.visits + 1, writeEntry w.table (nodeValue n) path⟩
    else
      match levels with
      | 0 => .error (.codeTooLong, infoNode i)
      | levels + 1 =>
        let afterLeft :=
          if nodeHasLeft n then
            if (nodeLeft n).toNat ≥ s.ncount.toNat then .error (.badIndex, infoBadIndex i false (nodeLeft n))
            else walk s levels (nodeLeft n) (path ++ [false]) ⟨w.visits + 1, w.table⟩
          else .ok ⟨w.visits + 1, w.table⟩
        match afterLeft with
        | .error e => .error e
        | .ok w' =>
          if nodeHasRight n then
            if (nodeRight n).toNat ≥ s.ncount.toNat then .error (.badIndex, infoBadIndex i true (nodeRight n))
            else walk s levels (nodeRight n) (path ++ [true]) w'
          else .ok w'

/-- BUILDTAB's rule: the walk from the root with T all zero; a fault leaves the code RAM unchanged, else all 256 entries are
replaced by T (R180). -/
def buildTable (s : State) : State :=
  match walk s Config.maxCode s.root [] ⟨0, []⟩ with
  | .error (c, info) => s.raise c info
  | .ok w => { s with code := w.table }

/-- BUILDTAB, dropped while FAULT = 1 (R140, R180). -/
def execBuildtab (s : State) : Host.Outcome State Fault Refusal :=
  .next (s.unlessFaulted buildTable)

end Sys2Proof.Machine
end

