-- ==== Sys2Proof/Machine/Dispatch.lean ====
section
/-! DEFINITION. One arm per command (41_control.md R140). -/

namespace Sys2Proof.Machine

/-- The effect of a command (R140, after the ILLEGAL_CMD check; each meaning holds its own drop while FAULT = 1). -/
def exec (i : Instr) (s : State) : Host.Outcome State Fault Refusal :=
  match i with
  | .nop => Sys2Proof.Machine.execNop s
  | .sreset => Sys2Proof.Machine.execSreset s
  | .clrf => Sys2Proof.Machine.execClrf s
  | .encb b => Sys2Proof.Machine.execEncb b s
  | .dstep => Sys2Proof.Machine.execDstep s
  | .decb => Sys2Proof.Machine.execDecb s
  | .buildtab => Sys2Proof.Machine.execBuildtab s

end Sys2Proof.Machine
end

