-- ==== Sys2Proof/Machine/Port.lean ====
section
/-! DEFINITION. The host accesses: acceptance (20_memory.md R63), reads (40_register_access.md R110 to R114), writes (R115 to
R123), and the command dispatch behind CMD (41_control.md R140). -/

namespace Sys2Proof.Machine

/-- ExecuteCommand(w): an illegal word raises ILLEGAL_CMD, checked before anything else; a legal one runs its command, which
drops itself while FAULT = 1 unless it is NOP, SRESET or CLRF (R140). -/
def executeCommand (w : Word) (s : State) : Host.Outcome State Fault Refusal :=
  match decode w with
  | .error _ => .next (s.raise .illegalCmd w)
  | .ok i => exec i s

/-- RegRead (R111). -/
def readReg (s : State) : Reg → Word
  | .id => Config.idValue
  | .cap => s.cap
  | .status => s.status
  | .cmd => 0
  | .ncount => s.ncount.setWidth 32
  | .bitlen => s.bitlen
  | .rdptr => s.rdptr
  | .dpos => s.dpos.setWidth 32
  | .dout => s.dout.setWidth 32
  | .finfo => s.finfo

/-- CodeWordRead (R113): HDR reads as VALID and LEN, W1 to W8 as the code bits, bit 0 of W8 as 0. -/
def readCodeWord (s : State) (b : Byte) (k : Nat) : Word :=
  if k = 0 then headerWord (codeValid s.code b) (codeLen s.code b)
  else Memory.readWord s.code (codeAddr b k) &&& codeWordMask k

/-- ReadWord (R110). -/
def readTarget (s : State) : Target → Word
  | .reg r => readReg s r
  | .node i => nodeWord s.tree i
  | .codeWord b k => readCodeWord s b k
  | .bitWord w => Memory.readWord s.bits (bitWordAddr w)

/-- Write NCOUNT: RANGE outside 1 to 511, else also DPOS <- v - 1 (R115). -/
def writeNcount (v : Word) (s : State) : State :=
  if v.toNat < 1 ∨ v.toNat > Config.nmax then s.raise .range (infoRange .ncount)
  else { s with ncount := v.setWidth 9, dpos := (v - 1).setWidth 9 }

/-- Write BITLEN: RANGE above BITCAP (R116). -/
def writeBitlen (v : Word) (s : State) : State :=
  if v.toNat > s.cap.toNat then s.raise .range (infoRange .bitlen)
  else { s with bitlen := v }

/-- Write RDPTR: RANGE above BITCAP, else also DPOS <- NCOUNT - 1 (R117). -/
def writeRdptr (v : Word) (s : State) : State :=
  if v.toNat > s.cap.toNat then s.raise .range (infoRange .rdptr)
  else { s with rdptr := v, dpos := s.root }

/-- Write to a read-only register: ACCESS_ERR always, the value ignored (R118). -/
def writeReadOnly (r : Reg) (s : State) : State :=
  s.raise .accessErr (infoAccess true r.offset .word)

/-- Write a register (R115 to R119). -/
def writeReg (r : Reg) (v : Word) (s : State) : Host.Outcome State Fault Refusal :=
  match r with
  | .cmd => executeCommand v s
  | .ncount => .next (writeNcount v s)
  | .bitlen => .next (writeBitlen v s)
  | .rdptr => .next (writeRdptr v s)
  | .id | .cap | .status | .dpos | .dout | .finfo => .next (writeReadOnly r s)

/-- The bits word k of a code entry keeps of a written value (R121, R122). -/
def storedCodeWord (k : Nat) (v : Word) : Word :=
  if k = 0 then v &&& headerMask else v &&& codeWordMask k

/-- WriteWord (R115 to R123). -/
def writeTarget (tgt : Target) (v : Word) (s : State) : Host.Outcome State Fault Refusal :=
  match tgt with
  | .reg r => writeReg r v s
  | .node i => .next { s with tree := Memory.writeWord s.tree (nodeAddr i) (v &&& nodeMask) }
  | .codeWord b k => .next { s with code := Memory.writeWord s.code (codeAddr b k) (storedCodeWord k v) }
  | .bitWord w => .next { s with bits := Memory.writeWord s.bits (bitWordAddr w) v }

/-- A host read: the word if accepted, else ACCESS_ERR and the value 0 (R63). -/
def hostRead (off : Offset) (n : Size) (s : State) : State :=
  match accepted s off n with
  | some tgt => s.reply (readTarget s tgt)
  | none => (s.raise .accessErr (infoAccess false off n)).reply 0

/-- A host write: the write of its word if accepted, else ACCESS_ERR and no other effect (R63). -/
def hostWrite (off : Offset) (n : Size) (v : Word) (s : State) : Host.Outcome State Fault Refusal :=
  match accepted s off n with
  | some tgt => writeTarget tgt v s
  | none => .next (s.raise .accessErr (infoAccess true off n))

/-- One request, whole (R62, R66, R240). -/
def perform (q : Request) (s : State) : Host.Outcome State Fault Refusal :=
  match q with
  | .read off n => .next (hostRead off n s)
  | .write off n v => hostWrite off n v s
  | .resetInput => .next s.resetState

/-- The host access at a host address: an access at offset address - HCC_BASE, if the address is in the window (R61). -/
def windowOffset (address : Nat) : Option Offset :=
  if Config.hccBase ≤ address ∧ address < Config.hccBase + 65536 then
    some (BitVec.ofNat 16 (address - Config.hccBase))
  else none

/-- The CMD write that issues a command word (R119). -/
def commandRequest (w : Word) : Request := .write Reg.cmd.offset .word w

end Sys2Proof.Machine
end

