-- ==== Sys2Proof/Machine/Step.lean ====
section
/-! DEFINITION. One step: the oldest pending host request, performed whole (20_memory.md R62). -/

namespace Sys2Proof.Machine

/-- "HCC-1 performs host accesses one at a time, in the order the host issues them" (R62). With none pending nothing changes
(log entry 1). -/
def step (s : State) : Host.Outcome State Fault Refusal :=
  match s.port with
  | [] => .next s
  | q :: rest => perform q { s with port := rest }

/-- `s` with a CMD write of the command word as its next request: HCC-1 has no program counter and fetches nothing, "the host
writes each command to CMD" (10_state.md R39; log entry 3). Bits of `w` above `nbits` are 0. -/
def State.withFetchWord (s : State) (nbits w : Nat) : State :=
  { s with port := commandRequest (BitVec.ofNat 32 (w % 2 ^ nbits)) :: s.port }

end Sys2Proof.Machine
end

