-- ==== Sys2Proof/Machine/HostProgram.lean ====
section
/-! DEFINITION. The host program notation (30_encoding.md R88, R89): lines that are one host access each, the
pseudo-instructions they expand from, and the host's decode loop `decall`. This is host software beside HCC-1; no step of the
machine uses it (log entry 12). -/

namespace Sys2Proof.Machine.HostProgram

/-- NAME of R88: what a line reads or writes. -/
inductive Place
  | reg (r : Reg)
  | node (i : Nat)
  | codeHdr (b : Byte)
  | codeW (b : Byte) (k : Nat)
  | bitw (w : Nat)
  | lit (off : Offset)
deriving DecidableEq, Repr

/-- The offset of NAME (R88). DESIGN CHOICE (log entry 15): an offset has 16 bits (20_memory.md R62) and R88 gives no access to a NAME whose
index takes it above 0xFFFF (NODE[i] from i = 0x3C00, BITW[w] from w = 8192) nor a Wk with k outside 1 to 8; the formula is taken modulo
2^16 there. -/
def Place.offset : Place → Offset
  | .reg r => r.offset
  | .node i => BitVec.ofNat 16 (0x1000 + 4 * i)
  | .codeHdr b => BitVec.ofNat 16 (codeAddr b 0)
  | .codeW b k => BitVec.ofNat 16 (codeAddr b k)
  | .bitw w => BitVec.ofNat 16 (bitWordAddr w)
  | .lit off => off

/-- A line of a host program (R88). -/
inductive Line
  | wr (p : Place) (v : Word)
  | rd (p : Place)
  | wr8 (p : Place) (v : Word)
  | wr16 (p : Place) (v : Word)
  | rd8 (p : Place)
  | rd16 (p : Place)
  | cmd (i : Instr)
deriving DecidableEq, Repr

/-- The host access a line is: the "encoding" of a line (R88). -/
def Line.request : Line → Request
  | .wr p v => .write p.offset .word v
  | .rd p => .read p.offset .word
  | .wr8 p v => .write p.offset .byte v
  | .wr16 p v => .write p.offset .half v
  | .rd8 p => .read p.offset .byte
  | .rd16 p => .read p.offset .half
  | .cmd i => commandRequest (encode i)

/-- `node i, VALUE, L, R`: the word W written (R89). -/
def nodeWordOf (value : Byte) (l r : Option NodeIdx) : Word :=
  let left : Word := match l with | none => 0 | some c => (c.setWidth 32 <<< 8) ||| (1 <<< 17)
  let right : Word := match r with | none => 0 | some c => (c.setWidth 32 <<< 20) ||| (1 <<< 29)
  value.setWidth 32 ||| left ||| right

/-- `node i, VALUE, L, R` (R89). -/
def node (i : Nat) (value : Byte) (l r : Option NodeIdx) : List Line :=
  [.wr (.node i) (nodeWordOf value l r)]

/-- `loadtree w0, ..., wk-1`: the node words in order, then NCOUNT (R89). A list too long for the offsets or for a 32-bit NCOUNT falls under log
entry 15. -/
def loadtree (ws : List Word) : List Line :=
  (ws.zipIdx.map fun x => Line.wr (.node x.2) x.1) ++ [.wr (.reg .ncount) (BitVec.ofNat 32 ws.length)]

/-- `encs "s"`: one `encb` per byte, in order (R89). -/
def encs (bs : List Byte) : List Line := bs.map fun b => Line.cmd (.encb b)

/-- `loadbits L, v0, v1, ...`: the bit words, then BITLEN, then RDPTR 0 (R89). A list too long for the offsets falls under log entry 15. -/
def loadbits (len : Word) (vs : List Word) : List Line :=
  (vs.zipIdx.map fun x => Line.wr (.bitw x.2) x.1) ++ [.wr (.reg .bitlen) len, .wr (.reg .rdptr) 0]

/-- The lines of a program performed in order, each whole (20_memory.md R62). -/
def run : List Line → State → Host.Outcome State Fault Refusal
  | [], s => .next s
  | l :: ls, s =>
    match perform l.request s with
    | .next t => run ls t
    | .fault f => .fault f
    | .refused r => .refused r

/-- `decall`: repeat `decb`, `rd STATUS`, and when DVALID = 1 `rd DOUT`, until DEMPTY = 1 (R89); stops with an error (`none`)
on STATUS.FAULT = 1 (49_host_reference.md R197). `rounds` bounds the DECB commands; BITLEN + 1 are enough (R197). It answers
the bytes collected and the state reached. -/
def decall : Nat → State → Option (List Byte × State)
  | 0, _ => none
  | rounds + 1, s =>
    match run [.cmd .decb, .rd (.reg .status)] s with
    | .next t =>
      let st := t.replies.headD 0
      if st.getLsbD 0 then none
      else
        match run (if st.getLsbD 1 then [.rd (.reg .dout)] else []) t with
        | .next u =>
          let out : List Byte := if st.getLsbD 1 then [(u.replies.headD 0).extractLsb' 0 8] else []
          if st.getLsbD 2 then some (out, u)
          else (decall rounds u).map fun x => (out ++ x.1, x.2)
        | _ => none
    | _ => none

end Sys2Proof.Machine.HostProgram
end

