-- ==== Sys2Proof/Machine/HostReference.lean ====
section
/-! DEFINITION. The host reference of 49_host_reference.md: the frequency counter (R190), the tree builder (R191 to R194), and
the encode and decode programs (R195 to R197). It is host software, outside HCC-1 (00_scope.md R4); it stands here only so that
claims about a whole round trip can be stated (log entry 12). No definition of the machine uses it. -/

namespace Sys2Proof.Machine.HostReference
open HostProgram

/-- The byte values with count > 0, in ascending order: P of R191, counts as in R190 (`List.count`). -/
def present (bs : List Byte) : List Byte :=
  ((List.range 256).map (BitVec.ofNat 8)).filter fun b => decide (0 < bs.count b)

/-- The queue's order: "the pair (count, node index), compared count first, then index" (R192). -/
def before (x y : Nat × Nat) : Bool := decide (x.1 < y.1) || (x.1 == y.1 && decide (x.2 ≤ y.2))

/-- The smallest of `x` and the pairs of a list. -/
def smallest (x : Nat × Nat) (q : List (Nat × Nat)) : Nat × Nat :=
  q.foldl (fun m y => if before m y then m else y) x

/-- Pops the smallest pair of a queue (R192). -/
def pop : List (Nat × Nat) → Option ((Nat × Nat) × List (Nat × Nat))
  | [] => none
  | x :: q => some (smallest x q, (x :: q).erase (smallest x q))

/-- The merge loop (R192): pop x, pop y, append a node with left child x and right child y, push it with the summed count.
`rounds` bounds the merges; a queue of k leaves makes k - 1. -/
def merge : Nat → List Word → List (Nat × Nat) → List Word
  | 0, nodes, _ => nodes
  | rounds + 1, nodes, q =>
    match pop q with
    | none => nodes
    | some (x, q1) =>
      match pop q1 with
      | none => nodes
      | some (y, q2) =>
        merge rounds
          (nodes ++ [nodeWordOf 0 (some (BitVec.ofNat 9 x.2)) (some (BitVec.ofNat 9 y.2))])
          ((x.1 + y.1, nodes.length) :: q2)

/-- The tree builder's node words, index 0 first, the root last (R191 to R194). -/
def treeWords (bs : List Byte) : List Word :=
  match present bs with
  | [] => [0]
  | [v] => [v.setWidth 32, 0x20000000]
  | v :: w :: vs =>
    let leaves := v :: w :: vs
    merge leaves.length (leaves.map fun b => b.setWidth 32) (leaves.zipIdx.map fun x => (bs.count x.1, x.2))

/-- An Encoded value (10_state.md R40): the tree words, the bit length, the bit words. -/
structure Encoded where
  tree : List Word
  len : Word
  words : List Word
deriving DecidableEq, Repr

/-- The STATUS value a program's last read returned shows FAULT = 1. -/
def faultShown (s : State) : Bool := (s.replies.headD 0).getLsbD 0

/-- The encode program (R196), `none` where the host sees FAULT = 1. DESIGN CHOICE (log entry 12): R196 lets the host start with `sreset`,
or with `wr BITLEN, 0` and `wr RDPTR, 0` on a known-clean core; this program starts with `sreset`. -/
def hostEncode (bs : List Byte) (s : State) : Option Encoded :=
  match run ([.cmd .sreset] ++ loadtree (treeWords bs) ++ [.cmd .buildtab, .rd (.reg .status)]) s with
  | .next t =>
    if faultShown t then none
    else
      match run (encs bs ++ [.rd (.reg .status)]) t with
      | .next u =>
        if faultShown u then none
        else
          match run [.rd (.reg .bitlen)] u with
          | .next v =>
            let len := v.replies.headD 0
            let n := (len.toNat + 31) / 32
            match run ((List.range n).map fun w => Line.rd (.bitw w)) v with
            | .next x => some ⟨treeWords bs, len, (x.replies.take n).reverse⟩
            | _ => none
          | _ => none
      | _ => none
  | _ => none

/-- The decode program (R197), `none` where the host sees FAULT = 1. -/
def hostDecode (e : Encoded) (s : State) : Option (List Byte) :=
  match run (loadtree e.tree ++ loadbits e.len e.words) s with
  | .next t => (decall (e.len.toNat + 1) t).map fun x => x.1
  | _ => none

end Sys2Proof.Machine.HostReference
end

