-- ==== Sys2Proof/Safety.lean ====
section
/-! DEFINITION. The terms claims are stated in: the invariant of reachable states (10_state.md R37, R38; 30_encoding.md R81,
R82; 60_exceptions.md R210), the precise-fault relation (60_exceptions.md R215), the Encoded value (10_state.md R40), the walk of
a path of bits from the root (44_table_build.md R182, R183), and runs of commands. -/

namespace Sys2Proof.Machine

/-! ### The invariant -/

/-- The listed offsets of a RAM lie in a region of the window. -/
def Memory.within (m : Memory) (lo hi : Nat) : Prop := ∀ c ∈ m, lo ≤ c.1 ∧ c.1 < hi

/-- The fault record is coherent: nothing recorded while FAULT = 0, a listed code while FAULT = 1 (R23, R29, R210). -/
def State.recordOk (s : State) : Prop :=
  (s.fault = false → s.fcode = 0 ∧ s.finfo = 0) ∧ (s.fault = true → ∃ c : FaultCode, s.fcode = c.number)

/-- What holds in every reachable state. -/
structure State.Inv (s : State) : Prop where
  /-- BITCAP is a legal value (R10). -/
  cap_legal : Config.BitcapLegal s.cap.toNat
  /-- The tree has at least one node (R24); 9 bits bound it by 511. -/
  ncount_pos : 1 ≤ s.ncount.toNat
  /-- DPOS < NCOUNT (R37). -/
  dpos_lt : s.dpos.toNat < s.ncount.toNat
  /-- BITLEN <= BITCAP (R38). -/
  bitlen_le : s.bitlen.toNat ≤ s.cap.toNat
  /-- RDPTR <= BITCAP (R38). -/
  rdptr_le : s.rdptr.toNat ≤ s.cap.toNat
  /-- The fault record is coherent (R23, R29, R210). -/
  record_ok : s.recordOk
  /-- The RAMs keep their canonical form. -/
  tree_wf : Memory.wf s.tree
  code_wf : Memory.wf s.code
  bits_wf : Memory.wf s.bits
  /-- Each RAM lists offsets of its own region only (R60). -/
  tree_within : Memory.within s.tree 0x1000 0x17FC
  code_within : Memory.within s.code 0x4000 0x8000
  bits_within : Memory.within s.bits 0x8000 (0x8000 + s.cap.toNat / 8)
  /-- The reserved bits of node words are 0 (R81). -/
  node_reserved : ∀ i : NodeIdx, nodeWord s.tree i &&& ~~~nodeMask = 0
  /-- Bits 30:8 of every HDR are 0 (R82). -/
  header_reserved : ∀ b : Byte, Memory.readWord s.code (codeAddr b 0) &&& ~~~headerMask = 0
  /-- Bit 0 of every W8 is 0 (R82). -/
  w8_reserved : ∀ b : Byte, (Memory.readWord s.code (codeAddr b 8)).getLsbD 0 = false

/-! ### The host window -/

/-- The offsets of mapped words, as the table of R60 lists them; `cap` is BITCAP. -/
def MappedOffset (cap off : Nat) : Prop :=
  off < 0x28 ∨ (0x1000 ≤ off ∧ off < 0x17FC) ∨ (0x4000 ≤ off ∧ off < 0x8000 ∧ off % 64 < 36) ∨
    (0x8000 ≤ off ∧ off < 0x8000 + cap / 8)

/-! ### Faults -/

/-- `t` is `s` but for FAULT, FCODE and FINFO: all a faulting operation may change (R215). -/
def State.SameButRecord (s t : State) : Prop :=
  t = { s with fault := t.fault, fcode := t.fcode, finfo := t.finfo }

/-! ### The Encoded value -/

/-- The Encoded value a state holds: the tree words NODE[0..NCOUNT-1] and the bits BIT(0..BITLEN-1) (R40). -/
def State.encodedValue (s : State) : List Word × List Bool :=
  ((List.range s.ncount.toNat).map fun i => nodeWord s.tree (BitVec.ofNat 9 i),
    (List.range s.bitlen.toNat).map (readBit s.bits))

/-- The bits of the sequence from position p on, n of them. -/
def State.bitsFrom (s : State) (p n : Nat) : List Bool := (List.range n).map fun j => readBit s.bits (p + j)

/-! ### Paths in the tree -/

/-- The node the decoder's walk reaches from node i along a path: each bit must name a present child below NCOUNT of an internal
node (R13, R160). -/
def nodeAt (tree : Memory) (ncount : NodeIdx) : NodeIdx → List Bool → Option NodeIdx
  | i, [] => some i
  | i, b :: path =>
    let n := nodeWord tree i
    if nodeHasChild n b ∧ (nodeChild n b).toNat < ncount.toNat then nodeAt tree ncount (nodeChild n b) path
    else none

/-- The §4.5 state machine over a list of bits from node `d`: 1 moves right, 0 moves left; at a leaf it outputs the leaf's value
and goes back to `root`; at the end it answers the bytes output and the node it stands on (43_decoder.md R163). `none` where a bit
names an absent child or an index not below NCOUNT. -/
def referenceDecode (tree : Memory) (ncount root : NodeIdx) : NodeIdx → List Bool → Option (List Byte × NodeIdx)
  | d, [] => some ([], d)
  | d, b :: rest =>
    let n := nodeWord tree d
    let c := nodeChild n b
    if nodeHasChild n b ∧ c.toNat < ncount.toNat then
      if nodeIsLeaf (nodeWord tree c) then
        (referenceDecode tree ncount root root rest).map fun x => (nodeValue (nodeWord tree c) :: x.1, x.2)
      else referenceDecode tree ncount root c rest
    else none

/-! ### Trees -/

/-- The shape of a tree a node word can be the root of (10_state.md R31): a leaf, or one or two children. -/
inductive Shape
  | leaf
  | left (l : Shape)
  | right (r : Shape)
  | both (l r : Shape)
deriving DecidableEq, Repr

/-- The nodes of a shape: the visits a walk of it makes (44_table_build.md R180). -/
def Shape.size : Shape → Nat
  | .leaf => 1
  | .left l => 1 + l.size
  | .right r => 1 + r.size
  | .both l r => 1 + l.size + r.size

/-- The length of the longest path of a shape. -/
def Shape.depth : Shape → Nat
  | .leaf => 0
  | .left l => 1 + l.depth
  | .right r => 1 + r.depth
  | .both l r => 1 + max l.depth r.depth

/-- The node words below index `i` have this shape, every present child's index below NCOUNT. -/
def Shape.Represents (tree : Memory) (ncount : NodeIdx) : Shape → NodeIdx → Prop
  | .leaf, i => nodeIsLeaf (nodeWord tree i) = true
  | .left l, i =>
    nodeHasLeft (nodeWord tree i) = true ∧ nodeHasRight (nodeWord tree i) = false ∧
      (nodeLeft (nodeWord tree i)).toNat < ncount.toNat ∧ l.Represents tree ncount (nodeLeft (nodeWord tree i))
  | .right r, i =>
    nodeHasLeft (nodeWord tree i) = false ∧ nodeHasRight (nodeWord tree i) = true ∧
      (nodeRight (nodeWord tree i)).toNat < ncount.toNat ∧ r.Represents tree ncount (nodeRight (nodeWord tree i))
  | .both l r, i =>
    nodeHasLeft (nodeWord tree i) = true ∧ nodeHasRight (nodeWord tree i) = true ∧
      (nodeLeft (nodeWord tree i)).toNat < ncount.toNat ∧ (nodeRight (nodeWord tree i)).toNat < ncount.toNat ∧
      l.Represents tree ncount (nodeLeft (nodeWord tree i)) ∧ r.Represents tree ncount (nodeRight (nodeWord tree i))

/-- The paths to the leaves of a shape, left subtree first: the order the walk of R180 records them in. -/
def Shape.leafPaths : Shape → List (List Bool)
  | .leaf => [[]]
  | .left l => l.leafPaths.map (List.cons false)
  | .right r => r.leafPaths.map (List.cons true)
  | .both l r => l.leafPaths.map (List.cons false) ++ r.leafPaths.map (List.cons true)

/-- The value of the leaf a path leads to from node `i` (0 where it leads nowhere). -/
def leafValue (tree : Memory) (ncount i : NodeIdx) (path : List Bool) : Byte :=
  match nodeAt tree ncount i path with
  | some c => nodeValue (nodeWord tree c)
  | none => 0

/-- The path of the last leaf recorded with value `b`, in the walk's order (R180, corner case 3). -/
def lastPath (tree : Memory) (ncount i : NodeIdx) (paths : List (List Bool)) (b : Byte) : Option (List Bool) :=
  (paths.filter fun p => leafValue tree ncount i p == b).getLast?

/-! ### Runs of commands -/

/-- The commands of a list in order, each after the one before it has completed (20_memory.md R62). -/
def execAll : List Instr → State → Host.Outcome State Fault Refusal
  | [], s => .next s
  | i :: is, s =>
    match exec i s with
    | .next t => execAll is t
    | .fault f => .fault f
    | .refused r => .refused r

end Sys2Proof.Machine
end

