-- ==== Sys2Proof/Certificates/Slice0/Obligations.lean ====
section
/-! DEFINITION. The statements about HCC-1, for the provers. Each docstring names the rule it formalises, or says that it is
derived or the model's own choice. `s.raise c info` is the fault recording of R211, itself stated in `RaiseRecordsFirstFault`. -/

open Sys2Proof Sys2Proof.Machine Sys2Proof.Machine.HostProgram Sys2Proof.Machine.HostReference

/-! ## Encodings -/

/-- R84: the words of the opcode map decode to their commands, ENCB with every BYTE. -/
def Obligations.ListedWordsDecode : Prop :=
  decode 0x00000000 = .ok .nop ∧ decode 0x01000000 = .ok .sreset ∧ decode 0x02000000 = .ok .clrf ∧
    decode 0x20000000 = .ok .dstep ∧ decode 0x21000000 = .ok .decb ∧ decode 0x30000000 = .ok .buildtab ∧
    ∀ b : Byte, decode (0x10000000 ||| b.setWidth 32) = .ok (.encb b)

/-- R80, R84, R86: the encoder and the decoder are inverse to each other; no word but its encoding decodes to a command. -/
def Obligations.DecodeEncodeAgree : Prop :=
  (∀ i : Instr, decode (encode i) = .ok i) ∧ ∀ (w : Word) (i : Instr), decode w = .ok i → encode i = w

/-- R85: every word outside the opcode map, written to CMD, raises ILLEGAL_CMD with the word and has no other effect; NOP is the
only encoding that decodes to a no-op. -/
def Obligations.IllegalWordsFault : Prop :=
  (∀ (w : Word) (s : State),
    w ≠ 0x00000000 → w ≠ 0x01000000 → w ≠ 0x02000000 → w ≠ 0x20000000 → w ≠ 0x21000000 → w ≠ 0x30000000 →
    w &&& 0xFFFFFF00 ≠ 0x10000000 →
    perform (.write 0x000C .word w) s = .next (s.raise .illegalCmd w)) ∧
  ∀ w : Word, decode w = .ok .nop → w = 0

/-! ## Steps -/

/-- R62: a step performs the oldest request the host has issued; that an idle step changes nothing is the model's form of the
host port (log entry 1). -/
def Obligations.StepPerformsOldestRequest : Prop :=
  (∀ (s : State) (q : Request) (rest : List Request), s.port = q :: rest → step s = perform q { s with port := rest }) ∧
    ∀ s : State, s.port = [] → step s = .next s

/-- R119, R140: when the next request is a CMD write of a word that decodes to `i`, the step is `exec i` with the request taken
off the port; a state given its command by `withFetchWord` takes that step. -/
def Obligations.StepRunsDecodedCommand : Prop :=
  (∀ (s : State) (w : Word) (i : Instr) (rest : List Request),
    s.port = .write 0x000C .word w :: rest → decode w = .ok i → step s = exec i { s with port := rest }) ∧
  ∀ (s : State) (i : Instr), step (s.withFetchWord 32 (encode i).toNat) = exec i s

/-- R16: every request completes, from every state: nothing stops the machine. -/
def Obligations.EveryStepCompletes : Prop :=
  ∀ s : State, ∃ t : State, step s = .next t

/-- R22: CAP always reads as BITCAP: no step changes it. -/
def Obligations.CapIsConstant : Prop :=
  ∀ s t : State, step s = .next t → t.cap = s.cap

/-! ## Reset -/

/-- R240 and the table of 10_state.md section 5: the values State.reset holds, as the rules read them. CAP has the reference
value of BITCAP (log entry 4). -/
def Obligations.ResetValues : Prop :=
  State.reset.cap = 262144 ∧ State.reset.ncount = 1 ∧ State.reset.bitlen = 0 ∧ State.reset.rdptr = 0 ∧
    State.reset.dpos = 0 ∧ State.reset.dout = 0 ∧ State.reset.fault = false ∧ State.reset.dvalid = false ∧
    State.reset.dempty = false ∧ State.reset.fcode = 0 ∧ State.reset.finfo = 0 ∧ State.reset.status = 0x00000008 ∧
    (∀ i : NodeIdx, nodeWord State.reset.tree i = 0) ∧
    (∀ b : Byte, codeValid State.reset.code b = false ∧ codeLen State.reset.code b = 0 ∧
      ∀ j, codeBit State.reset.code b j = false) ∧
    ∀ p, readBit State.reset.bits p = false

/-- The invariant holds at reset. -/
def Obligations.ResetInv : Prop := State.reset.Inv

/-- R37, R38, R60, R81, R82, R210: every step keeps the invariant: DPOS below NCOUNT, BITLEN and RDPTR within BITCAP, the fault
record coherent, the RAMs canonical and inside their regions, their reserved bits 0. -/
def Obligations.StepKeepsInv : Prop :=
  ∀ s t : State, s.Inv → step s = .next t → t.Inv

/-! ## Control commands -/

/-- R141: NOP, word 0, leaves every state unchanged, also while FAULT = 1. -/
def Obligations.NopChangesNothing : Prop :=
  encode .nop = 0x00000000 ∧ ∀ s : State, exec .nop s = .next s

/-- R142, R240: SRESET and the reset input set every element to its reset value, from every state, also while FAULT = 1; CAP is
constant. That the host's pending requests and past replies stay is the model's (log entry 6). -/
def Obligations.ResetsSetEveryElement : Prop :=
  encode .sreset = 0x01000000 ∧
  ∀ s : State, exec .sreset s = .next { State.reset with cap := s.cap, port := s.port, replies := s.replies } ∧
    perform .resetInput s = .next { State.reset with cap := s.cap, port := s.port, replies := s.replies }

/-- R143: CLRF clears FAULT, FCODE and FINFO and restores nothing else; with no fault recorded it changes nothing. -/
def Obligations.ClrfClearsTheRecord : Prop :=
  encode .clrf = 0x02000000 ∧
  (∀ s : State, exec .clrf s = .next { s with fault := false, fcode := 0, finfo := 0 }) ∧
  ∀ s : State, s.recordOk → s.fault = false → exec .clrf s = .next s

/-- R140, R213: while FAULT = 1 every command but NOP, SRESET and CLRF is dropped, with no effect and no new record. -/
def Obligations.CommandsDroppedWhileFaulted : Prop :=
  ∀ s : State, s.fault = true →
    (∀ b : Byte, exec (.encb b) s = .next s) ∧ exec .dstep s = .next s ∧ exec .decb s = .next s ∧
      exec .buildtab s = .next s

/-! ## Encoder -/

/-- R150: ENCB with no fault recorded. No entry: NO_CODE, checked first; a code that does not fit: BIT_OVERFLOW; else exactly the
bits BITLEN to BITLEN + LEN - 1 take the code's bits, BITLEN grows by LEN, and nothing else changes. -/
def Obligations.EncbAppendsTheCode : Prop :=
  (∀ b : Byte, encode (.encb b) = 0x10000000 ||| b.setWidth 32) ∧
  ∀ (s : State) (b : Byte), s.fault = false →
    (codeValid s.code b = false → exec (.encb b) s = .next (s.raise .noCode (infoByte b))) ∧
    (codeValid s.code b = true → s.cap.toNat < s.bitlen.toNat + (codeLen s.code b).toNat →
      exec (.encb b) s = .next (s.raise .bitOverflow (infoOverflow b (codeLen s.code b)))) ∧
    (codeValid s.code b = true → s.bitlen.toNat + (codeLen s.code b).toNat ≤ s.cap.toNat →
      ∃ t : State, exec (.encb b) s = .next t ∧
        t.bitlen.toNat = s.bitlen.toNat + (codeLen s.code b).toNat ∧
        (∀ j < (codeLen s.code b).toNat, readBit t.bits (s.bitlen.toNat + j) = codeBit s.code b j) ∧
        (∀ p, p < s.bitlen.toNat ∨ s.bitlen.toNat + (codeLen s.code b).toNat ≤ p → readBit t.bits p = readBit s.bits p) ∧
        t = { s with bits := t.bits, bitlen := t.bitlen })

/-- R150: the frame of ENCB in every case. No register changes but BITLEN and the fault record; the tree and code RAMs do not
change; every byte outside the bit words that hold positions BITLEN to BITLEN + LEN - 1 reads as before. -/
def Obligations.EncbFrame : Prop :=
  ∀ (s t : State) (b : Byte), exec (.encb b) s = .next t →
    t = { s with bits := t.bits, bitlen := t.bitlen, fault := t.fault, fcode := t.fcode, finfo := t.finfo } ∧
    ∀ a : Nat, (∀ j < (codeLen s.code b).toNat,
        a < bitWordAddr ((s.bitlen.toNat + j) / 32) ∨ bitWordAddr ((s.bitlen.toNat + j) / 32) + 4 ≤ a) →
      Memory.read t.bits a = Memory.read s.bits a

/-- R150, corner case 6, and R33: ENCB reads only VALID, LEN and the LEN code bits of its own entry. -/
def Obligations.EncbReadsOnlyItsEntry : Prop :=
  ∀ (s t : State) (b : Byte) (code' : Memory),
    codeValid code' b = codeValid s.code b → codePath code' b = codePath s.code b →
    exec (.encb b) s = .next t → exec (.encb b) { s with code := code' } = .next { t with code := code' }

/-- R151: a run of ENCB commands that raises no fault appends the concatenation of the codes and grows BITLEN by the sum of the
lengths, which does not depend on the order of the bytes; and a run whose bytes all have a code and fit raises none. -/
def Obligations.EncbRunAppends : Prop :=
  (∀ (s t : State) (bs : List Byte), s.fault = false → execAll (bs.map Instr.encb) s = .next t → t.fault = false →
    t.bitlen.toNat = s.bitlen.toNat + (bs.map fun b => (codeLen s.code b).toNat).sum ∧
    t.bitsFrom s.bitlen.toNat (bs.map fun b => (codeLen s.code b).toNat).sum = bs.flatMap (codePath s.code) ∧
    (∀ p, p < s.bitlen.toNat ∨ t.bitlen.toNat ≤ p → readBit t.bits p = readBit s.bits p) ∧
    t = { s with bits := t.bits, bitlen := t.bitlen }) ∧
  (∀ (s : State) (bs bs' : List Byte), bs.Perm bs' →
    (bs.map fun b => (codeLen s.code b).toNat).sum = (bs'.map fun b => (codeLen s.code b).toNat).sum) ∧
  ∀ (s : State) (bs : List Byte), s.fault = false → (∀ b ∈ bs, codeValid s.code b = true) →
    s.bitlen.toNat + (bs.map fun b => (codeLen s.code b).toNat).sum ≤ s.cap.toNat →
    ∃ t : State, execAll (bs.map Instr.encb) s = .next t ∧ t.fault = false

/-- R152: a run of ENCB commands faults with BIT_OVERFLOW at the first byte whose code would take BITLEN above BITCAP; the bytes
before it stay appended, those after it are dropped, and no bit outside the appended range changes. -/
def Obligations.EncbRunOverflows : Prop :=
  ∀ (s : State) (pre post : List Byte) (b : Byte), s.fault = false →
    (∀ c ∈ pre, codeValid s.code c = true) → codeValid s.code b = true →
    s.bitlen.toNat + (pre.map fun c => (codeLen s.code c).toNat).sum ≤ s.cap.toNat →
    s.cap.toNat < s.bitlen.toNat + (pre.map fun c => (codeLen s.code c).toNat).sum + (codeLen s.code b).toNat →
    ∃ t : State, execAll ((pre ++ b :: post).map Instr.encb) s = .next t ∧
      t.fault = true ∧ t.fcode = 0x05 ∧ t.finfo = infoOverflow b (codeLen s.code b) ∧
      t.bitlen.toNat = s.bitlen.toNat + (pre.map fun c => (codeLen s.code c).toNat).sum ∧
      t.bitsFrom s.bitlen.toNat (pre.map fun c => (codeLen s.code c).toNat).sum = pre.flatMap (codePath s.code) ∧
      (∀ p, p < s.bitlen.toNat ∨ t.bitlen.toNat ≤ p → readBit t.bits p = readBit s.bits p) ∧
      t = { s with bits := t.bits, bitlen := t.bitlen, fault := t.fault, fcode := t.fcode, finfo := t.finfo }

/-! ## Decoder -/

/-- R160, R161: DSTEP with no fault recorded, in the five cases of DecodeStep. -/
def Obligations.DstepDecodesOneBit : Prop :=
  encode .dstep = 0x20000000 ∧
  ∀ (s : State) (r : Nat) (b : Bool) (n : Word) (c : NodeIdx), s.fault = false → r = s.rdptr.toNat → b = readBit s.bits r →
    n = nodeWord s.tree s.dpos → c = nodeChild n b →
    (s.bitlen.toNat ≤ r → exec .dstep s = .next { s with dempty := true, dvalid := false }) ∧
    (r < s.bitlen.toNat → nodeHasChild n b = false →
      exec .dstep s = .next (s.raise .noChild (infoNoChild s.dpos b))) ∧
    (r < s.bitlen.toNat → nodeHasChild n b = true → s.ncount.toNat ≤ c.toNat →
      exec .dstep s = .next (s.raise .badIndex (infoBadIndex s.dpos b c))) ∧
    (r < s.bitlen.toNat → nodeHasChild n b = true → c.toNat < s.ncount.toNat → nodeIsLeaf (nodeWord s.tree c) = false →
      exec .dstep s = .next { s with rdptr := s.rdptr + 1, dpos := c, dempty := false, dvalid := false }) ∧
    (r < s.bitlen.toNat → nodeHasChild n b = true → c.toNat < s.ncount.toNat → nodeIsLeaf (nodeWord s.tree c) = true →
      exec .dstep s = .next { s with rdptr := s.rdptr + 1, dpos := s.ncount - 1, dout := nodeValue (nodeWord s.tree c),
                                     dempty := false, dvalid := true })

/-- R162: DECB, when the bits from RDPTR on lead from DPOS along `path` to a leaf, consumes them and emits the leaf's byte. -/
def Obligations.DecbEmitsTheByte : Prop :=
  encode .decb = 0x21000000 ∧
  ∀ (s : State) (path : List Bool) (c : NodeIdx), s.fault = false → path ≠ [] →
    s.rdptr.toNat + path.length ≤ s.bitlen.toNat → s.bitsFrom s.rdptr.toNat path.length = path →
    nodeAt s.tree s.ncount s.dpos path = some c → nodeIsLeaf (nodeWord s.tree c) = true →
    ∃ t : State, exec .decb s = .next t ∧ t.rdptr.toNat = s.rdptr.toNat + path.length ∧
      t = { s with rdptr := t.rdptr, dpos := s.ncount - 1, dout := nodeValue (nodeWord s.tree c), dempty := false,
                   dvalid := true }

/-- R162, corner cases 1 to 3: DECB, when the bits run out before a leaf (or none is left), ends with DEMPTY = 1 at the node
reached; RDPTR stays where it was if it was at or above BITLEN and is BITLEN otherwise. -/
def Obligations.DecbRunsOutOfBits : Prop :=
  ∀ (s : State) (path : List Bool) (d : NodeIdx), s.fault = false →
    path = s.bitsFrom s.rdptr.toNat (s.bitlen.toNat - s.rdptr.toNat) →
    nodeAt s.tree s.ncount s.dpos path = some d → (path ≠ [] → nodeIsLeaf (nodeWord s.tree d) = false) →
    ∃ t : State, exec .decb s = .next t ∧ t.rdptr.toNat = max s.rdptr.toNat s.bitlen.toNat ∧
      t = { s with rdptr := t.rdptr, dpos := d, dempty := true, dvalid := false }

/-- R162, R214: DECB faults at the first bit that selects an absent child or an index not below NCOUNT, with no other effect:
the bits before it, which lead from DPOS along `path` to the internal node `d`, are not consumed. -/
def Obligations.DecbFaultsAtTheFirstBadBit : Prop :=
  ∀ (s : State) (path : List Bool) (d : NodeIdx) (b : Bool), s.fault = false →
    s.rdptr.toNat + path.length < s.bitlen.toNat → s.bitsFrom s.rdptr.toNat path.length = path →
    nodeAt s.tree s.ncount s.dpos path = some d → (path ≠ [] → nodeIsLeaf (nodeWord s.tree d) = false) →
    b = readBit s.bits (s.rdptr.toNat + path.length) →
    (nodeHasChild (nodeWord s.tree d) b = false → exec .decb s = .next (s.raise .noChild (infoNoChild d b))) ∧
    (nodeHasChild (nodeWord s.tree d) b = true → s.ncount.toNat ≤ (nodeChild (nodeWord s.tree d) b).toNat →
      exec .decb s = .next (s.raise .badIndex (infoBadIndex d b (nodeChild (nodeWord s.tree d) b))))

/-- R164: a DECB that ends without a fault leaves the state of the DSTEP commands it replaces, one per bit consumed and one more if
it ends with DEMPTY; one that faults leaves the state before it but for the record, where the DSTEP sequence would leave the
effects of its steps before the faulting bit. -/
def Obligations.DecbEqualsDsteps : Prop :=
  ∀ s t : State, s.fault = false → exec .decb s = .next t →
    (t.fault = false →
      execAll (List.replicate (t.rdptr.toNat - s.rdptr.toNat + if t.dempty then 1 else 0) .dstep) s = .next t) ∧
    (t.fault = true → s.SameButRecord t ∧
      ∃ (n : Nat) (u : State), execAll (List.replicate (n + 1) .dstep) s = .next u ∧ u.fault = true ∧
        u.fcode = t.fcode ∧ u.finfo = t.finfo ∧ u.rdptr.toNat = s.rdptr.toNat + n)

/-- R163: a host that, from RDPTR = 0 and DPOS at the root, repeats DECB until DEMPTY = 1 and collects DOUT after every DECB that
ends with DVALID = 1, and meets no fault, collects exactly the bytes the §4.5 state machine outputs for the sequence; and where that
machine meets no absent child and no bad index, BITLEN + 1 rounds do it. -/
def Obligations.DecodeLoopMatchesStateMachine : Prop :=
  ∀ s : State, s.fault = false → s.rdptr = 0 → s.dpos = s.root →
    (∀ (rounds : Nat) (out : List Byte) (t : State), decall rounds s = some (out, t) →
      referenceDecode s.tree s.ncount s.root s.root (s.bitsFrom 0 s.bitlen.toNat) = some (out, t.dpos)) ∧
    (∀ (out : List Byte) (d : NodeIdx),
      referenceDecode s.tree s.ncount s.root s.root (s.bitsFrom 0 s.bitlen.toNat) = some (out, d) →
      ∃ t : State, decall (s.bitlen.toNat + 1) s = some (out, t) ∧ t.rdptr = s.bitlen ∧ t.dpos = d)

/-- R161, R162: the frame of DSTEP and DECB in every case: only RDPTR, DPOS, DOUT, DVALID, DEMPTY and the fault record may change
(so no byte of a RAM does), DOUT only with DVALID = 1 after, and a recorded fault comes with nothing else. -/
def Obligations.DecodeFrame : Prop :=
  ∀ (s t : State) (i : Instr), i = .dstep ∨ i = .decb → exec i s = .next t →
    t = { s with rdptr := t.rdptr, dpos := t.dpos, dout := t.dout, dvalid := t.dvalid, dempty := t.dempty,
                 fault := t.fault, fcode := t.fcode, finfo := t.finfo } ∧
    (t.dvalid = false → t.dout = s.dout) ∧ (t.fault = true → s.SameButRecord t)

/-- R34, R32, R243: the decoder reads only the tree below NCOUNT and the bits below BITLEN; the code RAM plays no part in decoding.
The premise DPOS < NCOUNT is the invariant R37. -/
def Obligations.DecodeReadsOnlyTheEncodedValue : Prop :=
  ∀ (s t : State) (i : Instr) (tree' code' bits' : Memory), i = .dstep ∨ i = .decb →
    s.dpos.toNat < s.ncount.toNat →
    (∀ j : NodeIdx, j.toNat < s.ncount.toNat → nodeWord tree' j = nodeWord s.tree j) →
    (∀ p < s.bitlen.toNat, readBit bits' p = readBit s.bits p) →
    exec i s = .next t →
    exec i { s with tree := tree', code := code', bits := bits' } =
      .next { t with tree := tree', code := code', bits := bits' }

/-! ## Code-table builder -/

/-- R180: BUILDTAB on a tree RAM whose root has a shape of at most NCOUNT nodes and depth at most 255 completes: only the code RAM
changes; the entry of each byte value of a leaf is the path of the last such leaf in walk order (left subtree first), padded with 0;
every other entry has VALID 0, LEN 0 and bits 0. -/
def Obligations.BuildtabRecordsLeafPaths : Prop :=
  encode .buildtab = 0x30000000 ∧
  ∀ (s : State) (shape : Shape), s.fault = false → shape.Represents s.tree s.ncount s.root →
    shape.size ≤ s.ncount.toNat → shape.depth ≤ 255 →
    ∃ t : State, exec .buildtab s = .next t ∧ t = { s with code := t.code } ∧
      ∀ b : Byte,
        match lastPath s.tree s.ncount s.root shape.leafPaths b with
        | some path => codeValid t.code b = true ∧ codePath t.code b = path ∧
            ∀ j, path.length ≤ j → j < 255 → codeBit t.code b j = false
        | none => codeValid t.code b = false ∧ codeLen t.code b = 0 ∧ ∀ j < 255, codeBit t.code b j = false

/-- R180: BUILDTAB completes without a fault exactly on the trees that fit: a shape below the root with at most NCOUNT nodes and depth
at most 255. -/
def Obligations.BuildtabFaultsExactlyOnBadTrees : Prop :=
  ∀ s t : State, s.fault = false → exec .buildtab s = .next t →
    (t.fault = false ↔
      ∃ shape : Shape, shape.Represents s.tree s.ncount s.root ∧ shape.size ≤ s.ncount.toNat ∧ shape.depth ≤ 255)

/-- R180, R215: the frame of BUILDTAB: without a new fault only the code RAM changes; with one only the record does, and its code is
BAD_INDEX, CODE_TOO_LONG or TREE_LOOP. -/
def Obligations.BuildtabFrame : Prop :=
  ∀ s t : State, exec .buildtab s = .next t →
    (t.fault = s.fault → t = { s with code := t.code }) ∧
    (t.fault ≠ s.fault → s.SameButRecord t ∧ (t.fcode = 0x07 ∨ t.fcode = 0x08 ∨ t.fcode = 0x09))

/-- R180, R214: a root with a left child index not below NCOUNT: BAD_INDEX, side 0; with no left child and a right child index not
below NCOUNT: BAD_INDEX, side 1. -/
def Obligations.BuildtabBadRootChild : Prop :=
  ∀ s : State, s.fault = false → 1 ≤ s.ncount.toNat →
    (nodeHasLeft (nodeWord s.tree s.root) = true → s.ncount.toNat ≤ (nodeLeft (nodeWord s.tree s.root)).toNat →
      exec .buildtab s = .next (s.raise .badIndex (infoBadIndex s.root false (nodeLeft (nodeWord s.tree s.root))))) ∧
    (nodeHasLeft (nodeWord s.tree s.root) = false → nodeHasRight (nodeWord s.tree s.root) = true →
      s.ncount.toNat ≤ (nodeRight (nodeWord s.tree s.root)).toNat →
      exec .buildtab s = .next (s.raise .badIndex (infoBadIndex s.root true (nodeRight (nodeWord s.tree s.root)))))

/-- R180, R214: a root that is its own left child. With NCOUNT up to 255 the visit count passes NCOUNT first: TREE_LOOP at the root;
with more, the walk reaches depth 255 first: CODE_TOO_LONG at the root. -/
def Obligations.BuildtabSelfLoop : Prop :=
  ∀ s : State, s.fault = false → 1 ≤ s.ncount.toNat → nodeHasLeft (nodeWord s.tree s.root) = true →
    nodeLeft (nodeWord s.tree s.root) = s.root →
    (s.ncount.toNat ≤ 255 → exec .buildtab s = .next (s.raise .treeLoop (infoNode s.root))) ∧
    (255 < s.ncount.toNat → exec .buildtab s = .next (s.raise .codeTooLong (infoNode s.root)))

/-- R181, its first two tree shapes: the empty-input tree gives byte 0 an empty code; the single-distinct-byte tree gives its byte the
code "1"; no other byte has an entry. -/
def Obligations.BuildtabSmallTrees : Prop :=
  (∀ s : State, s.fault = false → s.ncount = 1 → nodeWord s.tree 0 = 0 →
    ∃ t : State, exec .buildtab s = .next t ∧ t.fault = false ∧
      ∀ b : Byte, (codeValid t.code b = true ↔ b = 0) ∧ codeLen t.code b = 0) ∧
  ∀ (s : State) (v : Byte), s.fault = false → s.ncount = 2 → nodeWord s.tree 0 = v.setWidth 32 →
    nodeWord s.tree 1 = 0x20000000 →
    ∃ t : State, exec .buildtab s = .next t ∧ t.fault = false ∧ codePath t.code v = [true] ∧
      ∀ b : Byte, codeValid t.code b = true ↔ b = v

/-- R182: after a BUILDTAB that completes, no valid entry's code is a prefix of another valid entry's code. -/
def Obligations.BuildtabIsPrefixFree : Prop :=
  ∀ s t : State, s.fault = false → exec .buildtab s = .next t → t.fault = false →
    ∀ b c : Byte, codeValid t.code b = true → codeValid t.code c = true → codePath t.code b <+: codePath t.code c → b = c

/-- R183: after a BUILDTAB that completes, on any later state with the same tree RAM and NCOUNT, where the bits at r are the code of a
valid byte b of LEN m >= 1: from (r, root) the decode iterations give m - 1 Move outcomes and then Emit(r + m, NCOUNT - 1, b). -/
def Obligations.BuildtabAgreesWithDecoder : Prop :=
  ∀ (s t u : State) (b : Byte) (r m : Nat), s.fault = false → exec .buildtab s = .next t → t.fault = false →
    u.tree = t.tree → u.ncount = t.ncount → codeValid t.code b = true → m = (codeLen t.code b).toNat → 1 ≤ m →
    (∀ j < m, readBit u.bits (r + j) = codeBit t.code b j) → r + m ≤ u.bitlen.toNat →
    ∃ at_ : Nat → NodeIdx, at_ 0 = u.root ∧
      (∀ j, j + 1 < m → decodeStep u (r + j) (at_ j) = .move (r + j + 1) (at_ (j + 1))) ∧
      decodeStep u (r + (m - 1)) (at_ (m - 1)) = .emit (r + m) (u.ncount - 1) b

/-! ## Round trips -/

/-- R151, R163, R183 together, for every tree BUILDTAB accepts: bytes with non-empty codes, encoded from BITLEN on and decoded from
there, come back. -/
def Obligations.EncodeThenDecode : Prop :=
  ∀ (s t : State) (bs : List Byte), s.fault = false → exec .buildtab s = .next t → t.fault = false →
    (∀ b ∈ bs, codeValid t.code b = true ∧ codeLen t.code b ≠ 0) →
    t.bitlen.toNat + (bs.map fun b => (codeLen t.code b).toNat).sum ≤ t.cap.toNat →
    ∃ u v w : State, execAll (bs.map Instr.encb) t = .next u ∧ perform (.write 0x0018 .word t.bitlen) u = .next v ∧
      decall (u.bitlen.toNat - t.bitlen.toNat + 1) v = some (bs, w) ∧ w.rdptr = u.bitlen

/-- R201, R181, with `k` distinct bytes: the tree builder's tree, loaded on any core with no fault recorded, has 2k - 1 nodes (1 for the
empty input, 2 for one distinct byte), and BUILDTAB on it raises no fault: the bytes of the input get an entry and no other does (byte
0 for the empty input), every code has at most max(1, k - 1) bits, and none is empty unless the input is. -/
def Obligations.HostTreesBuildWithoutFault : Prop :=
  ∀ (s : State) (bs : List Byte) (k : Nat), s.fault = false → k = (present bs).length →
    ∃ t u : State, run (loadtree (treeWords bs)) s = .next t ∧ t.ncount.toNat = (if k ≤ 1 then k + 1 else 2 * k - 1) ∧
      exec .buildtab t = .next u ∧ u = { t with code := u.code } ∧ u.fault = false ∧
      ∀ b : Byte, (codeValid u.code b = true ↔ b ∈ bs ∨ bs = [] ∧ b = 0) ∧
        (codeLen u.code b).toNat ≤ max 1 (k - 1) ∧ (b ∈ bs → codeLen u.code b ≠ 0)

/-- R198, for the encode program that starts with sreset (log entry 12): it completes without a fault exactly where the sum of the
code lengths in the loaded tree is at most BITCAP; its Encoded value then has that sum as its length and the concatenation of the code paths, in input order, as its bits. -/
def Obligations.HostEncodeCompletes : Prop :=
  ∀ (bs : List Byte) (s : State), Config.BitcapLegal s.cap.toNat →
    ∃ t : State, run ([.cmd .sreset] ++ loadtree (treeWords bs) ++ [.cmd .buildtab]) s = .next t ∧
      ((hostEncode bs s).isSome = true ↔ (bs.map fun b => (codeLen t.code b).toNat).sum ≤ s.cap.toNat) ∧
      ∀ e : Encoded, hostEncode bs s = some e →
        e.tree = treeWords bs ∧ e.len.toNat = (bs.map fun b => (codeLen t.code b).toNat).sum ∧
        e.words.length = (e.len.toNat + 31) / 32 ∧
        ∀ j (h : j < (bs.flatMap (codePath t.code)).length),
          (e.words.getD (j / 32) 0).getLsbD (31 - j % 32) = (bs.flatMap (codePath t.code))[j]

/-- R199, for the encode program that starts with sreset (log entry 12): for every byte sequence it completes on, the decode
program run on its Encoded value, on any core with no fault recorded and room for it, gives the sequence back. -/
def Obligations.HostRoundTrip : Prop :=
  ∀ (bs : List Byte) (s s' : State) (e : Encoded), Config.BitcapLegal s.cap.toNat → Config.BitcapLegal s'.cap.toNat →
    hostEncode bs s = some e → s'.fault = false → e.len.toNat ≤ s'.cap.toNat → hostDecode e s' = some bs

/-- R195: `loadtree` of 1 to 511 words stores each word, its reserved bits dropped, sets NCOUNT, and puts DPOS at the root; nothing
else changes but tree words. -/
def Obligations.LoadtreeLoads : Prop :=
  ∀ (s : State) (ws : List Word), 1 ≤ ws.length → ws.length ≤ 511 →
    ∃ t : State, run (loadtree ws) s = .next t ∧ t.ncount.toNat = ws.length ∧ t.dpos.toNat = ws.length - 1 ∧
      (∀ i (h : i < ws.length), nodeWord t.tree (BitVec.ofNat 9 i) = ws[i] &&& 0x3FF3FFFF) ∧
      (∀ i : NodeIdx, ws.length ≤ i.toNat → nodeWord t.tree i = nodeWord s.tree i) ∧
      t = { s with tree := t.tree, ncount := t.ncount, dpos := t.dpos }

/-! ## Host accesses -/

/-- R63 with the table of R60: an access is accepted exactly when it is an aligned 4-byte access to a mapped word; every other read
returns 0 and every other write changes nothing, and both raise ACCESS_ERR; an accepted read never faults. -/
def Obligations.AccessAcceptance : Prop :=
  ∀ (s : State) (off : Offset) (n : Size), Config.BitcapLegal s.cap.toNat →
    (¬ (n = .word ∧ off.toNat % 4 = 0 ∧ MappedOffset s.cap.toNat off.toNat) →
      perform (.read off n) s = .next ((s.raise .accessErr (infoAccess false off n)).reply 0) ∧
      ∀ v : Word, perform (.write off n v) s = .next (s.raise .accessErr (infoAccess true off n))) ∧
    (n = .word → off.toNat % 4 = 0 → MappedOffset s.cap.toNat off.toNat →
      ∃ v : Word, perform (.read off n) s = .next { s with replies := v :: s.replies })

/-- R111: what each register reads as. -/
def Obligations.RegisterReads : Prop :=
  ∀ s : State,
    perform (.read 0x0000 .word) s = .next (s.reply 0x48434331) ∧
    perform (.read 0x0004 .word) s = .next (s.reply s.cap) ∧
    perform (.read 0x0008 .word) s = .next (s.reply s.status) ∧
    perform (.read 0x000C .word) s = .next (s.reply 0) ∧
    perform (.read 0x0010 .word) s = .next (s.reply (s.ncount.setWidth 32)) ∧
    perform (.read 0x0014 .word) s = .next (s.reply s.bitlen) ∧
    perform (.read 0x0018 .word) s = .next (s.reply s.rdptr) ∧
    perform (.read 0x001C .word) s = .next (s.reply (s.dpos.setWidth 32)) ∧
    perform (.read 0x0020 .word) s = .next (s.reply (s.dout.setWidth 32)) ∧
    perform (.read 0x0024 .word) s = .next (s.reply s.finfo)

/-- R23, R36: the fields of STATUS. -/
def Obligations.StatusFields : Prop :=
  ∀ s : State,
    s.status.getLsbD 0 = s.fault ∧ s.status.getLsbD 1 = s.dvalid ∧ s.status.getLsbD 2 = s.dempty ∧
    s.status.getLsbD 3 = decide (s.dpos = s.ncount - 1) ∧ s.status.extractLsb' 4 4 = 0 ∧
    s.status.extractLsb' 8 8 = s.fcode ∧ s.status.extractLsb' 16 16 = 0

/-- R112, R113, R114: what RAM words read as: the stored node word, VALID and LEN of an entry, its code bits (bit 0 of W8 as 0), the
bits of a bit word, first bit in bit 31. -/
def Obligations.RamReads : Prop :=
  ∀ s : State, Config.BitcapLegal s.cap.toNat →
    (∀ i < 511, perform (.read (BitVec.ofNat 16 (0x1000 + 4 * i)) .word) s =
      .next (s.reply (nodeWord s.tree (BitVec.ofNat 9 i)))) ∧
    (∀ b : Byte, ∃ v : Word, perform (.read (BitVec.ofNat 16 (0x4000 + 64 * b.toNat)) .word) s = .next (s.reply v) ∧
      v.getLsbD 31 = codeValid s.code b ∧ v.extractLsb' 0 8 = codeLen s.code b ∧ v.extractLsb' 8 23 = 0) ∧
    (∀ (b : Byte) (k : Nat), 1 ≤ k → k ≤ 8 →
      ∃ v : Word, perform (.read (BitVec.ofNat 16 (0x4000 + 64 * b.toNat + 4 * k)) .word) s = .next (s.reply v) ∧
        ∀ j < 32, v.getLsbD (31 - j) = if k = 8 ∧ j = 31 then false else codeBit s.code b (32 * (k - 1) + j)) ∧
    (∀ w < s.cap.toNat / 32,
      ∃ v : Word, perform (.read (BitVec.ofNat 16 (0x8000 + 4 * w)) .word) s = .next (s.reply v) ∧
        ∀ j < 32, v.getLsbD (31 - j) = readBit s.bits (32 * w + j))

/-- R115: a write of NCOUNT. -/
def Obligations.NcountWrite : Prop :=
  ∀ (s : State) (v : Word),
    (v.toNat < 1 ∨ 511 < v.toNat → perform (.write 0x0010 .word v) s = .next (s.raise .range 0x00000010)) ∧
    (1 ≤ v.toNat → v.toNat ≤ 511 →
      ∃ t : State, perform (.write 0x0010 .word v) s = .next t ∧ t.ncount.toNat = v.toNat ∧
        t.dpos.toNat = v.toNat - 1 ∧ t.atRoot = true ∧ t = { s with ncount := t.ncount, dpos := t.dpos })

/-- R116: a write of BITLEN. -/
def Obligations.BitlenWrite : Prop :=
  ∀ (s : State) (v : Word),
    (s.cap.toNat < v.toNat → perform (.write 0x0014 .word v) s = .next (s.raise .range 0x00000014)) ∧
    (v.toNat ≤ s.cap.toNat → perform (.write 0x0014 .word v) s = .next { s with bitlen := v })

/-- R117: a write of RDPTR. -/
def Obligations.RdptrWrite : Prop :=
  ∀ (s : State) (v : Word),
    (s.cap.toNat < v.toNat → perform (.write 0x0018 .word v) s = .next (s.raise .range 0x00000018)) ∧
    (v.toNat ≤ s.cap.toNat → perform (.write 0x0018 .word v) s = .next { s with rdptr := v, dpos := s.ncount - 1 })

/-- R118: a write to a read-only register raises ACCESS_ERR always, whatever the value. -/
def Obligations.ReadOnlyWrites : Prop :=
  ∀ (s : State) (v : Word) (off : Offset), off ∈ ([0x0000, 0x0004, 0x0008, 0x001C, 0x0020, 0x0024] : List Offset) →
    perform (.write off .word v) s = .next (s.raise .accessErr (off.setWidth 32 ||| 1 <<< 16 ||| 2 <<< 17))

/-- R120: a write of a node word, in or beyond the tree, and its frame. -/
def Obligations.NodeWrite : Prop :=
  ∀ (s : State) (i : Nat) (v : Word), i < 511 →
    ∃ t : State, perform (.write (BitVec.ofNat 16 (0x1000 + 4 * i)) .word v) s = .next t ∧
      nodeWord t.tree (BitVec.ofNat 9 i) = v &&& 0x3FF3FFFF ∧
      (∀ a, a < 0x1000 + 4 * i ∨ 0x1000 + 4 * i + 4 ≤ a → Memory.read t.tree a = Memory.read s.tree a) ∧
      (∀ j : NodeIdx, j.toNat ≠ i → nodeWord t.tree j = nodeWord s.tree j) ∧ t = { s with tree := t.tree }

/-- R121: a write of a code entry's header, and its frame. -/
def Obligations.CodeHeaderWrite : Prop :=
  ∀ (s : State) (b : Byte) (v : Word),
    ∃ t : State, perform (.write (BitVec.ofNat 16 (0x4000 + 64 * b.toNat)) .word v) s = .next t ∧
      codeValid t.code b = v.getLsbD 31 ∧ codeLen t.code b = v.extractLsb' 0 8 ∧
      (Memory.readWord t.code (codeAddr b 0)).extractLsb' 8 23 = 0 ∧
      (∀ a, a < codeAddr b 0 ∨ codeAddr b 0 + 4 ≤ a → Memory.read t.code a = Memory.read s.code a) ∧
      (∀ c : Byte, c ≠ b → codeValid t.code c = codeValid s.code c ∧ codeLen t.code c = codeLen s.code c) ∧
      (∀ (c : Byte) (j : Nat), j < 255 → codeBit t.code c j = codeBit s.code c j) ∧ t = { s with code := t.code }

/-- R122: a write of a code entry's bits word, and its frame. -/
def Obligations.CodeBitsWrite : Prop :=
  ∀ (s : State) (b : Byte) (k : Nat) (v : Word), 1 ≤ k → k ≤ 8 →
    ∃ t : State, perform (.write (BitVec.ofNat 16 (0x4000 + 64 * b.toNat + 4 * k)) .word v) s = .next t ∧
      (∀ j < 32, ¬ (k = 8 ∧ j = 31) → codeBit t.code b (32 * (k - 1) + j) = v.getLsbD (31 - j)) ∧
      (k = 8 → (Memory.readWord t.code (codeAddr b 8)).getLsbD 0 = false) ∧
      (∀ a, a < codeAddr b k ∨ codeAddr b k + 4 ≤ a → Memory.read t.code a = Memory.read s.code a) ∧
      (∀ c : Byte, codeValid t.code c = codeValid s.code c ∧ codeLen t.code c = codeLen s.code c) ∧
      (∀ (c : Byte) (j : Nat), j < 255 → c ≠ b ∨ j / 32 + 1 ≠ k → codeBit t.code c j = codeBit s.code c j) ∧
      t = { s with code := t.code }

/-- R123: a write of a bit word, and its frame. -/
def Obligations.BitWordWrite : Prop :=
  ∀ (s : State) (w : Nat) (v : Word), Config.BitcapLegal s.cap.toNat → w < s.cap.toNat / 32 →
    ∃ t : State, perform (.write (BitVec.ofNat 16 (0x8000 + 4 * w)) .word v) s = .next t ∧
      (∀ j < 32, readBit t.bits (32 * w + j) = v.getLsbD (31 - j)) ∧
      (∀ p, p / 32 ≠ w → readBit t.bits p = readBit s.bits p) ∧
      (∀ a, a < bitWordAddr w ∨ bitWordAddr w + 4 ≤ a → Memory.read t.bits a = Memory.read s.bits a) ∧
      t = { s with bits := t.bits }

/-- R61: a host access at host address HCC_BASE + off is an access at offset off; an address outside the window is none. The value of
HCC_BASE is open (log entry 8). -/
def Obligations.WindowAtBase : Prop :=
  (∀ off : Offset, windowOffset (Config.hccBase + off.toNat) = some off) ∧
    ∀ address : Nat, address < Config.hccBase ∨ Config.hccBase + 65536 ≤ address → windowOffset address = none

/-! ## Faults, and rules of the whole machine -/

/-- R210, R211, R212: with no fault recorded `raise` records the code's number and the information and nothing else; with one
recorded it changes nothing. -/
def Obligations.RaiseRecordsFirstFault : Prop :=
  (∀ (s : State) (c : FaultCode) (info : Word),
    (s.fault = false → s.raise c info = { s with fault := true, fcode := c.number, finfo := info }) ∧
    (s.fault = true → s.raise c info = s)) ∧
  [FaultCode.accessErr, .illegalCmd, .range, .noCode, .bitOverflow, .noChild, .badIndex, .codeTooLong, .treeLoop].map
    FaultCode.number = [0x01, 0x02, 0x03, 0x04, 0x05, 0x06, 0x07, 0x08, 0x09]

/-- R225: the FINFO layouts, every bit not named 0. -/
def Obligations.FinfoLayouts : Prop :=
  (∀ (isWrite : Bool) (off : Offset) (n : Size), (infoAccess isWrite off n).extractLsb' 0 16 = off ∧
    (infoAccess isWrite off n).getLsbD 16 = isWrite ∧
    (infoAccess isWrite off n).extractLsb' 17 2 = (match n with | .byte => 0 | .half => 1 | .word => 2) ∧
    (infoAccess isWrite off n).extractLsb' 19 13 = 0) ∧
  (∀ r : Reg, (infoRange r).extractLsb' 0 16 = r.offset ∧ (infoRange r).extractLsb' 16 16 = 0) ∧
  (∀ b : Byte, (infoByte b).extractLsb' 0 8 = b ∧ (infoByte b).extractLsb' 8 24 = 0) ∧
  (∀ b len : Byte, (infoOverflow b len).extractLsb' 0 8 = b ∧ (infoOverflow b len).extractLsb' 8 8 = len ∧
    (infoOverflow b len).extractLsb' 16 16 = 0) ∧
  (∀ i : NodeIdx, (infoNode i).extractLsb' 0 9 = i ∧ (infoNode i).extractLsb' 9 23 = 0) ∧
  (∀ (i : NodeIdx) (side : Bool), (infoNoChild i side).extractLsb' 0 9 = i ∧ (infoNoChild i side).extractLsb' 9 3 = 0 ∧
    (infoNoChild i side).getLsbD 12 = side ∧ (infoNoChild i side).extractLsb' 13 19 = 0) ∧
  ∀ (i c : NodeIdx) (side : Bool), (infoBadIndex i side c).extractLsb' 0 9 = i ∧
    (infoBadIndex i side c).extractLsb' 9 3 = 0 ∧ (infoBadIndex i side c).getLsbD 12 = side ∧
    (infoBadIndex i side c).extractLsb' 13 3 = 0 ∧ (infoBadIndex i side c).extractLsb' 16 9 = c ∧
    (infoBadIndex i side c).extractLsb' 25 7 = 0

/-- R215: an operation that records a fault changes nothing but the record; a read that does returns 0. -/
def Obligations.FaultsArePrecise : Prop :=
  ∀ (s t : State) (q : Request), perform q s = .next t → s.fault = false → t.fault = true →
    t = { s with fault := true, fcode := t.fcode, finfo := t.finfo, replies := t.replies } ∧
    (t.replies = match q with | .read _ _ => 0 :: s.replies | .write _ _ _ | .resetInput => s.replies)

/-- R211, R212: a fault record stays until CLRF, SRESET or the reset input; no other operation clears or changes it. -/
def Obligations.FaultRecordStays : Prop :=
  ∀ (s t : State) (q : Request), perform q s = .next t → s.fault = true →
    q ≠ .resetInput → q ≠ .write 0x000C .word 0x01000000 → q ≠ .write 0x000C .word 0x02000000 →
    t.fault = true ∧ t.fcode = s.fcode ∧ t.finfo = s.finfo

/-- R35: DVALID and DEMPTY change only by DSTEP, DECB and reset. -/
def Obligations.DecodeFlagsChangeOnlyByDecode : Prop :=
  ∀ (s t : State) (q : Request), perform q s = .next t →
    q ≠ .resetInput → q ≠ .write 0x000C .word 0x01000000 → q ≠ .write 0x000C .word 0x20000000 →
    q ≠ .write 0x000C .word 0x21000000 → t.dvalid = s.dvalid ∧ t.dempty = s.dempty

/-- R32: HCC-1 never changes a tree RAM word; only host writes and reset do. -/
def Obligations.TreeChangesOnlyByHostWrites : Prop :=
  ∀ (s t : State) (q : Request), perform q s = .next t →
    q ≠ .resetInput → q ≠ .write 0x000C .word 0x01000000 →
    (∀ (off : Offset) (v : Word), q = .write off .word v → ¬ (0x1000 ≤ off.toNat ∧ off.toNat < 0x17FC)) →
    t.tree = s.tree

/-- R32: no command reads a node word at or above NCOUNT. The premise DPOS < NCOUNT is the invariant R37. -/
def Obligations.NodesBeyondTheTreeAreNotRead : Prop :=
  ∀ (s t : State) (i : Instr) (tree' : Memory), i ≠ .sreset → s.dpos.toNat < s.ncount.toNat →
    (∀ j : NodeIdx, j.toNat < s.ncount.toNat → nodeWord tree' j = nodeWord s.tree j) →
    exec i s = .next t → exec i { s with tree := tree' } = .next { t with tree := tree' }
end

