-- ==== Sys2Proof/Laws/Memory.lean ====
section
/-! SUPPORT. What the operations on a RAM do: read after write by byte, word and bit, and that every one keeps the canonical
form. The read laws hold of every list; only `ext_of_wf` needs the canonical form. -/

namespace Sys2Proof.Machine

/-! ### Bytes -/

theorem Memory.read_nil (a : Nat) : Memory.read [] a = 0 := rfl

theorem Memory.read_erase (m : Memory) (a b : Nat) :
    Memory.read (Memory.erase m a) b = if b = a then 0 else Memory.read m b := by
  induction m with
  | nil => simp [Memory.erase, Memory.read]
  | cons c rest ih =>
    obtain ⟨k, v⟩ := c
    simp only [Memory.erase] at ih ⊢
    by_cases hka : k = a
    · subst hka
      simp only [List.filter_cons, bne_self_eq_false, Bool.false_eq_true, if_false, ih, Memory.read]
      by_cases hb : b = k <;> simp [hb, eq_comm]
    · have hne : (k != a) = true := by simpa using hka
      simp only [List.filter_cons, hne, if_true, Memory.read, ih]
      by_cases hkb : k = b
      · subst hkb; simp [hka]
      · simp [hkb]

theorem Memory.mem_erase {m : Memory} {a : Nat} {c : Host.Cell} :
    c ∈ Memory.erase m a ↔ c ∈ m ∧ c.1 ≠ a := by
  simp [Memory.erase]

theorem Memory.read_insert {m : Memory} {a : Nat} (h : ∀ c ∈ m, c.1 ≠ a) (v : Byte) (b : Nat) :
    Memory.read (Memory.insert m a v) b = if b = a then v else Memory.read m b := by
  induction m with
  | nil => simp [Memory.insert, Memory.read, eq_comm]
  | cons c rest ih =>
    obtain ⟨k, w⟩ := c
    have hk : k ≠ a := h (k, w) (by simp)
    have ih' := ih fun c hc => h c (by simp [hc])
    simp only [Memory.insert]
    split
    · simp only [Memory.read]
      by_cases hab : a = b <;> simp [hab, eq_comm]
    · simp only [Memory.read, ih']
      by_cases hkb : k = b
      · subst hkb; simp [hk]
      · simp [hkb]

/-- Read after write: the byte written there, every other byte as before. -/
theorem Memory.read_write (m : Memory) (a : Nat) (v : Byte) (b : Nat) :
    Memory.read (Memory.write m a v) b = if b = a then v else Memory.read m b := by
  unfold Memory.write
  split
  · next h => rw [Memory.read_erase, h]
  · rw [Memory.read_insert (fun c hc => (Memory.mem_erase.mp hc).2), Memory.read_erase]
    split <;> rfl

theorem Memory.mem_insert {m : Memory} {a : Nat} {v : Byte} {c : Host.Cell} :
    c ∈ Memory.insert m a v ↔ c = (a, v) ∨ c ∈ m := by
  induction m with
  | nil => simp [Memory.insert]
  | cons d rest ih =>
    obtain ⟨k, w⟩ := d
    simp only [Memory.insert]
    split
    · simp
    · simp only [List.mem_cons, ih]; tauto

theorem Memory.wf_erase {m : Memory} (h : Memory.wf m) (a : Nat) : Memory.wf (Memory.erase m a) :=
  ⟨h.1.filter _, fun c hc => h.2 c (Memory.mem_erase.mp hc).1⟩

theorem Memory.pairwise_insert {m : Memory} {a : Nat} (v : Byte)
    (h : m.Pairwise (fun x y => x.1 < y.1)) (hne : ∀ c ∈ m, c.1 ≠ a) :
    (Memory.insert m a v).Pairwise (fun x y => x.1 < y.1) := by
  induction m with
  | nil => simp [Memory.insert]
  | cons d rest ih =>
    obtain ⟨k, w⟩ := d
    rw [List.pairwise_cons] at h
    have hk : k ≠ a := hne (k, w) (by simp)
    simp only [Memory.insert]
    split
    · next hak =>
      refine List.pairwise_cons.mpr ⟨fun c hc => ?_, List.pairwise_cons.mpr h⟩
      rcases List.mem_cons.mp hc with rfl | hc
      · exact hak
      · exact Nat.lt_trans hak (h.1 c hc)
    · next hak =>
      refine List.pairwise_cons.mpr ⟨fun c hc => ?_, ih h.2 fun c hc => hne c (by simp [hc])⟩
      rcases Memory.mem_insert.mp hc with rfl | hc
      · show k < a; omega
      · exact h.1 c hc

/-- A write keeps the canonical form. -/
theorem Memory.wf_write {m : Memory} (h : Memory.wf m) (a : Nat) (v : Byte) : Memory.wf (Memory.write m a v) := by
  unfold Memory.write
  split
  · exact Memory.wf_erase h a
  · next hv =>
    refine ⟨Memory.pairwise_insert v (Memory.wf_erase h a).1 fun c hc => (Memory.mem_erase.mp hc).2, fun c hc => ?_⟩
    rcases Memory.mem_insert.mp hc with rfl | hc
    · exact hv
    · exact (Memory.wf_erase h a).2 c hc

theorem Memory.mem_write {m : Memory} {a : Nat} {v : Byte} {c : Host.Cell} (h : c ∈ Memory.write m a v) :
    c.1 = a ∨ c ∈ m := by
  unfold Memory.write at h
  split at h
  · exact .inr (Memory.mem_erase.mp h).1
  · rcases Memory.mem_insert.mp h with rfl | h
    · exact .inl rfl
    · exact .inr (Memory.mem_erase.mp h).1

theorem Memory.wf_nil : Memory.wf [] :=
  ⟨List.Pairwise.nil, fun c hc => by cases hc⟩

/-- A byte read of a listed offset, in canonical form. -/
theorem Memory.read_of_mem {m : Memory} (h : m.Pairwise (fun x y => x.1 < y.1)) {c : Host.Cell} (hc : c ∈ m) :
    Memory.read m c.1 = c.2 := by
  induction m with
  | nil => simp at hc
  | cons d rest ih =>
    obtain ⟨k, w⟩ := d
    rw [List.pairwise_cons] at h
    rcases List.mem_cons.mp hc with rfl | hc
    · simp [Memory.read]
    · have : k ≠ c.1 := Nat.ne_of_lt (h.1 c hc)
      simp [Memory.read, this, ih h.2 hc]

theorem Memory.read_eq_zero {m : Memory} {a : Nat} (h : ∀ c ∈ m, c.1 ≠ a) : Memory.read m a = 0 := by
  induction m with
  | nil => rfl
  | cons d rest ih =>
    obtain ⟨k, w⟩ := d
    have hk : k ≠ a := h (k, w) (by simp)
    simp [Memory.read, hk, ih fun c hc => h c (by simp [hc])]

theorem Memory.mem_of_read {m : Memory} {a : Nat} (h : Memory.read m a ≠ 0) : (a, Memory.read m a) ∈ m := by
  induction m with
  | nil => simp [Memory.read] at h
  | cons d rest ih =>
    obtain ⟨k, w⟩ := d
    by_cases hk : k = a
    · subst hk; simp [Memory.read]
    · simp only [Memory.read, hk, if_false] at h ⊢
      exact List.mem_cons_of_mem _ (ih h)

/-- Two canonical RAMs that read alike are the same list. -/
theorem Memory.ext_of_wf {m m' : Memory} (h : Memory.wf m) (h' : Memory.wf m')
    (hr : ∀ a, Memory.read m a = Memory.read m' a) : m = m' := by
  have sub : ∀ {x y : Memory}, Memory.wf x → (∀ a, Memory.read x a = Memory.read y a) → ∀ c ∈ x, c ∈ y := by
    intro x y hx hxy c hc
    have hv := Memory.read_of_mem hx.1 hc
    have hy : Memory.read y c.1 ≠ 0 := by rw [← hxy, hv]; exact hx.2 c hc
    have := Memory.mem_of_read hy
    rwa [← hxy, hv] at this
  have anti : ∀ {x y : Host.Cell}, x.1 < y.1 → y.1 < x.1 → False := fun a b => absurd (Nat.lt_trans a b) (Nat.lt_irrefl _)
  have nodup : ∀ {x : Memory}, Memory.wf x → x.Nodup :=
    fun hx => hx.1.imp fun {a b} hab (he : a = b) => by subst he; exact Nat.lt_irrefl _ hab
  have perm : m.Perm m' :=
    (List.perm_ext_iff_of_nodup (nodup h) (nodup h')).mpr
      fun c => ⟨sub h hr c, sub h' (fun a => (hr a).symm) c⟩
  exact perm.eq_of_pairwise (fun a b _ _ hab hba => (anti hab hba).elim) h.1 h'.1

/-! ### Words -/

/-- The bytes after a word is stored: its four bytes, most significant first, every other byte as before. -/
theorem Memory.read_writeWord (m : Memory) (a : Nat) (v : Word) (b : Nat) :
    Memory.read (Memory.writeWord m a v) b =
      if b = a then v.extractLsb' 24 8 else if b = a + 1 then v.extractLsb' 16 8
      else if b = a + 2 then v.extractLsb' 8 8 else if b = a + 3 then v.extractLsb' 0 8 else Memory.read m b := by
  simp only [Memory.writeWord, Memory.read_write]
  split_ifs <;> first | rfl | omega

theorem Memory.read_writeWord_outside (m : Memory) (a : Nat) (v : Word) {b : Nat} (h : b < a ∨ a + 4 ≤ b) :
    Memory.read (Memory.writeWord m a v) b = Memory.read m b := by
  rw [Memory.read_writeWord]
  split_ifs <;> first | rfl | omega

theorem word_of_bytes (v : Word) :
    v.extractLsb' 24 8 ++ v.extractLsb' 16 8 ++ v.extractLsb' 8 8 ++ v.extractLsb' 0 8 = v := by
  ext i hi
  simp only [BitVec.getElem_append, BitVec.getElem_extractLsb']
  split_ifs <;> simp <;> rw [BitVec.getLsbD_eq_getElem] <;> congr 1 <;> omega

/-- The word read back where it was stored. -/
theorem Memory.readWord_writeWord_same (m : Memory) (a : Nat) (v : Word) :
    Memory.readWord (Memory.writeWord m a v) a = v := by
  have h1 : a + 1 ≠ a := by omega
  have h2 : a + 2 ≠ a ∧ a + 2 ≠ a + 1 := by omega
  have h3 : a + 3 ≠ a ∧ a + 3 ≠ a + 1 ∧ a + 3 ≠ a + 2 := by omega
  simp only [Memory.readWord, Memory.read_writeWord, if_true, h1, h2.1, h2.2, h3.1, h3.2.1, h3.2.2, if_false]
  exact word_of_bytes v

/-- A word that shares no byte with the one stored reads as before. -/
theorem Memory.readWord_writeWord_outside (m : Memory) (a : Nat) (v : Word) {b : Nat} (h : b + 4 ≤ a ∨ a + 4 ≤ b) :
    Memory.readWord (Memory.writeWord m a v) b = Memory.readWord m b := by
  simp only [Memory.readWord]
  rw [Memory.read_writeWord_outside, Memory.read_writeWord_outside, Memory.read_writeWord_outside,
    Memory.read_writeWord_outside] <;> omega

/-- Storing a word keeps the canonical form. -/
theorem Memory.wf_writeWord {m : Memory} (h : Memory.wf m) (a : Nat) (v : Word) :
    Memory.wf (Memory.writeWord m a v) :=
  Memory.wf_write (Memory.wf_write (Memory.wf_write (Memory.wf_write h _ _) _ _) _ _) _ _

theorem Memory.mem_writeWord {m : Memory} {a : Nat} {v : Word} {c : Host.Cell} (h : c ∈ Memory.writeWord m a v) :
    (a ≤ c.1 ∧ c.1 < a + 4) ∨ c ∈ m := by
  rcases Memory.mem_write h with h | h
  · omega
  rcases Memory.mem_write h with h | h
  · omega
  rcases Memory.mem_write h with h | h
  · omega
  rcases Memory.mem_write h with h | h
  · omega
  · exact .inr h

/-! ### Bits -/

theorem getLsbD_setWordBit (w : Word) {i : Nat} (hi : i < 32) (x : Bool) (j : Nat) :
    (setWordBit w i x).getLsbD j = if j = i then x else w.getLsbD j := by
  have hone : ∀ k, (1#32).getLsbD k = decide (k = 0) := by
    intro k
    rw [BitVec.getLsbD_one]
    simp
  have hbit : (1#32 <<< i).getLsbD j = decide (j = i) := by
    rw [BitVec.getLsbD_shiftLeft, hone]
    by_cases h : j = i
    · subst h; simp [hi]
    · by_cases hlt : j < i
      · simp [h, hlt]
      · have : j - i ≠ 0 := by omega
        simp [h, this]
  by_cases hj : j < 32
  · cases x
    · simp only [setWordBit, Bool.false_eq_true, if_false, BitVec.getLsbD_and, BitVec.getLsbD_not, hbit, hj,
        decide_true, Bool.true_and]
      by_cases h : j = i <;> simp [h]
    · simp only [setWordBit, if_true, BitVec.getLsbD_or, hbit]
      by_cases h : j = i <;> simp [h]
  · have h : j ≠ i := by omega
    simp [h, BitVec.getLsbD_of_ge _ _ (Nat.le_of_not_lt hj)]

theorem getLsbD_packWord (f : Nat → Bool) {t : Nat} (ht : t < 32) : (packWord f).getLsbD (31 - t) = f t := by
  have key : ∀ n, n ≤ 32 → ∀ j, j < 32 →
      ((List.range n).foldl (fun w t => setWordBit w (31 - t) (f t)) 0).getLsbD (31 - j) = (decide (j < n) && f j) := by
    intro n
    induction n with
    | zero => intro _ j _; simp
    | succ n ih =>
      intro hn j hj
      rw [List.range_succ, List.foldl_append]
      simp only [List.foldl_cons, List.foldl_nil]
      rw [getLsbD_setWordBit _ (by omega), ih (by omega) j hj]
      by_cases h : j = n
      · subst h; simp
      · have h1 : ¬ (31 - j = 31 - n) := by omega
        have h2 : decide (j < n) = decide (j < n + 1) := by simp only [decide_eq_decide]; omega
        simp [h1, h2]
  simpa [packWord, ht] using key 32 (Nat.le_refl _) t ht

/-- BIT(p) after a bit write: the bit written there, every other bit as before (R83). -/
theorem readBit_writeBit (m : Memory) (p : Nat) (x : Bool) (q : Nat) :
    readBit (writeBit m p x) q = if q = p then x else readBit m q := by
  unfold readBit writeBit
  by_cases hw : q / 32 = p / 32
  · simp only [hw, Memory.readWord_writeWord_same]
    rw [getLsbD_setWordBit _ (by omega)]
    by_cases h : q = p
    · simp [h]
    · have : ¬ (31 - q % 32 = 31 - p % 32) := by omega
      simp [h, this]
  · have h : q ≠ p := fun h => hw (by rw [h])
    rw [Memory.readWord_writeWord_outside _ _ _ (by unfold bitWordAddr; omega)]
    simp [h]

/-- BIT(q) after a run of bits is written from p on. -/
theorem readBit_writeBits (xs : List Bool) (m : Memory) (p q : Nat) :
    readBit (writeBits m p xs) q = if p ≤ q ∧ q < p + xs.length then xs.getD (q - p) false else readBit m q := by
  induction xs generalizing m p with
  | nil =>
    rw [if_neg (by simp only [List.length_nil]; omega)]
    rfl
  | cons x xs ih =>
    simp only [writeBits, ih, readBit_writeBit, List.length_cons]
    by_cases hq : q = p
    · subst hq
      rw [if_neg (by omega), if_pos rfl, if_pos (by omega)]
      simp
    · by_cases hin : p + 1 ≤ q ∧ q < p + 1 + xs.length
      · have h2 : p ≤ q ∧ q < p + (xs.length + 1) := by omega
        have h3 : q - p = (q - (p + 1)) + 1 := by omega
        rw [if_pos hin, if_pos h2, h3, List.getD_cons_succ]
      · have h2 : ¬ (p ≤ q ∧ q < p + (xs.length + 1)) := by omega
        rw [if_neg hin, if_neg h2, if_neg hq]

theorem Memory.wf_writeBits {m : Memory} (h : Memory.wf m) (p : Nat) (xs : List Bool) :
    Memory.wf (writeBits m p xs) := by
  induction xs generalizing m p with
  | nil => exact h
  | cons x xs ih => exact ih (Memory.wf_writeWord h _ _) _

theorem Memory.mem_writeBits {xs : List Bool} {m : Memory} {p : Nat} {c : Host.Cell} (h : c ∈ writeBits m p xs) :
    (∃ j < xs.length, bitWordAddr ((p + j) / 32) ≤ c.1 ∧ c.1 < bitWordAddr ((p + j) / 32) + 4) ∨ c ∈ m := by
  induction xs generalizing m p with
  | nil => exact .inr h
  | cons x xs ih =>
    rcases ih h with ⟨j, hj, h⟩ | h
    · exact .inl ⟨j + 1, by simp only [List.length_cons]; omega, by rwa [← Nat.add_assoc, Nat.add_right_comm]⟩
    · rcases Memory.mem_writeWord h with h | h
      · exact .inl ⟨0, by simp, by simpa using h⟩
      · exact .inr h

/-- A byte outside the words that hold the written bits reads as before. -/
theorem Memory.read_writeBits_outside {xs : List Bool} {m : Memory} {p a : Nat}
    (h : ∀ j < xs.length, a < bitWordAddr ((p + j) / 32) ∨ bitWordAddr ((p + j) / 32) + 4 ≤ a) :
    Memory.read (writeBits m p xs) a = Memory.read m a := by
  induction xs generalizing m p with
  | nil => rfl
  | cons x xs ih =>
    have h0 := h 0 (by simp)
    simp only [writeBits]
    rw [ih fun j hj => by
      have := h (j + 1) (by simp only [List.length_cons]; omega)
      rwa [← Nat.add_assoc, Nat.add_right_comm] at this]
    exact Memory.read_writeWord_outside _ _ _ (by simpa using h0)

end Sys2Proof.Machine
end

