-- ==== Sys2Proof/Laws/Code.lean ====
section
/-! SUPPORT. The code RAM by entry: what reading a code entry gives after one is written (30_encoding.md R82, 44_table_build.md R180),
and where the words of entries and nodes stand. -/

namespace Sys2Proof.Machine

/-! ### Where words stand -/

/-- Words of code entries do not overlap. -/
theorem codeAddr_disjoint {b c : Byte} {k l : Nat} (hk : k < 16) (hl : l < 16) (h : ¬ (b = c ∧ k = l)) :
    codeAddr b k + 4 ≤ codeAddr c l ∨ codeAddr c l + 4 ≤ codeAddr b k := by
  unfold codeAddr
  rw [← BitVec.toNat_inj] at h
  omega

/-- Node words do not overlap. -/
theorem nodeAddr_disjoint {i j : NodeIdx} (h : i ≠ j) :
    nodeAddr i + 4 ≤ nodeAddr j ∨ nodeAddr j + 4 ≤ nodeAddr i := by
  unfold nodeAddr
  rw [Ne, ← BitVec.toNat_inj] at h
  omega

/-- NODE[j] after NODE[i] is stored. -/
theorem nodeWord_writeWord (m : Memory) (i j : NodeIdx) (v : Word) :
    nodeWord (Memory.writeWord m (nodeAddr i) v) j = if j = i then v else nodeWord m j := by
  unfold nodeWord
  split
  · next h => subst h; exact Memory.readWord_writeWord_same _ _ _
  · next h => exact Memory.readWord_writeWord_outside _ _ _ (nodeAddr_disjoint h)

/-- A word of a code entry after one is stored. -/
theorem readCode_writeCode (m : Memory) {b c : Byte} {k l : Nat} (hk : k < 16) (hl : l < 16) (v : Word) :
    Memory.readWord (Memory.writeWord m (codeAddr b k) v) (codeAddr c l) =
      if c = b ∧ l = k then v else Memory.readWord m (codeAddr c l) := by
  split
  · next h => rw [h.1, h.2]; exact Memory.readWord_writeWord_same _ _ _
  · next h => exact Memory.readWord_writeWord_outside _ _ _ (codeAddr_disjoint hl hk h)

/-! ### HDR -/

theorem headerWord_valid (v : Bool) (len : Byte) : (headerWord v len).getLsbD 31 = v := by
  cases v <;> simp [headerWord]

theorem headerWord_len (v : Bool) (len : Byte) : (headerWord v len).extractLsb' 0 8 = len := by
  ext i hi
  have h31 : i < 31 := by omega
  have h32 : i < 32 := by omega
  simp [headerWord, h31, h32, BitVec.getLsbD_eq_getElem hi]

theorem headerWord_reserved (v : Bool) (len : Byte) : (headerWord v len).extractLsb' 8 23 = 0 := by
  ext i hi
  have h31 : 8 + i < 31 := by omega
  simp [headerWord, h31]

/-! ### Code paths -/

theorem codePath_length (m : Memory) (b : Byte) : (codePath m b).length = (codeLen m b).toNat := by
  simp [codePath]

theorem codePath_getD {m : Memory} {b : Byte} {j : Nat} (h : j < (codeLen m b).toNat) :
    (codePath m b).getD j false = codeBit m b j := by
  simp [codePath, List.getD_eq_getElem?_getD, h]

/-! ### Writing an entry -/

/-- Every word of every entry after entry `b` is written. -/
theorem readCode_writeEntry (m : Memory) (b : Byte) (path : List Bool) (c : Byte) {l : Nat} (hl : l ≤ 8) :
    Memory.readWord (writeEntry m b path) (codeAddr c l) =
      if c = b then (if l = 0 then headerWord true (BitVec.ofNat 8 path.length) else pathWord path l)
      else Memory.readWord m (codeAddr c l) := by
  have key : ∀ (m0 : Memory) (n : Nat), n ≤ 8 →
      Memory.readWord ((List.range n).foldl
        (fun m k => Memory.writeWord m (codeAddr b (k + 1)) (pathWord path (k + 1))) m0) (codeAddr c l) =
      if c = b ∧ 1 ≤ l ∧ l ≤ n then pathWord path l else Memory.readWord m0 (codeAddr c l) := by
    intro m0 n
    induction n with
    | zero => intro _; rw [if_neg (by omega)]; rfl
    | succ n ih =>
      intro hn
      rw [List.range_succ, List.foldl_append]
      simp only [List.foldl_cons, List.foldl_nil]
      rw [readCode_writeCode _ (by omega) (by omega), ih (by omega)]
      by_cases hcb : c = b
      · by_cases hln : l = n + 1
        · subst hln; simp [hcb]
        · have h1 : (1 ≤ l ∧ l ≤ n + 1) ↔ (1 ≤ l ∧ l ≤ n) := by omega
          simp [hcb, hln, h1]
      · simp [hcb]
  rw [writeEntry, key _ 8 (Nat.le_refl _), readCode_writeCode _ (by omega) (by omega)]
  by_cases hcb : c = b
  · by_cases hl0 : l = 0
    · subst hl0; simp [hcb]
    · have : 1 ≤ l := by omega
      simp [hcb, hl0, this, hl]
  · simp [hcb]

theorem codeValid_writeEntry (m : Memory) (b : Byte) (path : List Bool) (c : Byte) :
    codeValid (writeEntry m b path) c = if c = b then true else codeValid m c := by
  unfold codeValid
  rw [readCode_writeEntry _ _ _ _ (by omega)]
  split <;> simp [headerWord_valid]

theorem codeLen_writeEntry (m : Memory) (b : Byte) (path : List Bool) (c : Byte) :
    codeLen (writeEntry m b path) c = if c = b then BitVec.ofNat 8 path.length else codeLen m c := by
  unfold codeLen
  rw [readCode_writeEntry _ _ _ _ (by omega)]
  split <;> simp [headerWord_len]

theorem codeBit_writeEntry (m : Memory) (b : Byte) (path : List Bool) (c : Byte) {j : Nat} (hj : j < 256) :
    codeBit (writeEntry m b path) c j = if c = b then path.getD j false else codeBit m c j := by
  unfold codeBit
  rw [readCode_writeEntry _ _ _ _ (by omega)]
  split
  · have h1 : 1 + j / 32 ≠ 0 := by omega
    have h2 : 32 * (1 + j / 32 - 1) + j % 32 = j := by omega
    rw [if_neg h1, pathWord, getLsbD_packWord _ (Nat.mod_lt _ (by omega)), h2]
  · rfl

/-- The code of the entry written, for a path of at most 255 bits. -/
theorem codePath_writeEntry (m : Memory) (b : Byte) {path : List Bool} (h : path.length ≤ 255) (c : Byte) :
    codePath (writeEntry m b path) c = if c = b then path else codePath m c := by
  have hbyte : ∀ {x : Byte} {j : Nat}, j < x.toNat → j < 256 := fun h => Nat.lt_trans h (BitVec.isLt _)
  unfold codePath
  split
  · next hc =>
    have hlen : (codeLen (writeEntry m b path) c).toNat = path.length := by
      rw [codeLen_writeEntry, if_pos hc, BitVec.toNat_ofNat]
      omega
    rw [hlen]
    refine List.ext_getElem (by simp) fun j h1 h2 => ?_
    simp only [List.getElem_map, List.getElem_range]
    rw [codeBit_writeEntry _ _ _ _ (by omega), if_pos hc, List.getD_eq_getElem?_getD, List.getElem?_eq_getElem h2]
    rfl
  · next hc =>
    rw [codeLen_writeEntry, if_neg hc]
    refine List.map_congr_left fun j hj => ?_
    rw [codeBit_writeEntry _ _ _ _ (hbyte (List.mem_range.mp hj)), if_neg hc]

theorem Memory.wf_writeEntry {m : Memory} (h : Memory.wf m) (b : Byte) (path : List Bool) :
    Memory.wf (writeEntry m b path) := by
  unfold writeEntry
  generalize List.range 8 = ks
  have h0 := Memory.wf_writeWord h (codeAddr b 0) (headerWord true (BitVec.ofNat 8 path.length))
  revert h0
  generalize Memory.writeWord m (codeAddr b 0) _ = m0
  induction ks generalizing m0 with
  | nil => exact fun h => h
  | cons k ks ih => exact fun h => ih _ (Memory.wf_writeWord h _ _)

/-- An entry lists offsets of the code RAM only. -/
theorem Memory.mem_writeEntry {m : Memory} {b : Byte} {path : List Bool} {c : Host.Cell} (h : c ∈ writeEntry m b path) :
    (0x4000 ≤ c.1 ∧ c.1 < 0x8000) ∨ c ∈ m := by
  have hb : b.toNat < 256 := b.isLt
  have key : ∀ (ks : List Nat) (m0 : Memory), (∀ k ∈ ks, k < 8) →
      c ∈ ks.foldl (fun m k => Memory.writeWord m (codeAddr b (k + 1)) (pathWord path (k + 1))) m0 →
      (0x4000 ≤ c.1 ∧ c.1 < 0x8000) ∨ c ∈ m0 := by
    intro ks
    induction ks with
    | nil => exact fun _ _ h => .inr h
    | cons k ks ih =>
      intro m0 hks hmem
      rcases ih _ (fun k hk => hks k (by simp [hk])) hmem with h | h
      · exact .inl h
      · have hk := hks k (by simp)
        rcases Memory.mem_writeWord h with h | h
        · unfold codeAddr at h; left; omega
        · exact .inr h
  rcases key _ _ (fun k hk => List.mem_range.mp hk) h with h | h
  · exact .inl h
  · rcases Memory.mem_writeWord h with h | h
    · unfold codeAddr at h; left; omega
    · exact .inr h

/-! ### The empty table -/

theorem readWord_nil (a : Nat) : Memory.readWord [] a = 0 := by
  simp only [Memory.readWord, Memory.read]
  decide

theorem codeValid_nil (b : Byte) : codeValid [] b = false := by
  rw [codeValid, readWord_nil]; rfl

theorem codeLen_nil (b : Byte) : codeLen [] b = 0 := by
  rw [codeLen, readWord_nil]; rfl

theorem codeBit_nil (b : Byte) (j : Nat) : codeBit [] b j = false := by
  rw [codeBit, readWord_nil]; exact BitVec.getLsbD_zero

theorem codePath_nil (b : Byte) : codePath [] b = [] := by
  rw [codePath, codeLen_nil]; rfl

end Sys2Proof.Machine
end

