-- ==== Sys2Proof/Laws/Decode.lean ====
section
/-! SUPPORT. The fields of a command word and what the decoder answers. -/

namespace Sys2Proof

/-- A word is its OP field and its operand field. -/
theorem opField_append_operandBits (w : Word) : opField w ++ operandBits w = w := by
  ext i hi
  simp only [opField, operandBits, BitVec.getElem_append, BitVec.getElem_extractLsb']
  split_ifs <;> rw [BitVec.getLsbD_eq_getElem] <;> congr 1 <;> omega

theorem opField_append (op : Byte) (x : BitVec 24) : opField (op ++ x) = op := by
  ext i hi
  simp only [opField, BitVec.getElem_extractLsb', BitVec.getLsbD_append]
  have : ¬ (24 + i < 24) := by omega
  simp [this, hi]

theorem operandBits_append (op : Byte) (x : BitVec 24) : operandBits (op ++ x) = x := by
  ext i hi
  simp only [operandBits, BitVec.getElem_extractLsb', BitVec.getLsbD_append]
  simp [hi]

theorem byteField_append (op : Byte) (x : BitVec 24) : byteField (op ++ x) = x.extractLsb' 0 8 := by
  ext i hi
  simp only [byteField, BitVec.getElem_extractLsb', BitVec.getLsbD_append]
  have : i < 24 := by omega
  simp [this]

theorem opField_encode (i : Instr) : opField (encode i) = i.opcode := opField_append _ _

theorem operandBits_encode (i : Instr) : operandBits (encode i) = i.operandField := operandBits_append _ _

/-- An operand field with bits 23:8 zero is its low byte. -/
theorem eq_setWidth_of_cb {x : BitVec 24} (h : x.extractLsb' 8 16 = 0) : x = (x.extractLsb' 0 8).setWidth 24 := by
  ext i hi
  simp only [BitVec.getElem_setWidth, BitVec.getLsbD_extractLsb']
  by_cases h8 : i < 8
  · simp [h8, hi]
  · have := congrArg (fun y : BitVec 16 => y.getLsbD (i - 8)) h
    simp only [BitVec.getLsbD_extractLsb'] at this
    have h16 : i - 8 < 16 := by omega
    have he : 8 + (i - 8) = i := by omega
    simp only [h16, decide_true, Bool.true_and, he] at this
    simp [h8, ← BitVec.getLsbD_eq_getElem, this]

/-- The low byte of a byte put into an operand field. -/
theorem extractLsb'_setWidth_byte (b : Byte) : (b.setWidth 24).extractLsb' 0 8 = b := by
  ext j hj
  simp only [BitVec.getElem_extractLsb', BitVec.getLsbD_setWidth]
  have : j < 24 := by omega
  simp [this, BitVec.getLsbD_eq_getElem hj]

/-- Every instruction's operand field fits its format. -/
theorem Instr.wellFormed_of_byte (i : Instr) : i.wellFormed = true := by
  cases i with
  | encb b =>
    simp only [Instr.wellFormed, Instr.format, Instr.operandField, Format.accepts, beq_iff_eq]
    ext j hj
    simp
  | _ => rfl

end Sys2Proof
end

