-- ==== Sys2Proof/Laws/State.lean ====
section
/-! SUPPORT. What each named update of the state does to each field, and what recording a fault does. -/

namespace Sys2Proof.Machine

/-! ### clearFault (R143) -/

@[simp] theorem State.clearFault_cap (s : State) : s.clearFault.cap = s.cap := rfl
@[simp] theorem State.clearFault_ncount (s : State) : s.clearFault.ncount = s.ncount := rfl
@[simp] theorem State.clearFault_bitlen (s : State) : s.clearFault.bitlen = s.bitlen := rfl
@[simp] theorem State.clearFault_rdptr (s : State) : s.clearFault.rdptr = s.rdptr := rfl
@[simp] theorem State.clearFault_dpos (s : State) : s.clearFault.dpos = s.dpos := rfl
@[simp] theorem State.clearFault_dout (s : State) : s.clearFault.dout = s.dout := rfl
@[simp] theorem State.clearFault_fault (s : State) : s.clearFault.fault = false := rfl
@[simp] theorem State.clearFault_dvalid (s : State) : s.clearFault.dvalid = s.dvalid := rfl
@[simp] theorem State.clearFault_dempty (s : State) : s.clearFault.dempty = s.dempty := rfl
@[simp] theorem State.clearFault_fcode (s : State) : s.clearFault.fcode = 0 := rfl
@[simp] theorem State.clearFault_finfo (s : State) : s.clearFault.finfo = 0 := rfl
@[simp] theorem State.clearFault_tree (s : State) : s.clearFault.tree = s.tree := rfl
@[simp] theorem State.clearFault_code (s : State) : s.clearFault.code = s.code := rfl
@[simp] theorem State.clearFault_bits (s : State) : s.clearFault.bits = s.bits := rfl
@[simp] theorem State.clearFault_port (s : State) : s.clearFault.port = s.port := rfl
@[simp] theorem State.clearFault_replies (s : State) : s.clearFault.replies = s.replies := rfl

/-! ### resetState (R240) -/

@[simp] theorem State.resetState_cap (s : State) : s.resetState.cap = s.cap := rfl
@[simp] theorem State.resetState_ncount (s : State) : s.resetState.ncount = 1 := rfl
@[simp] theorem State.resetState_bitlen (s : State) : s.resetState.bitlen = 0 := rfl
@[simp] theorem State.resetState_rdptr (s : State) : s.resetState.rdptr = 0 := rfl
@[simp] theorem State.resetState_dpos (s : State) : s.resetState.dpos = 0 := rfl
@[simp] theorem State.resetState_dout (s : State) : s.resetState.dout = 0 := rfl
@[simp] theorem State.resetState_fault (s : State) : s.resetState.fault = false := rfl
@[simp] theorem State.resetState_dvalid (s : State) : s.resetState.dvalid = false := rfl
@[simp] theorem State.resetState_dempty (s : State) : s.resetState.dempty = false := rfl
@[simp] theorem State.resetState_fcode (s : State) : s.resetState.fcode = 0 := rfl
@[simp] theorem State.resetState_finfo (s : State) : s.resetState.finfo = 0 := rfl
@[simp] theorem State.resetState_tree (s : State) : s.resetState.tree = [] := rfl
@[simp] theorem State.resetState_code (s : State) : s.resetState.code = [] := rfl
@[simp] theorem State.resetState_bits (s : State) : s.resetState.bits = [] := rfl
@[simp] theorem State.resetState_port (s : State) : s.resetState.port = s.port := rfl
@[simp] theorem State.resetState_replies (s : State) : s.resetState.replies = s.replies := rfl

/-! ### reply (R62) -/

@[simp] theorem State.reply_cap (s : State) (v : Word) : (s.reply v).cap = s.cap := rfl
@[simp] theorem State.reply_ncount (s : State) (v : Word) : (s.reply v).ncount = s.ncount := rfl
@[simp] theorem State.reply_bitlen (s : State) (v : Word) : (s.reply v).bitlen = s.bitlen := rfl
@[simp] theorem State.reply_rdptr (s : State) (v : Word) : (s.reply v).rdptr = s.rdptr := rfl
@[simp] theorem State.reply_dpos (s : State) (v : Word) : (s.reply v).dpos = s.dpos := rfl
@[simp] theorem State.reply_dout (s : State) (v : Word) : (s.reply v).dout = s.dout := rfl
@[simp] theorem State.reply_fault (s : State) (v : Word) : (s.reply v).fault = s.fault := rfl
@[simp] theorem State.reply_dvalid (s : State) (v : Word) : (s.reply v).dvalid = s.dvalid := rfl
@[simp] theorem State.reply_dempty (s : State) (v : Word) : (s.reply v).dempty = s.dempty := rfl
@[simp] theorem State.reply_fcode (s : State) (v : Word) : (s.reply v).fcode = s.fcode := rfl
@[simp] theorem State.reply_finfo (s : State) (v : Word) : (s.reply v).finfo = s.finfo := rfl
@[simp] theorem State.reply_tree (s : State) (v : Word) : (s.reply v).tree = s.tree := rfl
@[simp] theorem State.reply_code (s : State) (v : Word) : (s.reply v).code = s.code := rfl
@[simp] theorem State.reply_bits (s : State) (v : Word) : (s.reply v).bits = s.bits := rfl
@[simp] theorem State.reply_port (s : State) (v : Word) : (s.reply v).port = s.port := rfl
@[simp] theorem State.reply_replies (s : State) (v : Word) : (s.reply v).replies = v :: s.replies := rfl

/-! ### decodedEmpty (R161, R162) -/

@[simp] theorem State.decodedEmpty_cap (s : State) (r : Nat) (d : NodeIdx) : (s.decodedEmpty r d).cap = s.cap := rfl
@[simp] theorem State.decodedEmpty_ncount (s : State) (r : Nat) (d : NodeIdx) : (s.decodedEmpty r d).ncount = s.ncount := rfl
@[simp] theorem State.decodedEmpty_bitlen (s : State) (r : Nat) (d : NodeIdx) : (s.decodedEmpty r d).bitlen = s.bitlen := rfl
@[simp] theorem State.decodedEmpty_rdptr (s : State) (r : Nat) (d : NodeIdx) : (s.decodedEmpty r d).rdptr = BitVec.ofNat 32 r := rfl
@[simp] theorem State.decodedEmpty_dpos (s : State) (r : Nat) (d : NodeIdx) : (s.decodedEmpty r d).dpos = d := rfl
@[simp] theorem State.decodedEmpty_dout (s : State) (r : Nat) (d : NodeIdx) : (s.decodedEmpty r d).dout = s.dout := rfl
@[simp] theorem State.decodedEmpty_fault (s : State) (r : Nat) (d : NodeIdx) : (s.decodedEmpty r d).fault = s.fault := rfl
@[simp] theorem State.decodedEmpty_dvalid (s : State) (r : Nat) (d : NodeIdx) : (s.decodedEmpty r d).dvalid = false := rfl
@[simp] theorem State.decodedEmpty_dempty (s : State) (r : Nat) (d : NodeIdx) : (s.decodedEmpty r d).dempty = true := rfl
@[simp] theorem State.decodedEmpty_fcode (s : State) (r : Nat) (d : NodeIdx) : (s.decodedEmpty r d).fcode = s.fcode := rfl
@[simp] theorem State.decodedEmpty_finfo (s : State) (r : Nat) (d : NodeIdx) : (s.decodedEmpty r d).finfo = s.finfo := rfl
@[simp] theorem State.decodedEmpty_tree (s : State) (r : Nat) (d : NodeIdx) : (s.decodedEmpty r d).tree = s.tree := rfl
@[simp] theorem State.decodedEmpty_code (s : State) (r : Nat) (d : NodeIdx) : (s.decodedEmpty r d).code = s.code := rfl
@[simp] theorem State.decodedEmpty_bits (s : State) (r : Nat) (d : NodeIdx) : (s.decodedEmpty r d).bits = s.bits := rfl
@[simp] theorem State.decodedEmpty_port (s : State) (r : Nat) (d : NodeIdx) : (s.decodedEmpty r d).port = s.port := rfl
@[simp] theorem State.decodedEmpty_replies (s : State) (r : Nat) (d : NodeIdx) : (s.decodedEmpty r d).replies = s.replies := rfl

/-! ### decodedMove (R161) -/

@[simp] theorem State.decodedMove_cap (s : State) (r : Nat) (d : NodeIdx) : (s.decodedMove r d).cap = s.cap := rfl
@[simp] theorem State.decodedMove_ncount (s : State) (r : Nat) (d : NodeIdx) : (s.decodedMove r d).ncount = s.ncount := rfl
@[simp] theorem State.decodedMove_bitlen (s : State) (r : Nat) (d : NodeIdx) : (s.decodedMove r d).bitlen = s.bitlen := rfl
@[simp] theorem State.decodedMove_rdptr (s : State) (r : Nat) (d : NodeIdx) : (s.decodedMove r d).rdptr = BitVec.ofNat 32 r := rfl
@[simp] theorem State.decodedMove_dpos (s : State) (r : Nat) (d : NodeIdx) : (s.decodedMove r d).dpos = d := rfl
@[simp] theorem State.decodedMove_dout (s : State) (r : Nat) (d : NodeIdx) : (s.decodedMove r d).dout = s.dout := rfl
@[simp] theorem State.decodedMove_fault (s : State) (r : Nat) (d : NodeIdx) : (s.decodedMove r d).fault = s.fault := rfl
@[simp] theorem State.decodedMove_dvalid (s : State) (r : Nat) (d : NodeIdx) : (s.decodedMove r d).dvalid = false := rfl
@[simp] theorem State.decodedMove_dempty (s : State) (r : Nat) (d : NodeIdx) : (s.decodedMove r d).dempty = false := rfl
@[simp] theorem State.decodedMove_fcode (s : State) (r : Nat) (d : NodeIdx) : (s.decodedMove r d).fcode = s.fcode := rfl
@[simp] theorem State.decodedMove_finfo (s : State) (r : Nat) (d : NodeIdx) : (s.decodedMove r d).finfo = s.finfo := rfl
@[simp] theorem State.decodedMove_tree (s : State) (r : Nat) (d : NodeIdx) : (s.decodedMove r d).tree = s.tree := rfl
@[simp] theorem State.decodedMove_code (s : State) (r : Nat) (d : NodeIdx) : (s.decodedMove r d).code = s.code := rfl
@[simp] theorem State.decodedMove_bits (s : State) (r : Nat) (d : NodeIdx) : (s.decodedMove r d).bits = s.bits := rfl
@[simp] theorem State.decodedMove_port (s : State) (r : Nat) (d : NodeIdx) : (s.decodedMove r d).port = s.port := rfl
@[simp] theorem State.decodedMove_replies (s : State) (r : Nat) (d : NodeIdx) : (s.decodedMove r d).replies = s.replies := rfl

/-! ### decodedByte (R161, R162) -/

@[simp] theorem State.decodedByte_cap (s : State) (r : Nat) (d : NodeIdx) (v : Byte) : (s.decodedByte r d v).cap = s.cap := rfl
@[simp] theorem State.decodedByte_ncount (s : State) (r : Nat) (d : NodeIdx) (v : Byte) : (s.decodedByte r d v).ncount = s.ncount := rfl
@[simp] theorem State.decodedByte_bitlen (s : State) (r : Nat) (d : NodeIdx) (v : Byte) : (s.decodedByte r d v).bitlen = s.bitlen := rfl
@[simp] theorem State.decodedByte_rdptr (s : State) (r : Nat) (d : NodeIdx) (v : Byte) : (s.decodedByte r d v).rdptr = BitVec.ofNat 32 r := rfl
@[simp] theorem State.decodedByte_dpos (s : State) (r : Nat) (d : NodeIdx) (v : Byte) : (s.decodedByte r d v).dpos = d := rfl
@[simp] theorem State.decodedByte_dout (s : State) (r : Nat) (d : NodeIdx) (v : Byte) : (s.decodedByte r d v).dout = v := rfl
@[simp] theorem State.decodedByte_fault (s : State) (r : Nat) (d : NodeIdx) (v : Byte) : (s.decodedByte r d v).fault = s.fault := rfl
@[simp] theorem State.decodedByte_dvalid (s : State) (r : Nat) (d : NodeIdx) (v : Byte) : (s.decodedByte r d v).dvalid = true := rfl
@[simp] theorem State.decodedByte_dempty (s : State) (r : Nat) (d : NodeIdx) (v : Byte) : (s.decodedByte r d v).dempty = false := rfl
@[simp] theorem State.decodedByte_fcode (s : State) (r : Nat) (d : NodeIdx) (v : Byte) : (s.decodedByte r d v).fcode = s.fcode := rfl
@[simp] theorem State.decodedByte_finfo (s : State) (r : Nat) (d : NodeIdx) (v : Byte) : (s.decodedByte r d v).finfo = s.finfo := rfl
@[simp] theorem State.decodedByte_tree (s : State) (r : Nat) (d : NodeIdx) (v : Byte) : (s.decodedByte r d v).tree = s.tree := rfl
@[simp] theorem State.decodedByte_code (s : State) (r : Nat) (d : NodeIdx) (v : Byte) : (s.decodedByte r d v).code = s.code := rfl
@[simp] theorem State.decodedByte_bits (s : State) (r : Nat) (d : NodeIdx) (v : Byte) : (s.decodedByte r d v).bits = s.bits := rfl
@[simp] theorem State.decodedByte_port (s : State) (r : Nat) (d : NodeIdx) (v : Byte) : (s.decodedByte r d v).port = s.port := rfl
@[simp] theorem State.decodedByte_replies (s : State) (r : Nat) (d : NodeIdx) (v : Byte) : (s.decodedByte r d v).replies = s.replies := rfl

/-! ### raise (R211, R212) -/

@[simp] theorem State.raise_cap (s : State) (c : FaultCode) (i : Word) : (s.raise c i).cap = s.cap := by
  unfold State.raise; split <;> rfl
@[simp] theorem State.raise_ncount (s : State) (c : FaultCode) (i : Word) : (s.raise c i).ncount = s.ncount := by
  unfold State.raise; split <;> rfl
@[simp] theorem State.raise_bitlen (s : State) (c : FaultCode) (i : Word) : (s.raise c i).bitlen = s.bitlen := by
  unfold State.raise; split <;> rfl
@[simp] theorem State.raise_rdptr (s : State) (c : FaultCode) (i : Word) : (s.raise c i).rdptr = s.rdptr := by
  unfold State.raise; split <;> rfl
@[simp] theorem State.raise_dpos (s : State) (c : FaultCode) (i : Word) : (s.raise c i).dpos = s.dpos := by
  unfold State.raise; split <;> rfl
@[simp] theorem State.raise_dout (s : State) (c : FaultCode) (i : Word) : (s.raise c i).dout = s.dout := by
  unfold State.raise; split <;> rfl
@[simp] theorem State.raise_dvalid (s : State) (c : FaultCode) (i : Word) : (s.raise c i).dvalid = s.dvalid := by
  unfold State.raise; split <;> rfl
@[simp] theorem State.raise_dempty (s : State) (c : FaultCode) (i : Word) : (s.raise c i).dempty = s.dempty := by
  unfold State.raise; split <;> rfl
@[simp] theorem State.raise_tree (s : State) (c : FaultCode) (i : Word) : (s.raise c i).tree = s.tree := by
  unfold State.raise; split <;> rfl
@[simp] theorem State.raise_code (s : State) (c : FaultCode) (i : Word) : (s.raise c i).code = s.code := by
  unfold State.raise; split <;> rfl
@[simp] theorem State.raise_bits (s : State) (c : FaultCode) (i : Word) : (s.raise c i).bits = s.bits := by
  unfold State.raise; split <;> rfl
@[simp] theorem State.raise_port (s : State) (c : FaultCode) (i : Word) : (s.raise c i).port = s.port := by
  unfold State.raise; split <;> rfl
@[simp] theorem State.raise_replies (s : State) (c : FaultCode) (i : Word) : (s.raise c i).replies = s.replies := by
  unfold State.raise; split <;> rfl

@[simp] theorem State.raise_fault (s : State) (c : FaultCode) (i : Word) : (s.raise c i).fault = true := by
  unfold State.raise; split <;> simp_all

/-- With no fault recorded, `raise` records the code and the information and changes nothing else (R211). -/
theorem State.raise_clear {s : State} (h : s.fault = false) (c : FaultCode) (i : Word) :
    s.raise c i = { s with fault := true, fcode := c.number, finfo := i } := by
  simp [State.raise, h]

/-- With a fault recorded, `raise` changes nothing: the first fault is kept (R212). -/
theorem State.raise_faulted {s : State} (h : s.fault = true) (c : FaultCode) (i : Word) : s.raise c i = s := by
  simp [State.raise, h]

/-- `raise` changes nothing but the fault record (R215). -/
theorem State.raise_sameButRecord (s : State) (c : FaultCode) (i : Word) :
    s.raise c i = { s with fault := (s.raise c i).fault, fcode := (s.raise c i).fcode, finfo := (s.raise c i).finfo } := by
  unfold State.raise; split <;> rfl

/-! ### unlessFaulted (R140, R213) -/

theorem State.unlessFaulted_clear {s : State} (h : s.fault = false) (f : State → State) : s.unlessFaulted f = f s := by
  simp [State.unlessFaulted, h]

theorem State.unlessFaulted_faulted {s : State} (h : s.fault = true) (f : State → State) : s.unlessFaulted f = s := by
  simp [State.unlessFaulted, h]

end Sys2Proof.Machine
end

