-- ==== Sys2Proof/Laws/Decoder.lean ====
section
/-! SUPPORT. What one decode iteration can do, walking a path of bits, and what DECB's loop can do (43_decoder.md R160 to R162). -/

namespace Sys2Proof.Machine

/-! ### Leaves and children -/

/-- A node with the child a bit selects is no leaf (10_state.md R31). -/
theorem not_leaf_of_hasChild {w : Word} {b : Bool} (h : nodeHasChild w b = true) : nodeIsLeaf w = false := by
  cases b <;> simp_all [nodeHasChild, nodeIsLeaf]

theorem not_hasChild_of_leaf {w : Word} (h : nodeIsLeaf w = true) (b : Bool) : nodeHasChild w b = false := by
  cases hb : nodeHasChild w b with
  | false => rfl
  | true => rw [not_leaf_of_hasChild hb] at h; cases h

/-! ### Paths -/

theorem nodeAt_append (tree : Memory) (n i : NodeIdx) (p q : List Bool) :
    nodeAt tree n i (p ++ q) = (nodeAt tree n i p).bind fun j => nodeAt tree n j q := by
  induction p generalizing i with
  | nil => rfl
  | cons b p ih =>
    simp only [List.cons_append, nodeAt]
    split
    · exact ih _
    · rfl

/-- A path of at least one bit starts at an internal node. -/
theorem not_leaf_of_nodeAt {tree : Memory} {n i c : NodeIdx} {b : Bool} {p : List Bool}
    (h : nodeAt tree n i (b :: p) = some c) : nodeIsLeaf (nodeWord tree i) = false := by
  simp only [nodeAt] at h
  split at h
  · next hc => exact not_leaf_of_hasChild hc.1
  · cases h

/-- A path from an index below NCOUNT ends at one. -/
theorem nodeAt_lt {tree : Memory} {n i c : NodeIdx} {p : List Bool} (hi : i.toNat < n.toNat)
    (h : nodeAt tree n i p = some c) : c.toNat < n.toNat := by
  induction p generalizing i with
  | nil => cases h; exact hi
  | cons b p ih =>
    simp only [nodeAt] at h
    split at h
    · next hc => exact ih hc.2 h
    · cases h

/-- A leaf's path extends to no other node. -/
theorem eq_of_nodeAt_leaf_append {tree : Memory} {n i c d : NodeIdx} {p q : List Bool}
    (hp : nodeAt tree n i p = some c) (hleaf : nodeIsLeaf (nodeWord tree c) = true)
    (hq : nodeAt tree n i (p ++ q) = some d) : q = [] := by
  rw [nodeAt_append, hp] at hq
  cases q with
  | nil => rfl
  | cons b q => exact absurd (not_leaf_of_nodeAt hq) (by simp [hleaf])

/-! ### Bits -/

theorem State.bitsFrom_length (s : State) (p n : Nat) : (s.bitsFrom p n).length = n := by
  simp [State.bitsFrom]

theorem State.bitsFrom_succ (s : State) (p n : Nat) :
    s.bitsFrom p (n + 1) = readBit s.bits p :: s.bitsFrom (p + 1) n := by
  simp only [State.bitsFrom, List.range_succ_eq_map, List.map_cons, List.map_map, Nat.add_zero]
  refine congrArg _ (List.map_congr_left fun j _ => ?_)
  simp only [Function.comp, Nat.succ_eq_add_one]
  rw [Nat.add_assoc, Nat.add_comm 1 j]

theorem State.bitsFrom_add (s : State) (p m n : Nat) :
    s.bitsFrom p (m + n) = s.bitsFrom p m ++ s.bitsFrom (p + m) n := by
  induction m generalizing p with
  | zero => simp [State.bitsFrom]
  | succ m ih =>
    rw [Nat.add_right_comm, State.bitsFrom_succ, State.bitsFrom_succ, ih]
    simp only [List.cons_append, Nat.add_assoc, Nat.add_comm 1 m]

theorem State.bitsFrom_eq_iff (s : State) (p : Nat) (xs : List Bool) :
    s.bitsFrom p xs.length = xs ↔ ∀ j (h : j < xs.length), readBit s.bits (p + j) = xs[j] := by
  constructor
  · intro h j hj
    have := List.getElem_of_eq h.symm hj
    simpa [State.bitsFrom] using this.symm
  · intro h
    refine List.ext_getElem (by simp [State.bitsFrom]) fun j h1 h2 => ?_
    simp only [State.bitsFrom, List.getElem_map, List.getElem_range]
    exact h j h2

/-! ### One iteration -/

/-- Everything DecodeStep can answer, and when (R160). -/
theorem decodeStep_cases (s : State) (r : Nat) (d : NodeIdx) :
    (s.bitlen.toNat ≤ r ∧ decodeStep s r d = .empty) ∨
    (r < s.bitlen.toNat ∧ nodeHasChild (nodeWord s.tree d) (readBit s.bits r) = false ∧
      decodeStep s r d = .fail .noChild (infoNoChild d (readBit s.bits r))) ∨
    (r < s.bitlen.toNat ∧ nodeHasChild (nodeWord s.tree d) (readBit s.bits r) = true ∧
      s.ncount.toNat ≤ (nodeChild (nodeWord s.tree d) (readBit s.bits r)).toNat ∧
      decodeStep s r d = .fail .badIndex
        (infoBadIndex d (readBit s.bits r) (nodeChild (nodeWord s.tree d) (readBit s.bits r)))) ∨
    (r < s.bitlen.toNat ∧ nodeHasChild (nodeWord s.tree d) (readBit s.bits r) = true ∧
      (nodeChild (nodeWord s.tree d) (readBit s.bits r)).toNat < s.ncount.toNat ∧
      nodeIsLeaf (nodeWord s.tree (nodeChild (nodeWord s.tree d) (readBit s.bits r))) = true ∧
      decodeStep s r d = .emit (r + 1) s.root
        (nodeValue (nodeWord s.tree (nodeChild (nodeWord s.tree d) (readBit s.bits r))))) ∨
    (r < s.bitlen.toNat ∧ nodeHasChild (nodeWord s.tree d) (readBit s.bits r) = true ∧
      (nodeChild (nodeWord s.tree d) (readBit s.bits r)).toNat < s.ncount.toNat ∧
      nodeIsLeaf (nodeWord s.tree (nodeChild (nodeWord s.tree d) (readBit s.bits r))) = false ∧
      decodeStep s r d = .move (r + 1) (nodeChild (nodeWord s.tree d) (readBit s.bits r))) := by
  unfold decodeStep
  by_cases hr : s.bitlen.toNat ≤ r
  · exact .inl ⟨hr, by simp [hr]⟩
  · have hr' : r < s.bitlen.toNat := by omega
    refine .inr ?_
    cases hc : nodeHasChild (nodeWord s.tree d) (readBit s.bits r) with
    | false => exact .inl ⟨hr', rfl, by simp [hr, hc]⟩
    | true =>
      refine .inr ?_
      by_cases hn : s.ncount.toNat ≤ (nodeChild (nodeWord s.tree d) (readBit s.bits r)).toNat
      · exact .inl ⟨hr', rfl, hn, by simp [hr, hc, hn]⟩
      · refine .inr ?_
        cases hl : nodeIsLeaf (nodeWord s.tree (nodeChild (nodeWord s.tree d) (readBit s.bits r))) with
        | true => exact .inl ⟨hr', rfl, by omega, rfl, by simp [hr, hc, hn, hl]⟩
        | false => exact .inr ⟨hr', rfl, by omega, rfl, by simp [hr, hc, hn, hl]⟩

/-- DecodeStep reads the bits below BITLEN and the nodes below NCOUNT only (10_state.md R32, R34). -/
theorem decodeStep_congr {s t : State} {r : Nat} {d : NodeIdx} (hn : t.ncount = s.ncount) (hl : t.bitlen = s.bitlen)
    (ht : ∀ j : NodeIdx, j.toNat < s.ncount.toNat → nodeWord t.tree j = nodeWord s.tree j)
    (hb : ∀ p < s.bitlen.toNat, readBit t.bits p = readBit s.bits p) (hd : d.toNat < s.ncount.toNat) :
    decodeStep t r d = decodeStep s r d := by
  unfold decodeStep
  rw [hl, hn, ht d hd]
  by_cases hr : s.bitlen.toNat ≤ r
  · simp [hr]
  · rw [hb r (by omega)]
    by_cases hc : s.ncount.toNat ≤ (nodeChild (nodeWord s.tree d) (readBit s.bits r)).toNat
    · simp [hc]
    · have hw := ht (nodeChild (nodeWord s.tree d) (readBit s.bits r)) (by omega)
      simp [State.root, hn, hw]

/-- The step on a path's first bit: a move along it. -/
theorem decodeStep_move {s : State} {r : Nat} {d : NodeIdx} (hr : r < s.bitlen.toNat)
    (hc : nodeHasChild (nodeWord s.tree d) (readBit s.bits r) = true)
    (hn : (nodeChild (nodeWord s.tree d) (readBit s.bits r)).toNat < s.ncount.toNat)
    (hl : nodeIsLeaf (nodeWord s.tree (nodeChild (nodeWord s.tree d) (readBit s.bits r))) = false) :
    decodeStep s r d = .move (r + 1) (nodeChild (nodeWord s.tree d) (readBit s.bits r)) := by
  have h1 : ¬ s.bitlen.toNat ≤ r := by omega
  have h2 : ¬ s.ncount.toNat ≤ (nodeChild (nodeWord s.tree d) (readBit s.bits r)).toNat := by omega
  simp [decodeStep, h1, h2, hc, hl]

/-- What a move says. -/
theorem of_decodeStep_move {s : State} {r r' : Nat} {d d' : NodeIdx} (h : decodeStep s r d = .move r' d') :
    r < s.bitlen.toNat ∧ r' = r + 1 ∧ d' = nodeChild (nodeWord s.tree d) (readBit s.bits r) ∧
      nodeHasChild (nodeWord s.tree d) (readBit s.bits r) = true ∧ d'.toNat < s.ncount.toNat ∧
      nodeIsLeaf (nodeWord s.tree d') = false := by
  rcases decodeStep_cases s r d with ⟨_, e⟩ | ⟨_, _, e⟩ | ⟨_, _, _, e⟩ | ⟨_, _, _, _, e⟩ | ⟨h1, h2, h3, h4, e⟩ <;>
    rw [e] at h <;> cases h
  exact ⟨h1, rfl, rfl, h2, h3, h4⟩

/-- What an emit says. -/
theorem of_decodeStep_emit {s : State} {r r' : Nat} {d d' : NodeIdx} {v : Byte} (h : decodeStep s r d = .emit r' d' v) :
    r < s.bitlen.toNat ∧ r' = r + 1 ∧ d' = s.root ∧ nodeHasChild (nodeWord s.tree d) (readBit s.bits r) = true ∧
      (nodeChild (nodeWord s.tree d) (readBit s.bits r)).toNat < s.ncount.toNat ∧
      nodeIsLeaf (nodeWord s.tree (nodeChild (nodeWord s.tree d) (readBit s.bits r))) = true ∧
      v = nodeValue (nodeWord s.tree (nodeChild (nodeWord s.tree d) (readBit s.bits r))) := by
  rcases decodeStep_cases s r d with ⟨_, e⟩ | ⟨_, _, e⟩ | ⟨_, _, _, e⟩ | ⟨h1, h2, h3, h4, e⟩ | ⟨_, _, _, _, e⟩ <;>
    rw [e] at h <;> cases h
  exact ⟨h1, rfl, rfl, h2, h3, h4, rfl⟩

/-! ### DECB's loop -/

/-- The loop along a path of moves: where the bits from r on lead from d along `path` to an internal node (or `path` is empty), the
loop goes on from there. -/
theorem decbLoop_path {s : State} {path : List Bool} {k r : Nat} {d d' : NodeIdx}
    (hbits : s.bitsFrom r path.length = path) (hlen : r + path.length ≤ max r s.bitlen.toNat)
    (hat : nodeAt s.tree s.ncount d path = some d') (hint : path ≠ [] → nodeIsLeaf (nodeWord s.tree d') = false) :
    decbLoop s (path.length + k) r d = decbLoop s k (r + path.length) d' := by
  induction path generalizing r d with
  | nil => cases hat; simp
  | cons b path ih =>
    simp only [List.length_cons] at hbits hlen ⊢
    rw [State.bitsFrom_succ, List.cons.injEq] at hbits
    obtain ⟨rfl, hrest⟩ := hbits
    have hat' := hat
    simp only [nodeAt] at hat
    split at hat
    · next hc =>
      have hleaf : nodeIsLeaf (nodeWord s.tree (nodeChild (nodeWord s.tree d) (readBit s.bits r))) = false := by
        cases path with
        | nil => cases hat; exact hint (by simp)
        | cons b' path => exact not_leaf_of_nodeAt hat
      rw [Nat.add_right_comm, decbLoop, decodeStep_move (by omega) hc.1 hc.2 hleaf]
      have := ih hrest (by omega) hat (fun _ => hint (by simp))
      simp only [this]
      congr 1
      omega
    · cases hat

/-- Everything DECB's loop can do: it moves along some path of bits to an internal node, and there ends. -/
theorem decbLoop_cases (s : State) (left r : Nat) (d : NodeIdx) (hleft : left = s.bitlen.toNat - r) :
    ∃ (path : List Bool) (d' : NodeIdx), s.bitsFrom r path.length = path ∧ r + path.length ≤ max r s.bitlen.toNat ∧
      nodeAt s.tree s.ncount d path = some d' ∧ (path ≠ [] → nodeIsLeaf (nodeWord s.tree d') = false) ∧
      ((s.bitlen.toNat ≤ r + path.length ∧ decbLoop s left r d = .ranOut (r + path.length) d') ∨
        (∃ c info, decodeStep s (r + path.length) d' = .fail c info ∧ decbLoop s left r d = .failed c info) ∨
        (∃ r' d'' v, decodeStep s (r + path.length) d' = .emit r' d'' v ∧ decbLoop s left r d = .byte r' d'' v)) := by
  induction left generalizing r d with
  | zero => exact ⟨[], d, rfl, by simp, rfl, by simp, .inl ⟨by simp; omega, rfl⟩⟩
  | succ left ih =>
    cases hs : decodeStep s r d with
    | empty =>
      rcases decodeStep_cases s r d with ⟨hr, _⟩ | ⟨_, _, e⟩ | ⟨_, _, _, e⟩ | ⟨_, _, _, _, e⟩ | ⟨_, _, _, _, e⟩
      · omega
      all_goals rw [e] at hs; cases hs
    | fail c info =>
      exact ⟨[], d, rfl, by simp, rfl, by simp, .inr (.inl ⟨c, info, hs, by simp [decbLoop, hs]⟩)⟩
    | emit r' d' v =>
      exact ⟨[], d, rfl, by simp, rfl, by simp, .inr (.inr ⟨r', d', v, hs, by simp [decbLoop, hs]⟩)⟩
    | move r' d' =>
      obtain ⟨hr, rfl, hd, hc, hn, hl⟩ := of_decodeStep_move hs
      obtain ⟨path, d'', hbits, hlen, hat, hint, hend⟩ := ih (r + 1) d' (by omega)
      have hadd : r + (path.length + 1) = r + 1 + path.length := by omega
      refine ⟨readBit s.bits r :: path, d'', ?_, ?_, ?_, ?_, ?_⟩
      · rw [List.length_cons, State.bitsFrom_succ, hbits]
      · simp only [List.length_cons]; omega
      · subst hd
        simp only [nodeAt]
        rw [if_pos ⟨hc, hn⟩]
        exact hat
      · intro _
        cases path with
        | nil => cases hat; exact hl
        | cons b p => exact hint (by simp)
      · simp only [List.length_cons, hadd, decbLoop, hs]
        exact hend

end Sys2Proof.Machine
end

