-- ==== Sys2Proof/Laws/Walk.lean ====
section
/-! SUPPORT. BUILDTAB's walk (44_table_build.md R180): it completes exactly along a shape that fits, and what it leaves in the staging
table is one entry per leaf path, in order. -/

namespace Sys2Proof.Machine

/-! ### Leaf paths -/

/-- A leaf path leads to a leaf, and is no longer than the shape is deep. -/
theorem Shape.nodeAt_of_mem_leafPaths {tree : Memory} {n : NodeIdx} {shape : Shape} {i : NodeIdx} {p : List Bool}
    (hr : shape.Represents tree n i) (hp : p ∈ shape.leafPaths) :
    ∃ c, nodeAt tree n i p = some c ∧ nodeIsLeaf (nodeWord tree c) = true ∧ p.length ≤ shape.depth := by
  induction shape generalizing i p with
  | leaf =>
    simp only [Shape.leafPaths, List.mem_singleton] at hp
    subst hp
    exact ⟨i, rfl, hr, by simp⟩
  | left l ih =>
    obtain ⟨hl, _, hlt, hrep⟩ := hr
    obtain ⟨q, hq, rfl⟩ := List.mem_map.mp hp
    obtain ⟨c, hat, hleaf, hlen⟩ := ih hrep hq
    exact ⟨c, by simpa [nodeAt, nodeHasChild, nodeChild, hl, hlt] using hat, hleaf,
      by simp only [List.length_cons, Shape.depth]; omega⟩
  | right r ih =>
    obtain ⟨_, hl, hlt, hrep⟩ := hr
    obtain ⟨q, hq, rfl⟩ := List.mem_map.mp hp
    obtain ⟨c, hat, hleaf, hlen⟩ := ih hrep hq
    exact ⟨c, by simpa [nodeAt, nodeHasChild, nodeChild, hl, hlt] using hat, hleaf,
      by simp only [List.length_cons, Shape.depth]; omega⟩
  | both l r ihl ihr =>
    obtain ⟨hl, hr', hlt, hrt, hrepl, hrepr⟩ := hr
    rcases List.mem_append.mp hp with hp | hp
    · obtain ⟨q, hq, rfl⟩ := List.mem_map.mp hp
      obtain ⟨c, hat, hleaf, hlen⟩ := ihl hrepl hq
      exact ⟨c, by simpa [nodeAt, nodeHasChild, nodeChild, hl, hlt] using hat, hleaf,
        by simp only [List.length_cons, Shape.depth]; omega⟩
    · obtain ⟨q, hq, rfl⟩ := List.mem_map.mp hp
      obtain ⟨c, hat, hleaf, hlen⟩ := ihr hrepr hq
      exact ⟨c, by simpa [nodeAt, nodeHasChild, nodeChild, hr', hrt] using hat, hleaf,
        by simp only [List.length_cons, Shape.depth]; omega⟩

/-- Recording the leaves of a list of paths from node `i`, each with `pre` before it: what the walk does to the staging table. -/
def recordPaths (tree : Memory) (n i : NodeIdx) (pre : List Bool) (T : Memory) (paths : List (List Bool)) : Memory :=
  paths.foldl (fun T p => writeEntry T (leafValue tree n i p) (pre ++ p)) T

theorem recordPaths_append (tree : Memory) (n i : NodeIdx) (pre : List Bool) (T : Memory) (ps qs : List (List Bool)) :
    recordPaths tree n i pre T (ps ++ qs) = recordPaths tree n i pre (recordPaths tree n i pre T ps) qs :=
  List.foldl_append

theorem recordPaths_child {tree : Memory} {n i : NodeIdx} {b : Bool} (hc : nodeHasChild (nodeWord tree i) b = true)
    (hlt : (nodeChild (nodeWord tree i) b).toNat < n.toNat) (pre : List Bool) (T : Memory) (ps : List (List Bool)) :
    recordPaths tree n i pre T (ps.map (List.cons b)) =
      recordPaths tree n (nodeChild (nodeWord tree i) b) (pre ++ [b]) T ps := by
  simp only [recordPaths, List.foldl_map]
  congr 1
  funext T p
  simp [leafValue, nodeAt, hc, hlt]

/-- Where a shape fits, the walk completes: it makes one visit per node and records one entry per leaf path (R180). -/
theorem walk_of_represents {s : State} {shape : Shape} {levels : Nat} {i : NodeIdx} {pre : List Bool} {w : WalkState}
    (hrep : shape.Represents s.tree s.ncount i) (hsize : w.visits + shape.size ≤ s.ncount.toNat)
    (hdepth : shape.depth ≤ levels) :
    walk s levels i pre w =
      .ok ⟨w.visits + shape.size, recordPaths s.tree s.ncount i pre w.table shape.leafPaths⟩ := by
  induction shape generalizing levels i pre w with
  | leaf =>
    simp only [Shape.Represents] at hrep
    simp only [Shape.size] at hsize
    have hv : ¬ (w.visits + 1 > s.ncount.toNat) := by omega
    unfold walk
    simp [hv, hrep, Shape.size, Shape.leafPaths, recordPaths, leafValue, nodeAt]
  | left l ih =>
    obtain ⟨hl, hr, hlt, hrep'⟩ := hrep
    simp only [Shape.size, Shape.depth] at hsize hdepth
    obtain ⟨levels, rfl⟩ : ∃ k, levels = k + 1 := ⟨levels - 1, by omega⟩
    have hv : ¬ (w.visits + 1 > s.ncount.toNat) := by omega
    have hleaf : nodeIsLeaf (nodeWord s.tree i) = false := by simp [nodeIsLeaf, hl]
    have hn : ¬ (nodeLeft (nodeWord s.tree i)).toNat ≥ s.ncount.toNat := by omega
    have := ih (levels := levels) (pre := pre ++ [false]) (w := ⟨w.visits + 1, w.table⟩) hrep' (by simp only; omega) (by omega)
    unfold walk
    simp only [hv, hleaf, hl, hr, hn, if_true, if_false, Bool.false_eq_true, this]
    simp only [Shape.size, Shape.leafPaths]
    rw [recordPaths_child (b := false) (by simpa [nodeHasChild] using hl) (by simpa [nodeChild] using hlt)]
    simp [nodeChild, Nat.add_assoc]
  | right r ih =>
    obtain ⟨hl, hr, hlt, hrep'⟩ := hrep
    simp only [Shape.size, Shape.depth] at hsize hdepth
    obtain ⟨levels, rfl⟩ : ∃ k, levels = k + 1 := ⟨levels - 1, by omega⟩
    have hv : ¬ (w.visits + 1 > s.ncount.toNat) := by omega
    have hleaf : nodeIsLeaf (nodeWord s.tree i) = false := by simp [nodeIsLeaf, hr]
    have hn : ¬ (nodeRight (nodeWord s.tree i)).toNat ≥ s.ncount.toNat := by omega
    have := ih (levels := levels) (pre := pre ++ [true]) (w := ⟨w.visits + 1, w.table⟩) hrep' (by simp only; omega) (by omega)
    unfold walk
    simp only [hv, hleaf, hl, hr, hn, if_true, if_false, Bool.false_eq_true, this]
    simp only [Shape.size, Shape.leafPaths]
    rw [recordPaths_child (b := true) (by simpa [nodeHasChild] using hr) (by simpa [nodeChild] using hlt)]
    simp [nodeChild, Nat.add_assoc]
  | both l r ihl ihr =>
    obtain ⟨hl, hr, hlt, hrt, hrepl, hrepr⟩ := hrep
    simp only [Shape.size, Shape.depth] at hsize hdepth
    obtain ⟨levels, rfl⟩ : ∃ k, levels = k + 1 := ⟨levels - 1, by omega⟩
    have hv : ¬ (w.visits + 1 > s.ncount.toNat) := by omega
    have hleaf : nodeIsLeaf (nodeWord s.tree i) = false := by simp [nodeIsLeaf, hl]
    have hn : ¬ (nodeLeft (nodeWord s.tree i)).toNat ≥ s.ncount.toNat := by omega
    have hn' : ¬ (nodeRight (nodeWord s.tree i)).toNat ≥ s.ncount.toNat := by omega
    have h1 := ihl (levels := levels) (pre := pre ++ [false]) (w := ⟨w.visits + 1, w.table⟩) hrepl (by simp only; omega) (by omega)
    have h2 := ihr (levels := levels) (pre := pre ++ [true])
      (w := ⟨w.visits + 1 + l.size,
        recordPaths s.tree s.ncount (nodeLeft (nodeWord s.tree i)) (pre ++ [false]) w.table l.leafPaths⟩)
      hrepr (by simp only; omega) (by omega)
    unfold walk
    simp only [hv, hleaf, hl, hr, hn, hn', if_true, if_false, Bool.false_eq_true, h1, h2]
    simp only [Shape.size, Shape.leafPaths, recordPaths_append]
    rw [recordPaths_child (b := false) (by simpa [nodeHasChild] using hl) (by simpa [nodeChild] using hlt),
      recordPaths_child (b := true) (by simpa [nodeHasChild] using hr) (by simpa [nodeChild] using hrt)]
    simp [nodeChild, Nat.add_assoc]

/-- A walk that completes followed a shape that fits (R180). -/
theorem represents_of_walk {s : State} {levels : Nat} {i : NodeIdx} {pre : List Bool} {w w' : WalkState}
    (h : walk s levels i pre w = .ok w') :
    ∃ shape : Shape, shape.Represents s.tree s.ncount i ∧ w.visits + shape.size ≤ s.ncount.toNat ∧
      shape.depth ≤ levels ∧ w'.visits = w.visits + shape.size := by
  induction levels generalizing i pre w w' with
  | zero =>
    unfold walk at h
    by_cases hv : w.visits + 1 > s.ncount.toNat
    · simp [hv] at h
    · cases hleaf : nodeIsLeaf (nodeWord s.tree i) with
      | true =>
        simp only [hv, hleaf, if_true, if_false] at h
        cases h
        exact ⟨.leaf, hleaf, by simp only [Shape.size]; omega, by simp [Shape.depth], rfl⟩
      | false => simp [hv, hleaf] at h
  | succ levels ih =>
    unfold walk at h
    by_cases hv : w.visits + 1 > s.ncount.toNat
    · simp [hv] at h
    cases hleaf : nodeIsLeaf (nodeWord s.tree i) with
    | true =>
      simp only [hv, hleaf, if_true, if_false] at h
      cases h
      exact ⟨.leaf, hleaf, by simp only [Shape.size]; omega, by simp [Shape.depth], rfl⟩
    | false =>
      simp only [hv, hleaf, if_false, Bool.false_eq_true] at h
      have right : ∀ {w1 : WalkState}, nodeHasRight (nodeWord s.tree i) = true →
          (if (nodeRight (nodeWord s.tree i)).toNat ≥ s.ncount.toNat then
              Except.error (FaultCode.badIndex, infoBadIndex i true (nodeRight (nodeWord s.tree i)))
            else walk s levels (nodeRight (nodeWord s.tree i)) (pre ++ [true]) w1) = .ok w' →
          ∃ r : Shape, (nodeRight (nodeWord s.tree i)).toNat < s.ncount.toNat ∧
            r.Represents s.tree s.ncount (nodeRight (nodeWord s.tree i)) ∧
            w1.visits + r.size ≤ s.ncount.toNat ∧ r.depth ≤ levels ∧ w'.visits = w1.visits + r.size := by
        intro w1 _ h
        split at h
        · cases h
        · next hn =>
          obtain ⟨r, h1, h2, h3, h4⟩ := ih h
          exact ⟨r, by omega, h1, h2, h3, h4⟩
      cases hl : nodeHasLeft (nodeWord s.tree i) with
      | false =>
        have hr : nodeHasRight (nodeWord s.tree i) = true := by
          cases hr : nodeHasRight (nodeWord s.tree i) with
          | true => rfl
          | false => simp [nodeIsLeaf, hl, hr] at hleaf
        simp only [hl, hr, if_true, if_false, Bool.false_eq_true] at h
        obtain ⟨r, hn, h1, h2, h3, h4⟩ := right hr h
        exact ⟨.right r, ⟨hl, hr, hn, h1⟩, by simp only [Shape.size] at h2 ⊢; omega,
          by simp only [Shape.depth]; omega, by simp only [Shape.size] at h4 ⊢; omega⟩
      | true =>
        simp only [hl, if_true] at h
        by_cases hn : (nodeLeft (nodeWord s.tree i)).toNat ≥ s.ncount.toNat
        · simp [hn] at h
        simp only [hn, if_false] at h
        cases hw : walk s levels (nodeLeft (nodeWord s.tree i)) (pre ++ [false]) ⟨w.visits + 1, w.table⟩ with
        | error e => simp [hw] at h
        | ok w1 =>
          simp only [hw] at h
          obtain ⟨l, g1, g2, g3, g4⟩ := ih hw
          simp only at g2 g4
          cases hr : nodeHasRight (nodeWord s.tree i) with
          | false =>
            simp only [hr, if_false, Bool.false_eq_true] at h
            cases h
            exact ⟨.left l, ⟨hl, hr, by omega, g1⟩, by simp only [Shape.size]; omega,
              by simp only [Shape.depth]; omega, by simp only [Shape.size]; omega⟩
          | true =>
            simp only [hr, if_true] at h
            obtain ⟨r, hn', h1, h2, h3, h4⟩ := right hr h
            exact ⟨.both l r, ⟨hl, hr, by omega, hn', g1, h1⟩, by simp only [Shape.size]; omega,
              by simp only [Shape.depth]; omega, by simp only [Shape.size]; omega⟩

/-- The faults a walk can raise (R180). -/
theorem walk_error {s : State} {levels : Nat} {i : NodeIdx} {pre : List Bool} {w : WalkState} {c : FaultCode} {info : Word}
    (h : walk s levels i pre w = .error (c, info)) : c = .treeLoop ∨ c = .codeTooLong ∨ c = .badIndex := by
  induction levels generalizing i pre w with
  | zero =>
    unfold walk at h
    dsimp only at h
    split_ifs at h <;> cases h <;> simp
  | succ levels ih =>
    unfold walk at h
    by_cases hv : w.visits + 1 > s.ncount.toNat
    · simp only [hv, if_true] at h; cases h; simp
    cases hleaf : nodeIsLeaf (nodeWord s.tree i) with
    | true => simp [hv, hleaf] at h
    | false =>
      simp only [hv, hleaf, if_false, Bool.false_eq_true] at h
      split at h
      · next e he =>
        cases h
        split_ifs at he
        · cases he; simp
        · exact ih he
      · split_ifs at h
        · cases h; simp
        · exact ih h

/-! ### The staging table -/

/-- The entry of byte `b` after a list of paths is recorded: the last path whose leaf holds `b`, or as before (R180, corner cases 2
and 3). -/
theorem entry_recordPaths (tree : Memory) (n i : NodeIdx) (T : Memory) (paths : List (List Bool)) (b : Byte)
    (hlen : ∀ p ∈ paths, p.length ≤ 255) :
    match lastPath tree n i paths b with
    | some p =>
      codeValid (recordPaths tree n i [] T paths) b = true ∧ codePath (recordPaths tree n i [] T paths) b = p ∧
        ∀ j, p.length ≤ j → j < 255 → codeBit (recordPaths tree n i [] T paths) b j = false
    | none =>
      codeValid (recordPaths tree n i [] T paths) b = codeValid T b ∧
        codeLen (recordPaths tree n i [] T paths) b = codeLen T b ∧
        ∀ j < 255, codeBit (recordPaths tree n i [] T paths) b j = codeBit T b j := by
  induction paths using List.reverseRecOn with
  | nil => exact ⟨rfl, rfl, fun _ _ => rfl⟩
  | append_singleton ps p ih =>
    have ih := ih fun q hq => hlen q (by simp [hq])
    have hp : p.length ≤ 255 := hlen p (by simp)
    simp only [recordPaths_append]
    generalize recordPaths tree n i [] T ps = T' at ih ⊢
    have hT : recordPaths tree n i [] T' [p] = writeEntry T' (leafValue tree n i p) p := rfl
    rw [hT]
    by_cases hb : leafValue tree n i p = b
    · have hlast : lastPath tree n i (ps ++ [p]) b = some p := by simp [lastPath, List.filter_append, hb]
      rw [hlast]
      refine ⟨by rw [codeValid_writeEntry, if_pos hb.symm], by rw [codePath_writeEntry _ _ hp, if_pos hb.symm], ?_⟩
      intro j hj hj'
      rw [codeBit_writeEntry _ _ _ _ (by omega), if_pos hb.symm, List.getD_eq_default _ _ hj]
    · have hlast : lastPath tree n i (ps ++ [p]) b = lastPath tree n i ps b := by
        simp [lastPath, List.filter_append, hb]
      have hb' : ¬ b = leafValue tree n i p := fun h => hb h.symm
      rw [hlast]
      cases hl : lastPath tree n i ps b with
      | some q =>
        rw [hl] at ih
        refine ⟨by rw [codeValid_writeEntry, if_neg hb']; exact ih.1,
          by rw [codePath_writeEntry _ _ hp, if_neg hb']; exact ih.2.1, fun j hj hj' => ?_⟩
        rw [codeBit_writeEntry _ _ _ _ (by omega), if_neg hb']
        exact ih.2.2 j hj hj'
      | none =>
        rw [hl] at ih
        refine ⟨by rw [codeValid_writeEntry, if_neg hb']; exact ih.1,
          by rw [codeLen_writeEntry, if_neg hb']; exact ih.2.1, fun j hj => ?_⟩
        rw [codeBit_writeEntry _ _ _ _ (by omega), if_neg hb']
        exact ih.2.2 j hj

theorem Memory.wf_recordPaths {T : Memory} (h : Memory.wf T) (tree : Memory) (n i : NodeIdx) (pre : List Bool)
    (paths : List (List Bool)) : Memory.wf (recordPaths tree n i pre T paths) := by
  induction paths generalizing T with
  | nil => exact h
  | cons p ps ih => exact ih (Memory.wf_writeEntry h _ _)

theorem Memory.mem_recordPaths {tree : Memory} {n i : NodeIdx} {pre : List Bool} {paths : List (List Bool)} {T : Memory}
    {c : Host.Cell} (h : c ∈ recordPaths tree n i pre T paths) : (0x4000 ≤ c.1 ∧ c.1 < 0x8000) ∨ c ∈ T := by
  induction paths generalizing T with
  | nil => exact .inr h
  | cons p ps ih =>
    rcases ih h with h | h
    · exact .inl h
    · exact Memory.mem_writeEntry h

/-! ### BUILDTAB -/

/-- Everything BUILDTAB can do with no fault recorded: record the leaves of a shape that fits, or raise one of its three faults with
no other effect (R180). -/
theorem buildTable_cases (s : State) :
    (∃ shape : Shape, shape.Represents s.tree s.ncount s.root ∧ shape.size ≤ s.ncount.toNat ∧ shape.depth ≤ 255 ∧
      buildTable s = { s with code := recordPaths s.tree s.ncount s.root [] [] shape.leafPaths }) ∨
    ∃ (c : FaultCode) (info : Word), (c = .treeLoop ∨ c = .codeTooLong ∨ c = .badIndex) ∧
      buildTable s = s.raise c info := by
  unfold buildTable
  cases h : walk s Config.maxCode s.root [] ⟨0, []⟩ with
  | error e => exact .inr ⟨e.1, e.2, walk_error (c := e.1) (info := e.2) h, rfl⟩
  | ok w =>
    obtain ⟨shape, hrep, hsize, hdepth, _⟩ := represents_of_walk h
    simp only [Nat.zero_add] at hsize
    refine .inl ⟨shape, hrep, hsize, hdepth, ?_⟩
    rw [walk_of_represents hrep (by simpa using hsize) hdepth] at h
    cases h
    rfl

/-- BUILDTAB where a shape fits. -/
theorem buildTable_of_represents {s : State} {shape : Shape} (hrep : shape.Represents s.tree s.ncount s.root)
    (hsize : shape.size ≤ s.ncount.toNat) (hdepth : shape.depth ≤ 255) :
    buildTable s = { s with code := recordPaths s.tree s.ncount s.root [] [] shape.leafPaths } := by
  unfold buildTable
  rw [walk_of_represents hrep (by simpa using hsize) (show shape.depth ≤ Config.maxCode from hdepth)]

/-- A valid entry of a table recorded from nothing is the path of a leaf that holds its byte (R183). -/
theorem leaf_of_codeValid {tree : Memory} {n i : NodeIdx} {shape : Shape} (hrep : shape.Represents tree n i)
    (hdepth : shape.depth ≤ 255) {b : Byte} (hv : codeValid (recordPaths tree n i [] [] shape.leafPaths) b = true) :
    ∃ c, nodeAt tree n i (codePath (recordPaths tree n i [] [] shape.leafPaths) b) = some c ∧
      nodeIsLeaf (nodeWord tree c) = true ∧ nodeValue (nodeWord tree c) = b := by
  have hlen : ∀ p ∈ shape.leafPaths, p.length ≤ 255 := fun p hp => by
    obtain ⟨_, _, _, h⟩ := Shape.nodeAt_of_mem_leafPaths hrep hp
    omega
  have h := entry_recordPaths tree n i [] shape.leafPaths b hlen
  cases hl : lastPath tree n i shape.leafPaths b with
  | none =>
    rw [hl] at h
    rw [h.1, codeValid_nil] at hv
    cases hv
  | some p =>
    rw [hl] at h
    have hmem := List.mem_of_getLast? hl
    rw [List.mem_filter] at hmem
    obtain ⟨c, hat, hleaf, _⟩ := Shape.nodeAt_of_mem_leafPaths hrep hmem.1
    have hval := hmem.2
    simp only [leafValue, hat, beq_iff_eq] at hval
    exact ⟨c, by rw [h.2.1]; exact hat, hleaf, hval⟩

end Sys2Proof.Machine
end

