-- ==== Sys2Proof/Laws/Port.lean ====
section
/-! SUPPORT. Which word an offset names (20_memory.md R60, R63), and everything a request and a command can do: the inversions that
invariants and frames are proved from. -/

namespace Sys2Proof.Machine

/-! ### Offsets -/

theorem accepted_reg (s : State) (r : Reg) : accepted s r.offset .word = some (.reg r) := by
  cases r <;> rfl

/-- An access that reaches a register is an aligned 4-byte access at its offset. -/
theorem of_accepted_reg {s : State} {off : Offset} {n : Size} {r : Reg} (h : accepted s off n = some (.reg r)) :
    off = r.offset ∧ n = .word := by
  unfold accepted at h
  split at h
  · next hc =>
    refine ⟨?_, hc.1⟩
    unfold target at h
    simp only at h
    split at h
    · obtain ⟨r', hr', he⟩ := Option.map_eq_some_iff.mp h
      cases he
      have := List.find?_some hr'
      simpa using (beq_iff_eq.mp this).symm
    · split_ifs at h <;> cases h
  · cases h

theorem accepted_node (s : State) {i : Nat} (h : i < 511) :
    accepted s (BitVec.ofNat 16 (0x1000 + 4 * i)) .word = some (.node (BitVec.ofNat 9 i)) := by
  have ho : (BitVec.ofNat 16 (0x1000 + 4 * i)).toNat = 0x1000 + 4 * i := by
    rw [BitVec.toNat_ofNat]; exact Nat.mod_eq_of_lt (by omega)
  simp only [accepted, target, ho]
  rw [if_pos ⟨trivial, by omega⟩, if_neg (by omega), if_pos (by omega), if_pos (by omega)]
  congr 2
  congr 1
  omega

theorem accepted_codeWord (s : State) (b : Byte) {k : Nat} (h : k ≤ 8) :
    accepted s (BitVec.ofNat 16 (codeAddr b k)) .word = some (.codeWord b k) := by
  have hb : b.toNat < 256 := b.isLt
  have ho : (BitVec.ofNat 16 (codeAddr b k)).toNat = 0x4000 + 64 * b.toNat + 4 * k := by
    rw [BitVec.toNat_ofNat]; exact Nat.mod_eq_of_lt (by unfold codeAddr; omega)
  have hk : (0x4000 + 64 * b.toNat + 4 * k - 0x4000) % 64 / 4 = k := by omega
  have hd : (0x4000 + 64 * b.toNat + 4 * k - 0x4000) / 64 = b.toNat := by omega
  simp only [accepted, target, ho, hk, hd]
  rw [if_pos ⟨trivial, by omega⟩, if_neg (by omega), if_neg (by omega), if_pos (by omega), if_pos h]
  simp

theorem accepted_bitWord {s : State} (hcap : s.cap.toNat ≤ 262144) {w : Nat} (h : w < s.cap.toNat / 32) :
    accepted s (BitVec.ofNat 16 (bitWordAddr w)) .word = some (.bitWord w) := by
  have ho : (BitVec.ofNat 16 (bitWordAddr w)).toNat = 0x8000 + 4 * w := by
    rw [BitVec.toNat_ofNat]; exact Nat.mod_eq_of_lt (by unfold bitWordAddr; omega)
  have hw : (0x8000 + 4 * w - 0x8000) / 4 = w := by omega
  simp only [accepted, target, ho, hw]
  rw [if_pos ⟨trivial, by omega⟩, if_neg (by omega), if_neg (by omega), if_neg (by omega), if_pos h]

/-- The word a RAM access reaches exists, and its offset is in its region (R60). -/
theorem of_accepted {s : State} {off : Offset} {n : Size} {tgt : Target} (h : accepted s off n = some tgt) :
    n = .word ∧ off.toNat % 4 = 0 ∧
      match tgt with
      | .reg r => off = r.offset
      | .node i => i.toNat < 511 ∧ off.toNat = nodeAddr i
      | .codeWord b k => k ≤ 8 ∧ off.toNat = codeAddr b k
      | .bitWord w => w < s.cap.toNat / 32 ∧ off.toNat = bitWordAddr w := by
  cases tgt with
  | reg r =>
    have := of_accepted_reg h
    refine ⟨this.2, ?_, this.1⟩
    rw [this.1]
    cases r <;> rfl
  | node i =>
    unfold accepted at h
    split at h
    · next hc =>
      refine ⟨hc.1, hc.2, ?_⟩
      unfold target at h
      simp only at h
      split_ifs at h
      · obtain ⟨_, _, he⟩ := Option.map_eq_some_iff.mp h
        cases he
      · cases h
        have : ((off.toNat - 0x1000) / 4) % 2 ^ 9 = (off.toNat - 0x1000) / 4 := Nat.mod_eq_of_lt (by omega)
        simp only [nodeAddr, BitVec.toNat_ofNat, this]
        omega
      · cases h
      · cases h
    · cases h
  | codeWord b k =>
    unfold accepted at h
    split at h
    · next hc =>
      refine ⟨hc.1, hc.2, ?_⟩
      unfold target at h
      simp only at h
      split_ifs at h
      · obtain ⟨_, _, he⟩ := Option.map_eq_some_iff.mp h
        cases he
      · cases h
      · cases h
        have : ((off.toNat - 0x4000) / 64) % 2 ^ 8 = (off.toNat - 0x4000) / 64 := Nat.mod_eq_of_lt (by omega)
        simp only [codeAddr, BitVec.toNat_ofNat, this]
        omega
      · cases h
    · cases h
  | bitWord w =>
    unfold accepted at h
    split at h
    · next hc =>
      refine ⟨hc.1, hc.2, ?_⟩
      unfold target at h
      simp only at h
      split_ifs at h
      · obtain ⟨_, _, he⟩ := Option.map_eq_some_iff.mp h
        cases he
      · cases h
      · cases h
      · cases h
        simp only [bitWordAddr]
        omega
    · cases h

/-! ### Commands -/

/-- Everything ENCB can do with no fault recorded: raise a fault, or append (R150). -/
theorem encodeByte_cases (b : Byte) (s : State) :
    (∃ (c : FaultCode) (info : Word), encodeByte b s = s.raise c info) ∨
    (codeValid s.code b = true ∧ s.bitlen.toNat + (codeLen s.code b).toNat ≤ s.cap.toNat ∧
      encodeByte b s = { s with
        bits := writeBits s.bits s.bitlen.toNat (codePath s.code b)
        bitlen := BitVec.ofNat 32 (s.bitlen.toNat + (codeLen s.code b).toNat) }) := by
  unfold encodeByte
  cases hv : codeValid s.code b with
  | false => exact .inl ⟨_, _, by simp; rfl⟩
  | true =>
    by_cases hf : s.bitlen.toNat + (codeLen s.code b).toNat > s.cap.toNat
    · exact .inl ⟨_, _, by simp [hf]; rfl⟩
    · exact .inr ⟨rfl, by omega, by simp [hf]⟩

/-- Everything DSTEP can do with no fault recorded (R161). -/
theorem decodeBit_cases (s : State) :
    (s.bitlen.toNat ≤ s.rdptr.toNat ∧ decodeBit s = s.decodedEmpty s.rdptr.toNat s.dpos) ∨
    (∃ (c : FaultCode) (info : Word), (c = .noChild ∨ c = .badIndex) ∧ decodeBit s = s.raise c info) ∨
    (∃ d : NodeIdx, s.rdptr.toNat < s.bitlen.toNat ∧ d.toNat < s.ncount.toNat ∧
      decodeBit s = s.decodedMove (s.rdptr.toNat + 1) d) ∨
    (∃ v : Byte, s.rdptr.toNat < s.bitlen.toNat ∧ decodeBit s = s.decodedByte (s.rdptr.toNat + 1) s.root v) := by
  unfold decodeBit
  rcases decodeStep_cases s s.rdptr.toNat s.dpos with ⟨h, e⟩ | ⟨_, _, e⟩ | ⟨_, _, _, e⟩ | ⟨h, _, _, _, e⟩ | ⟨h, _, hn, _, e⟩ <;>
    simp only [e]
  · exact .inl ⟨h, trivial⟩
  · exact .inr (.inl ⟨_, _, .inl rfl, rfl⟩)
  · exact .inr (.inl ⟨_, _, .inr rfl, rfl⟩)
  · exact .inr (.inr (.inr ⟨_, h, rfl⟩))
  · exact .inr (.inr (.inl ⟨_, h, hn, rfl⟩))

/-- Everything DECB can do with no fault recorded (R162). -/
theorem decodeByte_cases (s : State) :
    (∃ (r : Nat) (d : NodeIdx), r = max s.rdptr.toNat s.bitlen.toNat ∧ (d = s.dpos ∨ d.toNat < s.ncount.toNat) ∧
      decodeByte s = s.decodedEmpty r d) ∨
    (∃ (c : FaultCode) (info : Word), (c = .noChild ∨ c = .badIndex) ∧ decodeByte s = s.raise c info) ∨
    (∃ (r : Nat) (v : Byte), s.rdptr.toNat < r ∧ r ≤ s.bitlen.toNat ∧ decodeByte s = s.decodedByte r s.root v) := by
  obtain ⟨path, d, hbits, hlen, hat, hint, hend⟩ := decbLoop_cases s _ s.rdptr.toNat s.dpos rfl
  unfold decodeByte
  rcases hend with ⟨hr, e⟩ | ⟨c, info, hs, e⟩ | ⟨r, d', v, hs, e⟩ <;> simp only [e]
  · refine .inl ⟨_, d, by omega, ?_, rfl⟩
    cases path with
    | nil => cases hat; exact .inl rfl
    | cons b p =>
      simp only [nodeAt] at hat
      split at hat
      · next hc => exact .inr (nodeAt_lt hc.2 hat)
      · cases hat
  · refine .inr (.inl ⟨c, info, ?_, rfl⟩)
    rcases decodeStep_cases s (s.rdptr.toNat + path.length) d with
      ⟨_, e⟩ | ⟨_, _, e⟩ | ⟨_, _, _, e⟩ | ⟨_, _, _, _, e⟩ | ⟨_, _, _, _, e⟩ <;> rw [e] at hs <;> cases hs
    · exact .inl rfl
    · exact .inr rfl
  · obtain ⟨h1, rfl, rfl, _, _, _, _⟩ := of_decodeStep_emit hs
    exact .inr (.inr ⟨_, v, by omega, by omega, rfl⟩)

/-- A command with no fault recorded runs its own rule (R140). -/
theorem exec_encb_clear {s : State} (h : s.fault = false) (b : Byte) : exec (.encb b) s = .next (encodeByte b s) := by
  simp only [exec, execEncb, State.unlessFaulted_clear h]

theorem exec_dstep_clear {s : State} (h : s.fault = false) : exec .dstep s = .next (decodeBit s) := by
  simp only [exec, execDstep, State.unlessFaulted_clear h]

theorem exec_decb_clear {s : State} (h : s.fault = false) : exec .decb s = .next (decodeByte s) := by
  simp only [exec, execDecb, State.unlessFaulted_clear h]

theorem exec_buildtab_clear {s : State} (h : s.fault = false) : exec .buildtab s = .next (buildTable s) := by
  simp only [exec, execBuildtab, State.unlessFaulted_clear h]

/-- Everything a command can do, from every state (R140 to R143, R150, R161, R162, R180, R213). -/
theorem exec_cases {i : Instr} {s t : State} (h : exec i s = .next t) :
    (t = s ∧ (i = .nop ∨ s.fault = true)) ∨
    (i = .sreset ∧ t = s.resetState) ∨
    (i = .clrf ∧ t = s.clearFault) ∨
    (s.fault = false ∧ ∃ (c : FaultCode) (info : Word), t = s.raise c info) ∨
    (s.fault = false ∧ ∃ b : Byte, i = .encb b ∧ codeValid s.code b = true ∧
      s.bitlen.toNat + (codeLen s.code b).toNat ≤ s.cap.toNat ∧
      t = { s with
        bits := writeBits s.bits s.bitlen.toNat (codePath s.code b)
        bitlen := BitVec.ofNat 32 (s.bitlen.toNat + (codeLen s.code b).toNat) }) ∨
    (s.fault = false ∧ (i = .dstep ∨ i = .decb) ∧
      ((∃ (r : Nat) (d : NodeIdx), (r = s.rdptr.toNat ∨ r ≤ s.bitlen.toNat) ∧ (d = s.dpos ∨ d.toNat < s.ncount.toNat) ∧
          (t = s.decodedEmpty r d ∨ t = s.decodedMove r d)) ∨
        (∃ (r : Nat) (v : Byte), r ≤ s.bitlen.toNat ∧ t = s.decodedByte r s.root v))) ∨
    (s.fault = false ∧ i = .buildtab ∧ ∃ shape : Shape, shape.Represents s.tree s.ncount s.root ∧
      shape.size ≤ s.ncount.toNat ∧ shape.depth ≤ 255 ∧
      t = { s with code := recordPaths s.tree s.ncount s.root [] [] shape.leafPaths }) := by
  by_cases hc : i = .nop ∨ i = .sreset ∨ i = .clrf
  · rcases hc with rfl | rfl | rfl <;> cases h
    · exact .inl ⟨rfl, .inl rfl⟩
    · exact .inr (.inl ⟨rfl, rfl⟩)
    · exact .inr (.inr (.inl ⟨rfl, rfl⟩))
  · rcases Bool.eq_false_or_eq_true s.fault with hf | hf
    · refine .inl ⟨?_, .inr hf⟩
      cases i <;> simp only [reduceCtorEq, false_or, or_false, not_true_eq_false] at hc <;>
        simp only [exec, execEncb, execDstep, execDecb, execBuildtab, State.unlessFaulted_faulted hf,
          Host.Outcome.next.injEq] at h <;> exact h.symm
    · refine .inr (.inr (.inr ?_))
      cases i with
      | nop => simp at hc
      | sreset => simp at hc
      | clrf => simp at hc
      | encb b =>
        rw [exec_encb_clear hf] at h
        cases h
        rcases encodeByte_cases b s with ⟨c, info, e⟩ | ⟨hv, hl, e⟩ <;> rw [e]
        · exact .inl ⟨hf, c, info, rfl⟩
        · exact .inr (.inl ⟨hf, b, rfl, hv, hl, rfl⟩)
      | dstep =>
        rw [exec_dstep_clear hf] at h
        cases h
        rcases decodeBit_cases s with ⟨_, e⟩ | ⟨c, info, _, e⟩ | ⟨d, hr, hd, e⟩ | ⟨v, hr, e⟩ <;> rw [e]
        · exact .inr (.inr (.inl ⟨hf, .inl rfl, .inl ⟨_, _, .inl rfl, .inl rfl, .inl rfl⟩⟩))
        · exact .inl ⟨hf, c, info, rfl⟩
        · exact .inr (.inr (.inl ⟨hf, .inl rfl, .inl ⟨_, d, .inr (by omega), .inr hd, .inr rfl⟩⟩))
        · exact .inr (.inr (.inl ⟨hf, .inl rfl, .inr ⟨_, v, by omega, rfl⟩⟩))
      | decb =>
        rw [exec_decb_clear hf] at h
        cases h
        rcases decodeByte_cases s with ⟨r, d, hr, hd, e⟩ | ⟨c, info, _, e⟩ | ⟨r, v, _, hr, e⟩ <;> rw [e]
        · exact .inr (.inr (.inl ⟨hf, .inr rfl, .inl ⟨r, d, by omega, hd, .inl rfl⟩⟩))
        · exact .inl ⟨hf, c, info, rfl⟩
        · exact .inr (.inr (.inl ⟨hf, .inr rfl, .inr ⟨r, v, hr, rfl⟩⟩))
      | buildtab =>
        rw [exec_buildtab_clear hf] at h
        cases h
        rcases buildTable_cases s with ⟨shape, h1, h2, h3, e⟩ | ⟨c, info, _, e⟩ <;> rw [e]
        · exact .inr (.inr (.inr ⟨hf, rfl, shape, h1, h2, h3, rfl⟩))
        · exact .inl ⟨hf, c, info, rfl⟩

/-- Every command completes (00_scope.md R16). -/
theorem exec_next (i : Instr) (s : State) : ∃ t, exec i s = .next t := by
  cases i <;> exact ⟨_, rfl⟩

/-! ### Requests -/

/-- Everything a request can do, from every state (20_memory.md R62; 40_register_access.md; 41_control.md R140; R240). -/
theorem perform_cases {q : Request} {s t : State} (h : perform q s = .next t) :
    (∃ (off : Offset) (n : Size), q = .read off n ∧
      ((∃ v : Word, t = s.reply v) ∨ t = (s.raise .accessErr (infoAccess false off n)).reply 0)) ∨
    (q = .resetInput ∧ t = s.resetState) ∨
    (∃ (off : Offset) (n : Size) (v : Word), q = .write off n v ∧
      ((∃ (c : FaultCode) (info : Word), t = s.raise c info) ∨
        (1 ≤ v.toNat ∧ v.toNat ≤ 511 ∧ t = { s with ncount := v.setWidth 9, dpos := (v - 1).setWidth 9 }) ∨
        (v.toNat ≤ s.cap.toNat ∧ t = { s with bitlen := v }) ∨
        (v.toNat ≤ s.cap.toNat ∧ t = { s with rdptr := v, dpos := s.root }) ∨
        (∃ i : NodeIdx, n = .word ∧ i.toNat < 511 ∧ off.toNat = nodeAddr i ∧
          t = { s with tree := Memory.writeWord s.tree (nodeAddr i) (v &&& nodeMask) }) ∨
        (∃ (b : Byte) (k : Nat), k ≤ 8 ∧
          t = { s with code := Memory.writeWord s.code (codeAddr b k) (storedCodeWord k v) }) ∨
        (∃ w : Nat, w < s.cap.toNat / 32 ∧ t = { s with bits := Memory.writeWord s.bits (bitWordAddr w) v }) ∨
        (∃ i : Instr, off = 0x000C ∧ n = .word ∧ decode v = .ok i ∧ exec i s = .next t))) := by
  cases q with
  | resetInput => cases h; exact .inr (.inl ⟨rfl, rfl⟩)
  | read off n =>
    refine .inl ⟨off, n, rfl, ?_⟩
    simp only [perform, Host.Outcome.next.injEq] at h
    subst h
    unfold hostRead
    split
    · exact .inl ⟨_, rfl⟩
    · exact .inr rfl
  | write off n v =>
    refine .inr (.inr ⟨off, n, v, rfl, ?_⟩)
    simp only [perform, hostWrite] at h
    split at h
    · next tgt htgt =>
      have hacc := of_accepted htgt
      obtain ⟨rfl, _, hacc⟩ := hacc
      cases tgt with
      | node i => cases h; exact .inr (.inr (.inr (.inr (.inl ⟨i, rfl, hacc.1, hacc.2, rfl⟩))))
      | codeWord b k => cases h; exact .inr (.inr (.inr (.inr (.inr (.inl ⟨b, k, hacc.1, rfl⟩)))))
      | bitWord w => cases h; exact .inr (.inr (.inr (.inr (.inr (.inr (.inl ⟨w, hacc.1, rfl⟩))))))
      | reg r =>
        simp only [writeTarget] at h
        cases r <;> simp only [writeReg, Host.Outcome.next.injEq] at h
        case cmd =>
          simp only at hacc
          unfold executeCommand at h
          split at h
          · cases h; exact .inl ⟨_, _, rfl⟩
          · next i hi => exact .inr (.inr (.inr (.inr (.inr (.inr (.inr ⟨i, hacc, rfl, hi, h⟩))))))
        case ncount =>
          subst h
          unfold writeNcount
          split
          · exact .inl ⟨_, _, rfl⟩
          · next hv => simp only [Config.nmax] at hv; exact .inr (.inl ⟨by omega, by omega, rfl⟩)
        case bitlen =>
          subst h
          unfold writeBitlen
          split
          · exact .inl ⟨_, _, rfl⟩
          · next hv => exact .inr (.inr (.inl ⟨by omega, rfl⟩))
        case rdptr =>
          subst h
          unfold writeRdptr
          split
          · exact .inl ⟨_, _, rfl⟩
          · next hv => exact .inr (.inr (.inr (.inl ⟨by omega, rfl⟩)))
        all_goals subst h; exact .inl ⟨_, _, rfl⟩
    · cases h; exact .inl ⟨_, _, rfl⟩

/-- Every request completes (00_scope.md R16). -/
theorem perform_next (q : Request) (s : State) : ∃ t, perform q s = .next t := by
  cases q with
  | read off n => exact ⟨_, rfl⟩
  | resetInput => exact ⟨_, rfl⟩
  | write off n v =>
    simp only [perform, hostWrite]
    split
    · next tgt _ =>
      cases tgt with
      | reg r =>
        cases r <;> simp only [writeTarget, writeReg] <;> try exact ⟨_, rfl⟩
        unfold executeCommand
        split
        · exact ⟨_, rfl⟩
        · exact exec_next _ _
      | _ => exact ⟨_, rfl⟩
    · exact ⟨_, rfl⟩

/-- A CMD write of a word that decodes runs its command (R119, R140). -/
theorem perform_command {w : Word} {i : Instr} (h : decode w = .ok i) (s : State) :
    perform (commandRequest w) s = exec i s := by
  simp only [commandRequest, perform, hostWrite, accepted_reg, writeTarget, writeReg, executeCommand, h]

end Sys2Proof.Machine
end

