-- ==== Sys2Proof/Laws/Runs.lean ====
section
/-! SUPPORT. Runs of commands and of host program lines, what a register access is, what a command reads, and the §4.5 state machine
along a path of bits (42_encoder.md R151, 43_decoder.md R163, R164, 30_encoding.md R88, R89). -/

namespace Sys2Proof.Machine
open HostProgram

/-! ### The root -/

/-- ROOT = NCOUNT - 1 as a number, where the tree has a node (00_scope.md R14). -/
theorem State.root_toNat {s : State} (h : 1 ≤ s.ncount.toNat) : s.root.toNat = s.ncount.toNat - 1 := by
  have := s.ncount.isLt
  unfold State.root
  rw [BitVec.toNat_sub]
  simp
  omega

/-- A position below NCOUNT is a word plus one below 2^32. -/
theorem ofNat_toNat_succ (w : Word) : BitVec.ofNat 32 (w.toNat + 1) = w + 1 := by
  apply BitVec.eq_of_toNat_eq
  simp

/-! ### Bits of the sequence -/

/-- The bits a state holds depend on its bit RAM only. -/
theorem State.bitsFrom_congr {s t : State} (h : s.bits = t.bits) (p n : Nat) : s.bitsFrom p n = t.bitsFrom p n := by
  simp [State.bitsFrom, h]

/-- The bits just written are read back. -/
theorem State.bitsFrom_writeBits (s : State) (p : Nat) (xs : List Bool) :
    State.bitsFrom { s with bits := writeBits s.bits p xs } p xs.length = xs := by
  rw [State.bitsFrom_eq_iff]
  intro j hj
  rw [readBit_writeBits, if_pos (by omega), Nat.add_sub_cancel_left, List.getD_eq_getElem?_getD,
    List.getElem?_eq_getElem hj]
  rfl

theorem writeBits_append (m : Memory) (p : Nat) (xs ys : List Bool) :
    writeBits m p (xs ++ ys) = writeBits (writeBits m p xs) (p + xs.length) ys := by
  induction xs generalizing m p with
  | nil => rfl
  | cons x xs ih =>
    simp only [List.cons_append, writeBits, ih, List.length_cons]
    congr 1
    omega

/-- The length of the concatenated codes of a list of bytes is the sum of their LEN (R151). -/
theorem flatMap_codePath_length (m : Memory) (bs : List Byte) :
    (bs.flatMap (codePath m)).length = (bs.map fun b => (codeLen m b).toNat).sum := by
  induction bs with
  | nil => rfl
  | cons b bs ih => simp only [List.flatMap_cons, List.length_append, ih, codePath_length, List.map_cons, List.sum_cons]

/-- A byte with LEN at least 1 has a non-empty code. -/
theorem codePath_ne_nil {m : Memory} {b : Byte} (h : codeLen m b ≠ 0) : codePath m b ≠ [] := by
  intro h0
  apply h
  apply BitVec.eq_of_toNat_eq
  rw [← codePath_length, h0]
  rfl

/-! ### Runs of commands -/

theorem execAll_append (is js : List Instr) (s : State) :
    execAll (is ++ js) s = (match execAll is s with
      | .next t => execAll js t
      | .fault f => .fault f
      | .refused r => .refused r) := by
  induction is generalizing s with
  | nil => rfl
  | cons i is ih =>
    simp only [List.cons_append, execAll]
    cases exec i s with
    | next t => exact ih t
    | fault f => rfl
    | refused f => rfl

/-- Every run of commands completes (00_scope.md R16). -/
theorem execAll_next (is : List Instr) (s : State) : ∃ t, execAll is s = .next t := by
  induction is generalizing s with
  | nil => exact ⟨s, rfl⟩
  | cons i is ih =>
    obtain ⟨t, ht⟩ := exec_next i s
    simp only [execAll, ht]
    exact ih t

/-- DSTEP where the iteration is a move (R161). -/
theorem exec_dstep_of_move {s : State} (hf : s.fault = false) {r : Nat} {d : NodeIdx}
    (h : decodeStep s s.rdptr.toNat s.dpos = .move r d) : exec .dstep s = .next (s.decodedMove r d) := by
  rw [exec_dstep_clear hf]
  simp [decodeBit, h]

/-- DSTEP commands along a path of moves, one per bit (R164). -/
theorem execAll_dstep_path {s : State} (hf : s.fault = false) {path : List Bool} {d' : NodeIdx}
    (hbits : s.bitsFrom s.rdptr.toNat path.length = path)
    (hlen : s.rdptr.toNat + path.length ≤ max s.rdptr.toNat s.bitlen.toNat)
    (hat : nodeAt s.tree s.ncount s.dpos path = some d')
    (hint : path ≠ [] → nodeIsLeaf (nodeWord s.tree d') = false) :
    execAll (List.replicate path.length .dstep) s =
      .next (if path = [] then s else s.decodedMove (s.rdptr.toNat + path.length) d') := by
  induction path generalizing s with
  | nil => rfl
  | cons b path ih =>
    have hbl := s.bitlen.isLt
    simp only [List.length_cons] at hbits hlen ⊢
    rw [State.bitsFrom_succ, List.cons.injEq] at hbits
    obtain ⟨rfl, hrest⟩ := hbits
    simp only [nodeAt] at hat
    split at hat
    · next hc =>
      have hleaf : nodeIsLeaf (nodeWord s.tree (nodeChild (nodeWord s.tree s.dpos) (readBit s.bits s.rdptr.toNat))) =
          false := by
        cases path with
        | nil => cases hat; exact hint (by simp)
        | cons b' path => exact not_leaf_of_nodeAt hat
      simp only [List.replicate_succ, execAll]
      rw [exec_dstep_of_move hf (decodeStep_move (by omega) hc.1 hc.2 hleaf)]
      have hr : (BitVec.ofNat 32 (s.rdptr.toNat + 1)).toNat = s.rdptr.toNat + 1 := by
        rw [BitVec.toNat_ofNat, Nat.mod_eq_of_lt (by omega)]
      have := ih
        (s := s.decodedMove (s.rdptr.toNat + 1) (nodeChild (nodeWord s.tree s.dpos) (readBit s.bits s.rdptr.toNat))) hf
        (by simp only [State.decodedMove_rdptr, hr]; exact hrest)
        (by simp only [State.decodedMove_rdptr, State.decodedMove_bitlen, hr]; omega) hat (fun _ => hint (by simp))
      simp only [this]
      split
      · next hp => subst hp; cases hat; simp
      · simp only [reduceCtorEq, if_false, State.decodedMove, hr, Nat.add_assoc, Nat.add_comm 1]
    · cases hat

/-! ### What the commands read -/

/-- DECB's loop reads the tree below NCOUNT and the bits below BITLEN only (10_state.md R32, R34). -/
theorem decbLoop_congr {s t : State} (hn : t.ncount = s.ncount) (hl : t.bitlen = s.bitlen)
    (ht : ∀ j : NodeIdx, j.toNat < s.ncount.toNat → nodeWord t.tree j = nodeWord s.tree j)
    (hb : ∀ p < s.bitlen.toNat, readBit t.bits p = readBit s.bits p) {d : NodeIdx} (hd : d.toNat < s.ncount.toNat)
    (k r : Nat) : decbLoop t k r d = decbLoop s k r d := by
  induction k generalizing r d with
  | zero => rfl
  | succ k ih =>
    simp only [decbLoop, decodeStep_congr hn hl ht hb hd]
    cases h : decodeStep s r d with
    | move r' d' => exact ih (of_decodeStep_move h).2.2.2.2.1 _
    | _ => rfl

/-- BUILDTAB's walk reads the tree below NCOUNT only (10_state.md R32). -/
theorem walk_congr {s t : State} (hn : t.ncount = s.ncount)
    (ht : ∀ j : NodeIdx, j.toNat < s.ncount.toNat → nodeWord t.tree j = nodeWord s.tree j) (levels : Nat) (i : NodeIdx)
    (hi : i.toNat < s.ncount.toNat) (path : List Bool) (w : WalkState) :
    walk t levels i path w = walk s levels i path w := by
  induction levels generalizing i path w with
  | zero => unfold walk; simp only [hn, ht i hi]
  | succ levels ih =>
    unfold walk
    simp only [hn, ht i hi]
    by_cases hv : w.visits + 1 > s.ncount.toNat
    · simp only [hv, if_true]
    · simp only [hv, if_false]
      cases nodeIsLeaf (nodeWord s.tree i) with
      | true => rfl
      | false =>
        simp only [Bool.false_eq_true, if_false]
        have key : ∀ {c : NodeIdx} {e p w},
            (if c.toNat ≥ s.ncount.toNat then Except.error e else walk t levels c p w) =
              (if c.toNat ≥ s.ncount.toNat then Except.error e else walk s levels c p w) := by
          intro c e p w
          split
          · rfl
          · exact ih c (by omega) p w
        simp only [key]

/-- The §4.5 state machine reads the tree below NCOUNT only. -/
theorem referenceDecode_congr {t1 t2 : Memory} {n root d : NodeIdx}
    (h : ∀ j : NodeIdx, j.toNat < n.toNat → nodeWord t1 j = nodeWord t2 j) (hd : d.toNat < n.toNat)
    (hr : root.toNat < n.toNat) (xs : List Bool) : referenceDecode t1 n root d xs = referenceDecode t2 n root d xs := by
  induction xs generalizing d with
  | nil => rfl
  | cons b xs ih =>
    simp only [referenceDecode, h d hd]
    split
    · next hc => rw [h _ hc.2, ih hr, ih hc.2]
    · rfl

/-! ### The §4.5 state machine along a path -/

/-- Along a path of moves the state machine outputs nothing. -/
theorem referenceDecode_moves {tree : Memory} {n root d d' : NodeIdx} {path rest : List Bool}
    (hat : nodeAt tree n d path = some d') (hint : path ≠ [] → nodeIsLeaf (nodeWord tree d') = false) :
    referenceDecode tree n root d (path ++ rest) = referenceDecode tree n root d' rest := by
  induction path generalizing d with
  | nil => cases hat; rfl
  | cons b path ih =>
    simp only [nodeAt] at hat
    split at hat
    · next hc =>
      have hleaf : nodeIsLeaf (nodeWord tree (nodeChild (nodeWord tree d) b)) = false := by
        cases path with
        | nil => cases hat; exact hint (by simp)
        | cons b' path => exact not_leaf_of_nodeAt hat
      simp only [List.cons_append, referenceDecode, if_pos hc, hleaf, Bool.false_eq_true, if_false]
      exact ih hat (fun _ => hint (by simp))
    · cases hat

/-- Along a path to a leaf it outputs the leaf's value and goes back to the root. -/
theorem referenceDecode_leaf {tree : Memory} {n root d c : NodeIdx} {path rest : List Bool} (hp : path ≠ [])
    (hat : nodeAt tree n d path = some c) (hleaf : nodeIsLeaf (nodeWord tree c) = true) :
    referenceDecode tree n root d (path ++ rest) =
      (referenceDecode tree n root root rest).map fun x => (nodeValue (nodeWord tree c) :: x.1, x.2) := by
  induction path generalizing d with
  | nil => exact absurd rfl hp
  | cons b path ih =>
    simp only [nodeAt] at hat
    split at hat
    · next hc =>
      cases path with
      | nil =>
        cases hat
        simp only [List.cons_append, List.nil_append, referenceDecode, if_pos hc, hleaf, if_true]
      | cons b' path =>
        have := not_leaf_of_nodeAt hat
        simp only [List.cons_append, referenceDecode, if_pos hc, this, Bool.false_eq_true, if_false]
        exact ih (by simp) hat
    · cases hat

/-! ### Host program lines -/

/-- A write of a register, whatever the register (R115 to R119). -/
theorem perform_writeReg (r : Reg) (v : Word) (s : State) : perform (.write r.offset .word v) s = writeReg r v s := by
  simp only [perform, hostWrite, accepted_reg, writeTarget]

/-- A read of a register, whatever the register (R111). -/
theorem perform_readReg (r : Reg) (s : State) : perform (.read r.offset .word) s = .next (s.reply (readReg s r)) := by
  simp only [perform, hostRead, accepted_reg, readTarget]

theorem run_append (is js : List Line) (s : State) :
    run (is ++ js) s = (match run is s with
      | .next t => run js t
      | .fault f => .fault f
      | .refused r => .refused r) := by
  induction is generalizing s with
  | nil => rfl
  | cons i is ih =>
    simp only [List.cons_append, run]
    cases perform i.request s with
    | next t => exact ih t
    | fault f => rfl
    | refused f => rfl

theorem run_singleton (l : Line) (s : State) : run [l] s = perform l.request s := by
  simp only [run]
  cases perform l.request s <;> rfl

end Sys2Proof.Machine
end

