-- ==== Sys2Proof/Laws/HostTree.lean ====
section
/-! SUPPORT. The host's tree builder (49_host_reference.md R191 to R194): how many words it makes, what its last word is, and that its
tree is a shape BUILDTAB accepts (R201, 44_table_build.md R181); and runs of the host's loading lines (R195). -/

namespace Sys2Proof.Machine
open HostProgram HostReference

/-! ### The queue -/

theorem smallest_mem (x : Nat × Nat) (q : List (Nat × Nat)) : smallest x q ∈ x :: q := by
  induction q generalizing x with
  | nil => simp [smallest]
  | cons y q ih =>
    have e : smallest x (y :: q) = smallest (if before x y then x else y) q := rfl
    rw [e]
    rcases List.mem_cons.mp (ih (if before x y then x else y)) with h | h
    · rw [h]; split <;> simp
    · simp [h]

/-- A pop takes one pair out of the queue. -/
theorem pop_perm {q q1 : List (Nat × Nat)} {x : Nat × Nat} (h : pop q = some (x, q1)) : q.Perm (x :: q1) := by
  cases q with
  | nil => cases h
  | cons y q =>
    simp only [pop, Option.some.injEq, Prod.mk.injEq] at h
    rw [← h.2, ← h.1]
    exact List.perm_cons_erase (smallest_mem _ _)

theorem pop_length {q q1 : List (Nat × Nat)} {x : Nat × Nat} (h : pop q = some (x, q1)) : q.length = q1.length + 1 := by
  simpa using (pop_perm h).length_eq

theorem pop_isSome {q : List (Nat × Nat)} (h : 1 ≤ q.length) : ∃ x q1, pop q = some (x, q1) := by
  cases q with
  | nil => simp at h
  | cons y q => exact ⟨_, _, rfl⟩

/-! ### The words of the nodes -/

/-- The word of a merged node names both children. -/
theorem nodeWordOf_both (a b : NodeIdx) :
    nodeHasLeft (nodeWordOf 0 (some a) (some b) &&& nodeMask) = true ∧
      nodeHasRight (nodeWordOf 0 (some a) (some b) &&& nodeMask) = true ∧
      nodeLeft (nodeWordOf 0 (some a) (some b) &&& nodeMask) = a ∧
      nodeRight (nodeWordOf 0 (some a) (some b) &&& nodeMask) = b := by
  refine ⟨by simp [nodeHasLeft, nodeWordOf, nodeMask], by simp [nodeHasRight, nodeWordOf, nodeMask], ?_, ?_⟩
  · ext i hi
    interval_cases i <;> simp [nodeLeft, nodeWordOf, nodeMask]
  · ext i hi
    interval_cases i <;> simp [nodeRight, nodeWordOf, nodeMask]

/-- The word of a leaf is a leaf with its value. -/
theorem leafWord (b : Byte) :
    nodeIsLeaf (b.setWidth 32 &&& nodeMask) = true ∧ nodeValue (b.setWidth 32 &&& nodeMask) = b := by
  revert b
  decide

/-! ### The merge loop -/

/-- The merge loop only appends. -/
theorem merge_append (r : Nat) (nodes : List Word) (q : List (Nat × Nat)) : ∃ more, merge r nodes q = nodes ++ more := by
  induction r generalizing nodes q with
  | zero => exact ⟨[], by simp [merge]⟩
  | succ r ih =>
    simp only [merge]
    cases h1 : pop q with
    | none => exact ⟨[], by simp⟩
    | some p =>
      obtain ⟨x, q1⟩ := p
      simp only
      cases h2 : pop q1 with
      | none => exact ⟨[], by simp⟩
      | some p =>
        obtain ⟨y, q2⟩ := p
        simp only
        obtain ⟨more, e⟩ := ih (nodes ++ [nodeWordOf 0 (some (BitVec.ofNat 9 x.2)) (some (BitVec.ofNat 9 y.2))])
          ((x.1 + y.1, nodes.length) :: q2)
        exact ⟨_, by rw [e, List.append_assoc]⟩

/-- With enough rounds, k leaves and q pairs queued give one word more per merge. -/
theorem merge_length {r : Nat} {nodes : List Word} {q : List (Nat × Nat)} (hq : 1 ≤ q.length) (hr : q.length ≤ r + 1) :
    (merge r nodes q).length = nodes.length + (q.length - 1) := by
  induction r generalizing nodes q with
  | zero => simp only [merge]; omega
  | succ r ih =>
    obtain ⟨x, q1, h1⟩ := pop_isSome hq
    have l1 := pop_length h1
    simp only [merge, h1]
    cases h2 : pop q1 with
    | none =>
      cases q1 with
      | nil => simp at l1; simp only; omega
      | cons _ _ => cases h2
    | some p =>
      obtain ⟨y, q2⟩ := p
      have l2 := pop_length h2
      simp only
      rw [ih (by simp) (by simp only [List.length_cons]; omega)]
      simp only [List.length_append, List.length_cons, List.length_nil]
      omega

/-- The values of the leaves below a node, in walk order. -/
def leafValues (m : Memory) (n i : NodeIdx) (shape : Shape) : List Byte := shape.leafPaths.map (leafValue m n i)

/-- The number of leaves of a shape. -/
def Shape.leaves (shape : Shape) : Nat := shape.leafPaths.length

theorem leafValues_both {m : Memory} {n i a b : NodeIdx} {l r : Shape} (hl : nodeHasLeft (nodeWord m i) = true)
    (hr : nodeHasRight (nodeWord m i) = true) (ha : nodeLeft (nodeWord m i) = a) (hb : nodeRight (nodeWord m i) = b)
    (hla : a.toNat < n.toNat) (hlb : b.toNat < n.toNat) :
    leafValues m n i (.both l r) = leafValues m n a l ++ leafValues m n b r := by
  subst ha hb
  simp only [leafValues, Shape.leafPaths, List.map_append, List.map_map]
  congr 1 <;> refine List.map_congr_left fun p _ => ?_
  · simp [leafValue, nodeAt, nodeHasChild, nodeChild, hl, hla]
  · simp [leafValue, nodeAt, nodeHasChild, nodeChild, hr, hlb]

/-- What the merge loop keeps of a queue: each pair is the root of a shape, the shapes have as many nodes as there are words, and their
leaves hold the values `vs`. -/
structure Forest (m : Memory) (n : NodeIdx) (count : Nat) (vs : List Byte) (q : List (Nat × Nat))
    (L : List ((Nat × Nat) × Shape)) : Prop where
  queue : (L.map (·.1)).Perm q
  rep : ∀ e ∈ L, e.1.2 < count ∧ e.2.Represents m n (BitVec.ofNat 9 e.1.2) ∧ e.2.depth + 1 ≤ e.2.leaves
  size : (L.map fun e => e.2.size).sum = count
  values : (L.flatMap fun e => leafValues m n (BitVec.ofNat 9 e.1.2) e.2).Perm vs

/-- Taking a pair out of the queue takes its shape out of the forest. -/
theorem take_pair {q q1 : List (Nat × Nat)} {L : List ((Nat × Nat) × Shape)} {x : Nat × Nat} (hq : q.Perm (x :: q1)) (hF : (L.map (·.1)).Perm q) :
    ∃ (shape : Shape) (L1 : List ((Nat × Nat) × Shape)), L.Perm ((x, shape) :: L1) ∧ (L1.map (·.1)).Perm q1 := by
  have hx : x ∈ L.map (·.1) := (hF.trans hq).mem_iff.mpr (by simp)
  obtain ⟨e, he, rfl⟩ := List.mem_map.mp hx
  have hp := List.perm_cons_erase he
  refine ⟨e.2, L.erase e, hp, ?_⟩
  have h := ((hp.map (·.1)).symm.trans hF).trans hq
  rw [List.map_cons] at h
  exact h.cons_inv

theorem merge_single (r : Nat) (nodes : List Word) (x : Nat × Nat) : merge r nodes [x] = nodes := by
  cases r with
  | zero => rfl
  | succ r =>
    simp only [merge, pop, smallest, List.foldl_nil, List.erase_cons_head]

/-- One merge of a forest: the pairs popped become the children of the new word. -/
theorem Forest.merge_step {m : Memory} {n : NodeIdx} {count : Nat} {vs : List Byte} {q q1 q2 : List (Nat × Nat)}
    {x y : Nat × Nat} {L : List ((Nat × Nat) × Shape)} (hF : Forest m n count vs q L) (hx : q.Perm (x :: q1))
    (hy : q1.Perm (y :: q2)) (hcount : count < n.toNat)
    (hw : nodeWord m (BitVec.ofNat 9 count) =
      nodeWordOf 0 (some (BitVec.ofNat 9 x.2)) (some (BitVec.ofNat 9 y.2)) &&& nodeMask) :
    ∃ L', Forest m n (count + 1) vs ((x.1 + y.1, count) :: q2) L' := by
  obtain ⟨l, L1, hL, hL1⟩ := take_pair hx hF.queue
  obtain ⟨r, L2, hL', hL2⟩ := take_pair hy hL1
  have hall : L.Perm ((x, l) :: (y, r) :: L2) := hL.trans (hL'.cons _)
  obtain ⟨hxl, hxr, hxd⟩ := hF.rep (x, l) (hall.mem_iff.mpr (by simp))
  obtain ⟨hyl, hyr, hyd⟩ := hF.rep (y, r) (hall.mem_iff.mpr (by simp))
  obtain ⟨b1, b2, b3, b4⟩ := nodeWordOf_both (BitVec.ofNat 9 x.2) (BitVec.ofNat 9 y.2)
  rw [← hw] at b1 b2 b3 b4
  have hxl' : x.2 < count := hxl
  have hyl' : y.2 < count := hyl
  have ex : (BitVec.ofNat 9 x.2).toNat < n.toNat := by
    rw [BitVec.toNat_ofNat]
    exact Nat.lt_of_le_of_lt (Nat.mod_le _ _) (by omega)
  have ey : (BitVec.ofNat 9 y.2).toNat < n.toNat := by
    rw [BitVec.toNat_ofNat]
    exact Nat.lt_of_le_of_lt (Nat.mod_le _ _) (by omega)
  refine ⟨((x.1 + y.1, count), .both l r) :: L2, ?_, ?_, ?_, ?_⟩
  · exact hL2.cons _
  · intro e he
    rcases List.mem_cons.mp he with rfl | he
    · refine ⟨Nat.lt_succ_self _, ⟨b1, b2, by rw [b3]; exact ex, by rw [b4]; exact ey, by rw [b3]; exact hxr,
        by rw [b4]; exact hyr⟩, ?_⟩
      simp only [Shape.leaves, Shape.leafPaths, Shape.depth, List.length_append, List.length_map] at hxd hyd ⊢
      omega
    · obtain ⟨h1, h2⟩ := hF.rep e (hall.mem_iff.mpr (by simp [he]))
      exact ⟨by omega, h2⟩
  · have := (hall.map fun e => e.2.size).sum_eq
    rw [hF.size] at this
    simp only [List.map_cons, List.sum_cons, Shape.size] at this ⊢
    omega
  · have := (hall.flatMap_right fun e => leafValues m n (BitVec.ofNat 9 e.1.2) e.2).symm.trans hF.values
    simp only [List.flatMap_cons] at this ⊢
    rw [leafValues_both b1 b2 b3 b4 ex ey, List.append_assoc]
    exact this

/-- The merge loop joins a forest into one shape below the last word. -/
theorem merge_shape {m : Memory} {n : NodeIdx} {r : Nat} {nodes : List Word} {q : List (Nat × Nat)}
    {L : List ((Nat × Nat) × Shape)} {vs : List Byte} (hF : Forest m n nodes.length vs q L) (hq : 1 ≤ q.length)
    (hr : q.length ≤ r + 1) (hlast : q.length = 1 → ∃ c, q = [(c, nodes.length - 1)])
    (hmax : (merge r nodes q).length ≤ 511) (hn : n.toNat = (merge r nodes q).length)
    (hm : ∀ i (h : i < (merge r nodes q).length), nodeWord m (BitVec.ofNat 9 i) = (merge r nodes q)[i] &&& nodeMask) :
    ∃ shape : Shape, shape.Represents m n (BitVec.ofNat 9 ((merge r nodes q).length - 1)) ∧
      shape.size = (merge r nodes q).length ∧ shape.depth + 1 ≤ shape.leaves ∧
      (leafValues m n (BitVec.ofNat 9 ((merge r nodes q).length - 1)) shape).Perm vs := by
  induction r generalizing nodes q L with
  | zero =>
    obtain ⟨c, rfl⟩ := hlast (by omega)
    exact one hF
  | succ r ih =>
    by_cases h1 : q.length = 1
    · obtain ⟨c, rfl⟩ := hlast h1
      rw [merge_single]
      exact one hF
    · obtain ⟨x, q1, hx⟩ := pop_isSome hq
      have lx := pop_length hx
      obtain ⟨y, q2, hy⟩ := pop_isSome (q := q1) (by omega)
      have ly := pop_length hy
      have e : merge (r + 1) nodes q =
          merge r (nodes ++ [nodeWordOf 0 (some (BitVec.ofNat 9 x.2)) (some (BitVec.ofNat 9 y.2))])
            ((x.1 + y.1, nodes.length) :: q2) := by
        simp only [merge, hx, hy]
      rw [e] at hmax hn ⊢
      simp only [e] at hm
      obtain ⟨more, hmore⟩ := merge_append r
        (nodes ++ [nodeWordOf 0 (some (BitVec.ofNat 9 x.2)) (some (BitVec.ofNat 9 y.2))])
        ((x.1 + y.1, nodes.length) :: q2)
      have hlt : nodes.length < (merge r
          (nodes ++ [nodeWordOf 0 (some (BitVec.ofNat 9 x.2)) (some (BitVec.ofNat 9 y.2))])
          ((x.1 + y.1, nodes.length) :: q2)).length := by
        rw [hmore]
        simp only [List.length_append, List.length_cons, List.length_nil]
        omega
      have hw := hm nodes.length hlt
      have hget : (merge r (nodes ++ [nodeWordOf 0 (some (BitVec.ofNat 9 x.2)) (some (BitVec.ofNat 9 y.2))])
          ((x.1 + y.1, nodes.length) :: q2))[nodes.length] =
          nodeWordOf 0 (some (BitVec.ofNat 9 x.2)) (some (BitVec.ofNat 9 y.2)) := by
        simp only [hmore, List.append_assoc]
        rw [List.getElem_append_right (Nat.le_refl _)]
        simp
      rw [hget] at hw
      obtain ⟨L', hF'⟩ := hF.merge_step (pop_perm hx) (pop_perm hy) (by omega) hw
      refine ih (L := L') (by simpa using hF') (by simp) (by simp only [List.length_cons]; omega) ?_ hmax hn hm
      intro hl
      have : q2 = [] := by simpa using hl
      subst this
      exact ⟨x.1 + y.1, by simp⟩
where
  one {c : Nat} {nodes : List Word} {L : List ((Nat × Nat) × Shape)}
      (hF : Forest m n nodes.length vs [(c, nodes.length - 1)] L) :
      ∃ shape : Shape, shape.Represents m n (BitVec.ofNat 9 (nodes.length - 1)) ∧ shape.size = nodes.length ∧
        shape.depth + 1 ≤ shape.leaves ∧ (leafValues m n (BitVec.ofNat 9 (nodes.length - 1)) shape).Perm vs := by
    obtain ⟨shape, L1, hL, hL1⟩ := take_pair (List.Perm.refl _) hF.queue
    have : L1 = [] := by simpa using hL1.length_eq
    subst this
    obtain ⟨_, h2, h3⟩ := hF.rep ((c, nodes.length - 1), shape) (hL.mem_iff.mpr (by simp))
    refine ⟨shape, h2, ?_, h3, ?_⟩
    · have := (hL.map fun e => e.2.size).sum_eq
      rw [hF.size] at this
      simpa using this.symm
    · have := (hL.flatMap_right fun e => leafValues m n (BitVec.ofNat 9 e.1.2) e.2).symm.trans hF.values
      simpa using this

/-! ### The tree builder's words -/

theorem present_length (bs : List Byte) : (present bs).length ≤ 256 := by
  unfold present
  exact Nat.le_trans (List.length_filter_le _ _) (by simp)

theorem mem_present {bs : List Byte} {b : Byte} : b ∈ present bs ↔ b ∈ bs := by
  unfold present
  rw [List.mem_filter, decide_eq_true_iff, List.count_pos_iff]
  exact ⟨fun h => h.2, fun h => ⟨List.mem_map.mpr ⟨b.toNat, List.mem_range.mpr b.isLt, by simp⟩, h⟩⟩

theorem present_eq_nil {bs : List Byte} : present bs = [] ↔ bs = [] := by
  constructor
  · intro h
    cases bs with
    | nil => rfl
    | cons b bs =>
      have := mem_present.mpr (List.mem_cons_self (a := b) (l := bs))
      rw [h] at this
      cases this
  · rintro rfl
    exact List.eq_nil_iff_forall_not_mem.mpr fun b hb => by simpa using mem_present.mp hb

/-- NCOUNT of a host tree: 1 for no byte, 2 for one distinct byte, 2k - 1 for k (R191, R193, R194). -/
theorem treeWords_length (bs : List Byte) :
    (treeWords bs).length = if (present bs).length ≤ 1 then (present bs).length + 1 else 2 * (present bs).length - 1 := by
  unfold treeWords
  split
  · next h => simp [h]
  · next h => simp [h]
  · next v w vs h =>
    rw [h, merge_length (by simp) (by simp)]
    simp only [List.length_map, List.length_zipIdx, List.length_cons]
    split <;> omega

theorem treeWords_length_bounds (bs : List Byte) : 1 ≤ (treeWords bs).length ∧ (treeWords bs).length ≤ 511 := by
  have := present_length bs
  rw [treeWords_length]
  split <;> omega

/-- The leaves the builder starts from are a forest. -/
theorem leaves_forest {m : Memory} {n : NodeIdx} (counts : Byte → Nat) (leaves : List Byte)
    (hm : ∀ i (h : i < leaves.length), nodeWord m (BitVec.ofNat 9 i) = leaves[i].setWidth 32 &&& nodeMask) :
    Forest m n leaves.length leaves (leaves.zipIdx.map fun x => (counts x.1, x.2))
      (leaves.zipIdx.map fun x => ((counts x.1, x.2), .leaf)) := by
  have hw : ∀ x ∈ leaves.zipIdx, x.2 < leaves.length ∧ nodeWord m (BitVec.ofNat 9 x.2) = x.1.setWidth 32 &&& nodeMask := by
    intro x hx
    obtain ⟨h1, h2⟩ := List.mem_zipIdx' hx
    exact ⟨h1, by rw [hm _ h1, ← h2]⟩
  refine ⟨?_, ?_, ?_, ?_⟩
  · rw [List.map_map]
    exact List.Perm.refl _
  · intro e he
    obtain ⟨x, hx, rfl⟩ := List.mem_map.mp he
    obtain ⟨h1, h2⟩ := hw x hx
    refine ⟨h1, ?_, by simp [Shape.depth, Shape.leaves, Shape.leafPaths]⟩
    simp only [Shape.Represents, h2]
    exact (leafWord x.1).1
  · rw [List.map_map]
    simp [Function.comp_def, Shape.size]
  · rw [List.flatMap_map]
    refine List.Perm.of_eq ((List.flatMap_congr (g := fun x : Byte × Nat => [x.1]) fun x hx => ?_).trans ?_)
    · simp only [leafValues, Shape.leafPaths, List.map_cons, List.map_nil, leafValue, nodeAt, (hw x hx).2, (leafWord x.1).2]
    · rw [← List.map_eq_flatMap, List.zipIdx_map_fst]

/-- The words of a host tree are a shape of that many nodes, no deeper than R201 says, with one leaf per present byte (R191 to R194). -/
theorem treeWords_shape {bs : List Byte} {m : Memory} {n : NodeIdx} (hn : n.toNat = (treeWords bs).length)
    (hm : ∀ i (h : i < (treeWords bs).length), nodeWord m (BitVec.ofNat 9 i) = (treeWords bs)[i] &&& nodeMask) :
    ∃ shape : Shape, shape.Represents m n (BitVec.ofNat 9 ((treeWords bs).length - 1)) ∧
      shape.size = (treeWords bs).length ∧ shape.depth ≤ max 1 ((present bs).length - 1) ∧
      (leafValues m n (BitVec.ofNat 9 ((treeWords bs).length - 1)) shape).Perm
        (if bs = [] then [0] else present bs) := by
  rcases hp : present bs with _ | ⟨v, _ | ⟨w, vs⟩⟩
  · have hbs := present_eq_nil.mp hp
    have ht : treeWords bs = [0] := by unfold treeWords; rw [hp]
    have h0 : nodeWord m 0 = 0 := by simpa [ht] using hm 0 (by simp [ht])
    refine ⟨.leaf, ?_, by simp [ht, Shape.size], by simp [Shape.depth], ?_⟩
    · rw [ht]
      show nodeIsLeaf (nodeWord m 0) = true
      rw [h0]; decide
    · rw [ht, if_pos hbs]
      show [nodeValue (nodeWord m 0)].Perm [0]
      rw [h0]
      exact List.Perm.refl _
  · have hbs : bs ≠ [] := fun h => by rw [present_eq_nil.mpr h] at hp; cases hp
    have ht : treeWords bs = [v.setWidth 32, 0x20000000] := by unfold treeWords; rw [hp]
    have hn2 : n.toNat = 2 := by rw [hn, ht]; rfl
    have h0 : nodeWord m 0 = v.setWidth 32 &&& nodeMask := by simpa [ht] using hm 0 (by simp [ht])
    have h1 : nodeWord m 1 = 0x20000000 &&& nodeMask := by simpa [ht] using hm 1 (by simp [ht])
    have c : nodeRight (nodeWord m 1) = 0 := by rw [h1]; decide
    have r : nodeHasRight (nodeWord m 1) = true := by rw [h1]; decide
    have l : nodeHasLeft (nodeWord m 1) = false := by rw [h1]; decide
    refine ⟨.right .leaf, ?_, by simp [ht, Shape.size], by simp [Shape.depth], ?_⟩
    · simp only [ht, List.length_cons, List.length_nil, Shape.Represents]
      refine ⟨l, r, ?_, ?_⟩
      · show (nodeRight (nodeWord m 1)).toNat < _
        rw [c, hn2]; decide
      · show nodeIsLeaf (nodeWord m (nodeRight (nodeWord m 1))) = true
        rw [c, h0]
        exact (leafWord v).1
    · simp only [ht, List.length_cons, List.length_nil, if_neg hbs]
      have : leafValues m n 1 (.right .leaf) = [v] := by
        simp only [leafValues, Shape.leafPaths, List.map_cons, List.map_nil, leafValue, nodeAt, nodeHasChild, nodeChild, r, c,
          hn2, if_true]
        simp only [BitVec.ofNat_eq_ofNat, BitVec.toNat_ofNat, Nat.zero_mod, Nat.zero_lt_succ, and_self, if_true]
        rw [show (0#9 : NodeIdx) = 0 from rfl, h0, (leafWord v).2]
      show (leafValues m n 1 (.right .leaf)).Perm [v]
      rw [this]
  · have hbs : bs ≠ [] := fun h => by rw [present_eq_nil.mpr h] at hp; cases hp
    have ht : treeWords bs = merge (v :: w :: vs).length ((v :: w :: vs).map fun b => b.setWidth 32)
        ((v :: w :: vs).zipIdx.map fun x => (bs.count x.1, x.2)) := by unfold treeWords; rw [hp]
    have hmax := (treeWords_length_bounds bs).2
    have hlen := treeWords_length bs
    rw [hp] at hlen
    obtain ⟨more, hmore⟩ := merge_append (v :: w :: vs).length ((v :: w :: vs).map fun b => b.setWidth 32)
      ((v :: w :: vs).zipIdx.map fun x => (bs.count x.1, x.2))
    have hF : Forest m n (v :: w :: vs).length (v :: w :: vs)
        ((v :: w :: vs).zipIdx.map fun x => (bs.count x.1, x.2))
        ((v :: w :: vs).zipIdx.map fun x => ((bs.count x.1, x.2), .leaf)) := by
      refine leaves_forest (fun b => bs.count b) (v :: w :: vs) fun i h => ?_
      have hi : i < (treeWords bs).length := by
        rw [ht, hmore, List.length_append, List.length_map]; omega
      rw [hm i hi]
      congr 1
      simp only [ht, hmore]
      rw [List.getElem_append_left (by simpa using h), List.getElem_map]
    rw [ht] at hmax hn
    simp only [ht] at hm
    obtain ⟨shape, h1, h2, h3, h4⟩ := merge_shape (nodes := (v :: w :: vs).map fun b => b.setWidth 32) (vs := v :: w :: vs)
      (by simpa only [List.length_map] using hF) (by simp) (by simp)
      (fun h => by simp at h) hmax hn hm
    rw [← ht] at h1 h2 h4
    refine ⟨shape, h1, h2, ?_, by rw [if_neg hbs]; exact h4⟩
    have := h4.length_eq
    simp only [leafValues, List.length_map] at this
    simp only [Shape.leaves, this] at h3
    omega

end Sys2Proof.Machine
end

