-- ==== Sys2Proof/Laws/PerInstr.lean ====
section
/-! SUPPORT. Statements made per instruction, about the instruction as syntax: the two fields of its word (30_encoding.md R80, R84). -/

namespace Sys2Proof.Laws.EncodeFields

/-- Bits 31:24 of an instruction's word are its opcode, bits 23:0 its operand field, and that field fits the instruction's format (R80,
R84). -/
def Statement (i : Instr) : Prop :=
  opField (encode i) = i.opcode ∧ operandBits (encode i) = i.operandField ∧ i.wellFormed = true

/-- The statement of any instruction, from the laws of the two fields. -/
theorem statement_of (i : Instr) : Statement i :=
  ⟨opField_encode i, operandBits_encode i, i.wellFormed_of_byte⟩

theorem nop : Statement .nop := statement_of _

theorem sreset : Statement .sreset := statement_of _

theorem clrf : Statement .clrf := statement_of _

theorem encb (b : Byte) : Statement (.encb b) := statement_of _

theorem dstep : Statement .dstep := statement_of _

theorem decb : Statement .decb := statement_of _

theorem buildtab : Statement .buildtab := statement_of _

end Sys2Proof.Laws.EncodeFields
end

