-- ==== Sys2Proof/Tests/Slice0.lean ====
section
/-! SUPPORT. The model's own tests. Expected values come from 95_test_vectors.md (the vector's name stands with each test) or are
written out from the encoding rules. The `test_witness_…` theorems show, for each statement with hypotheses, a state and operands that
meet them, clause by clause. -/

namespace Sys2Proof.Tests
open Sys2Proof.Machine HostProgram HostReference

/-! ### Helpers -/

/-- A value of the next state. -/
def after {α : Type} (o : Host.Outcome State Fault Refusal) (f : State → α) : Option α :=
  match o with
  | .next t => some (f t)
  | .fault _ => none
  | .refused _ => none

/-- A RAM of words from offset `base` on. -/
def wordsAt (base : Nat) (ws : List Word) : Memory :=
  ws.zipIdx.foldl (fun m x => Memory.writeWord m (base + 4 * x.2) x.1) []

/-- A state with a tree, a first bit word and BITLEN, the walk at the root. -/
def start (tree : List Word) (w0 bitlen : Word) : State :=
  { State.reset with
    cap := 64
    ncount := BitVec.ofNat 9 tree.length
    dpos := BitVec.ofNat 9 (tree.length - 1)
    bitlen := bitlen
    tree := wordsAt 0x1000 tree
    bits := wordsAt 0x8000 [w0] }

/-- A code RAM with 'a' = "1" and 'b' = "0" (V-H3), HDR and W1 of each as host writes give them. -/
def codesAB : Memory :=
  Memory.writeWord (Memory.writeWord (Memory.writeWord [] 0x5840 0x80000001) 0x5844 0x80000000) 0x5880 0x80000001

/-- The V-H3 tree with its table. -/
def stateAB (w0 bitlen : Word) : State := { start [0x61, 0x62, 0x20020100] w0 bitlen with code := codesAB }

/-- The V-H6 tree, "abracadabra". -/
def treeH6 : List Word := [0x61, 0x62, 0x63, 0x64, 0x72, 0x20320200, 0x20420100, 0x20620500, 0x20720000]

/-- V-H7 with NODE[4]'s left child out of range (vector D9). -/
def treeD9 : List Word := [0x61, 0x62, 0x63, 0x64, 0x20120700, 0x20320200, 0x20520400]

/-- A state with a RANGE fault of NCOUNT recorded. -/
def faulted (s : State) : State := { s with fault := true, fcode := 3, finfo := 0x10 }

/-- A tree whose root, of 1 or more nodes, is its own left child. -/
def selfLoop (n : NodeIdx) : State :=
  { State.reset with
    ncount := n
    dpos := n - 1
    tree := Memory.writeWord [] (nodeAddr (n - 1)) (((n - 1).setWidth 32 <<< 8) ||| (1 <<< 17)) }

/-! ### Well-formedness: each check refuses an ill-formed operand field (R80) -/

theorem test_smoke_c0_low_byte : Format.c0.accepts 0x000001 = false := by decide
theorem test_smoke_c0_high_bits : Format.c0.accepts 0x800000 = false := by decide
theorem test_smoke_cb_bit_8 : Format.cb.accepts 0x000161 = false := by decide
theorem test_smoke_cb_bit_23 : Format.cb.accepts 0x800061 = false := by decide
theorem test_smoke_accepts : Format.c0.accepts 0 = true ∧ Format.cb.accepts 0x0000FF = true := by decide

/-! ### Decoding: words written out from the opcode map (R84); rejects by name (K5 to K8) -/

theorem test_decode_nop : decode 0b00000000_0000000000000000_00000000 = .ok .nop := by decide
theorem test_decode_sreset : decode 0b00000001_0000000000000000_00000000 = .ok .sreset := by decide
theorem test_decode_clrf : decode 0b00000010_0000000000000000_00000000 = .ok .clrf := by decide
theorem test_decode_encb : decode 0b00010000_0000000000000000_01100001 = .ok (.encb 0x61) := by decide
theorem test_decode_dstep : decode 0b00100000_0000000000000000_00000000 = .ok .dstep := by decide
theorem test_decode_decb : decode 0b00100001_0000000000000000_00000000 = .ok .decb := by decide
theorem test_decode_buildtab : decode 0b00110000_0000000000000000_00000000 = .ok .buildtab := by decide
theorem test_decode_unlisted : decode 0x40000000 = .error (.unlistedOpcode 0x40) := by decide
theorem test_decode_encb_bit_8 : decode 0x10000161 = .error (.mustBeZero 0x10 0x000161) := by decide
theorem test_decode_nop_bit_0 : decode 0x00000001 = .error (.mustBeZero 0x00 0x000001) := by decide
theorem test_decode_decb_bit_23 : decode 0x21800000 = .error (.mustBeZero 0x21 0x800000) := by decide
theorem test_table_word : decodeTableWord 32 0x10000061 = some (.encb 0x61) ∧ decodeTableWord 32 0x40000000 = none := by
  decide

/-! ### One step from reset runs the command given -/

theorem test_fetch_runs_buildtab :
    after (step (State.reset.withFetchWord 32 0x30000000)) (fun t => (t.fault, codeValid t.code 0, t.port)) =
      some (false, true, []) := by decide

theorem test_step_runs_oldest :
    after (step { State.reset with port := [.write 0x0010 .word 3, .resetInput] }) (fun t => (t.ncount, t.port)) =
      some (3, [.resetInput]) := by decide

/-! ### Host accesses (A1 to A29) -/

theorem test_read_id : after (perform (.read 0x0000 .word) State.reset) (·.replies) = some [0x48434331] := by decide
theorem test_read_status : after (perform (.read 0x0008 .word) State.reset) (·.replies) = some [0x00000008] := by decide
/-- A7. -/
theorem test_write_ncount_zero :
    after (perform (.write 0x0010 .word 0) (start [0x61, 0x62, 0x20020100] 0 0)) (fun t => (t.ncount, t.finfo, t.status)) =
      some (3, 0x10, 0x00000309) := by decide
/-- A9. -/
theorem test_write_ncount_511 :
    after (perform (.write 0x0010 .word 511) State.reset) (fun t => (t.ncount, t.dpos)) = some (511, 510) := by decide
/-- A14. -/
theorem test_write_status : after (perform (.write 0x0008 .word 0) State.reset) (·.finfo) = some 0x00050008 := by decide
/-- A16. -/
theorem test_write_node :
    after (perform (.write 0x1004 .word 0xFFFFFFFF) State.reset) (fun t => nodeWord t.tree 1) = some 0x3FF3FFFF := by decide
/-- A17. -/
theorem test_write_header :
    after (perform (.write 0x4140 .word 0xFFFFFFFF) State.reset) (fun t => readCodeWord t 5 0) = some 0x800000FF := by decide
/-- A18. -/
theorem test_write_w8 :
    after (perform (.write 0x4160 .word 0xFFFFFFFF) State.reset) (fun t => readCodeWord t 5 8) = some 0xFFFFFFFE := by decide
/-- A20. -/
theorem test_write_last_bit_word :
    after (perform (.write 0xFFFC .word 0xDEADBEEF) State.reset) (fun t => Memory.readWord t.bits 0xFFFC) =
      some 0xDEADBEEF := by decide
/-- A23: word 9 of a code entry is unmapped. -/
theorem test_read_unmapped :
    after (perform (.read 0x4024 .word) State.reset) (fun t => (t.replies, t.finfo)) = some ([0], 0x00044024) := by decide
/-- A26. -/
theorem test_write_byte :
    after (perform (.write 0x0010 .byte 3) State.reset) (fun t => (t.ncount, t.finfo)) = some (1, 0x00010010) := by decide
/-- A27: BITCAP = 32. -/
theorem test_read_above_bitcap :
    after (perform (.read 0x8004 .word) { State.reset with cap := 32 }) (fun t => (t.replies, t.finfo)) =
      some ([0], 0x00048004) := by decide

/-! ### Commands -/

/-- K1. -/
theorem test_nop : after (exec .nop (faulted State.reset)) id = some (faulted State.reset) := by decide
/-- K2. -/
theorem test_sreset : after (exec .sreset (faulted (start treeH6 0x6E8ADC00 23))) id = some { State.reset with cap := 64 } := by
  decide
/-- K3. -/
theorem test_clrf : after (exec .clrf (faulted (stateAB 0 0))) id = some (stateAB 0 0) := by decide
/-- N1, on a RAM of 64 bits. -/
theorem test_encb :
    after (exec (.encb 0x62) (stateAB 0xF0000000 4)) (fun t => (t.bitlen, Memory.readWord t.bits 0x8000)) =
      some (5, 0xF0000000) := by decide
/-- N8: only the bit at BITLEN is written. -/
theorem test_encb_writes_one_bit :
    after (exec (.encb 0x62) (stateAB 0xFFFFFFFF 0)) (fun t => (t.bitlen, Memory.readWord t.bits 0x8000)) =
      some (1, 0x7FFFFFFF) := by decide
/-- D1. -/
theorem test_dstep :
    after (exec .dstep { stateAB 0xF0000000 5 with rdptr := 4 }) (fun t => (t.rdptr, t.dpos, t.dout, t.dvalid, t.dempty)) =
      some (5, 2, 0x62, true, false) := by decide
/-- The V-H6 DSTEP trace, step 2: a move. -/
theorem test_dstep_moves :
    after (exec .dstep { start treeH6 0x6E8ADC00 23 with rdptr := 1 }) (fun t => (t.rdptr, t.dpos, t.status)) =
      some (2, 7, 0x00000000) := by decide
/-- The V-H6 DECB trace, row 2: the code "110" from bit 1 on. -/
theorem test_decb :
    after (exec .decb { start treeH6 0x6E8ADC00 23 with rdptr := 1 }) (fun t => (t.rdptr, t.dpos, t.dout, t.status)) =
      some (4, 8, 0x62, 0x0000000A) := by decide
/-- D9: the rollback. -/
theorem test_decb_rolls_back :
    after (exec .decb (start treeD9 0 2)) (fun t => (t.rdptr, t.dpos, t.finfo, t.status)) =
      some (0, 6, 0x00070004, 0x00000709) := by decide
/-- T7: two leaves with one value: the right leaf, written last, wins. -/
theorem test_buildtab_last_wins :
    after (exec .buildtab (start [0x41, 0x41, 0x20120000] 0 0))
      (fun t => (readCodeWord t 0x41 0, readCodeWord t 0x41 1, t.fault)) = some (0x80000001, 0x80000000, false) := by
  decide +kernel
/-- T4. -/
theorem test_buildtab_bad_index :
    after (exec .buildtab (start [0x41, 0x20520000] 0 0)) (fun t => (t.finfo, t.status)) =
      some (0x00051001, 0x00000709) := by decide

/-! ### The host reference (V-H3) -/

theorem test_merge_aaaab : merge 2 [0x61, 0x62] [(4, 0), (1, 1)] = [0x61, 0x62, 0x20020100] := by decide
theorem test_merge_abracadabra :
    merge 5 [0x61, 0x62, 0x63, 0x64, 0x72] [(5, 0), (2, 1), (1, 2), (1, 3), (2, 4)] = treeH6 := by decide +kernel
/-- V-H6: ties go to the smaller index. -/
theorem test_pop_tie : pop [(2, 5), (5, 0), (2, 1), (2, 4)] = some ((2, 1), [(2, 5), (5, 0), (2, 4)]) := by decide

/-! ### Witnesses: encodings and steps -/

theorem test_witness_DecodeEncodeAgree : decode 0x100000FF = .ok (.encb 0xFF) := by decide

/-- The first word above the opcode map, one must-be-0 bit of each format, and the only NOP. -/
theorem test_witness_IllegalWordsFault :
    (∀ w ∈ ([0x03000000, 0x10000100, 0x00000001, 0xFFFFFFFF] : List Word),
      w ≠ 0x00000000 ∧ w ≠ 0x01000000 ∧ w ≠ 0x02000000 ∧ w ≠ 0x20000000 ∧ w ≠ 0x21000000 ∧ w ≠ 0x30000000 ∧
        w &&& 0xFFFFFF00 ≠ 0x10000000) ∧ decode 0 = .ok .nop := by
  refine ⟨?_, by decide⟩
  simp

theorem test_witness_StepPerformsOldestRequest :
    (∃ (s : State) (q : Request) (rest : List Request), s.port = q :: rest) ∧ ∃ s : State, s.port = [] :=
  ⟨⟨{ State.reset with port := [.read 0 .word] }, _, _, rfl⟩, State.reset, rfl⟩

theorem test_witness_StepRunsDecodedCommand :
    ∃ (s : State) (rest : List Request),
      s.port = .write 0x000C .word 0x10000061 :: rest ∧ decode 0x10000061 = .ok (.encb 0x61) :=
  ⟨{ State.reset with port := [.write 0x000C .word 0x10000061, .resetInput] }, _, rfl, by decide⟩

theorem test_witness_CapIsConstant : ∃ s t : State, step s = .next t :=
  ⟨{ State.reset with port := [.write 0x0004 .word 32] }, _, rfl⟩

/-- A full bit RAM of 64 bits, read to its end, with a tree, a table and a command pending. -/
theorem test_witness_StepKeepsInv : ∃ s t : State, s.Inv ∧ step s = .next t :=
  ⟨{ stateAB 0xF0000000 64 with rdptr := 64, port := [.write 0x000C .word 0x30000000] }, _,
    { cap_legal := by decide
      ncount_pos := by decide
      dpos_lt := by decide
      bitlen_le := by decide
      rdptr_le := by decide
      record_ok := ⟨fun _ => by decide, fun h => absurd h (by decide)⟩
      tree_wf := by decide +kernel
      code_wf := by decide +kernel
      bits_wf := by decide +kernel
      tree_within := by unfold Memory.within; decide +kernel
      code_within := by unfold Memory.within; decide +kernel
      bits_within := by unfold Memory.within; decide +kernel
      node_reserved := by decide +kernel
      header_reserved := by decide +kernel
      w8_reserved := by decide +kernel }, rfl⟩

/-! ### Witnesses: control and encoder -/

theorem test_witness_ClrfClearsTheRecord : ∃ s : State, s.recordOk ∧ s.fault = false :=
  ⟨State.reset, ⟨fun _ => by decide, fun h => absurd h (by decide)⟩, rfl⟩

theorem test_witness_CommandsDroppedWhileFaulted : (faulted State.reset).fault = true := rfl

/-- Each clause: no entry; one bit too many; exactly full. -/
theorem test_witness_EncbAppendsTheCode :
    (stateAB 0 64).fault = false ∧ codeValid (stateAB 0 64).code 0x7A = false ∧
    (codeValid (stateAB 0 64).code 0x61 = true ∧
      (stateAB 0 64).cap.toNat < (stateAB 0 64).bitlen.toNat + (codeLen (stateAB 0 64).code 0x61).toNat) ∧
    (codeValid (stateAB 0 63).code 0x61 = true ∧
      (stateAB 0 63).bitlen.toNat + (codeLen (stateAB 0 63).code 0x61).toNat ≤ (stateAB 0 63).cap.toNat) := by
  decide +kernel

/-- The first byte after the one word written. -/
theorem test_witness_EncbFrame :
    ∃ (t : State) (a : Nat), exec (.encb 0x62) (stateAB 0xF0000000 4) = .next t ∧
      ∀ j < (codeLen (stateAB 0xF0000000 4).code 0x62).toNat,
        a < bitWordAddr (((stateAB 0xF0000000 4).bitlen.toNat + j) / 32) ∨
          bitWordAddr (((stateAB 0xF0000000 4).bitlen.toNat + j) / 32) + 4 ≤ a :=
  ⟨_, 0x8004, rfl, by decide +kernel⟩

/-- Code bits at and above LEN differ. -/
theorem test_witness_EncbReadsOnlyItsEntry :
    ∃ (s t : State) (code' : Memory), codeValid code' 0x61 = codeValid s.code 0x61 ∧
      codePath code' 0x61 = codePath s.code 0x61 ∧ exec (.encb 0x61) s = .next t :=
  ⟨stateAB 0 0, _, Memory.writeWord codesAB 0x5844 0xFFFFFFFF, by decide +kernel, by decide +kernel, rfl⟩

theorem test_witness_EncbRunAppends :
    (∃ t : State, (stateAB 0 0).fault = false ∧ execAll ([0x61, 0x62].map Instr.encb) (stateAB 0 0) = .next t ∧
      t.fault = false) ∧
    ([0x61, 0x62] : List Byte).Perm [0x62, 0x61] ∧
    ((∀ b ∈ ([0x61, 0x62] : List Byte), codeValid (stateAB 0 62).code b = true) ∧
      (stateAB 0 62).bitlen.toNat + (([0x61, 0x62] : List Byte).map fun b => (codeLen (stateAB 0 62).code b).toNat).sum ≤
        (stateAB 0 62).cap.toNat) :=
  ⟨⟨_, rfl, rfl, by decide +kernel⟩, by decide, by decide +kernel, by decide +kernel⟩

theorem test_witness_EncbRunOverflows :
    (stateAB 0 63).fault = false ∧ (∀ c ∈ ([0x61] : List Byte), codeValid (stateAB 0 63).code c = true) ∧
    codeValid (stateAB 0 63).code 0x62 = true ∧
    (stateAB 0 63).bitlen.toNat + (([0x61] : List Byte).map fun c => (codeLen (stateAB 0 63).code c).toNat).sum ≤
      (stateAB 0 63).cap.toNat ∧
    (stateAB 0 63).cap.toNat <
      (stateAB 0 63).bitlen.toNat + (([0x61] : List Byte).map fun c => (codeLen (stateAB 0 63).code c).toNat).sum +
        (codeLen (stateAB 0 63).code 0x62).toNat := by
  decide +kernel

/-! ### Witnesses: decoder -/

/-- The five cases: at BITLEN; D3; a child index equal to NCOUNT; a move; D1. -/
theorem test_witness_DstepDecodesOneBit :
    (∃ s : State, s.fault = false ∧ s.bitlen.toNat ≤ s.rdptr.toNat) ∧
    (∃ s : State, s.fault = false ∧ s.rdptr.toNat < s.bitlen.toNat ∧
      nodeHasChild (nodeWord s.tree s.dpos) (readBit s.bits s.rdptr.toNat) = false) ∧
    (∃ s : State, s.fault = false ∧ s.rdptr.toNat < s.bitlen.toNat ∧
      nodeHasChild (nodeWord s.tree s.dpos) (readBit s.bits s.rdptr.toNat) = true ∧
      s.ncount.toNat ≤ (nodeChild (nodeWord s.tree s.dpos) (readBit s.bits s.rdptr.toNat)).toNat) ∧
    (∃ s : State, s.fault = false ∧ s.rdptr.toNat < s.bitlen.toNat ∧
      nodeHasChild (nodeWord s.tree s.dpos) (readBit s.bits s.rdptr.toNat) = true ∧
      (nodeChild (nodeWord s.tree s.dpos) (readBit s.bits s.rdptr.toNat)).toNat < s.ncount.toNat ∧
      nodeIsLeaf (nodeWord s.tree (nodeChild (nodeWord s.tree s.dpos) (readBit s.bits s.rdptr.toNat))) = false) ∧
    (∃ s : State, s.fault = false ∧ s.rdptr.toNat < s.bitlen.toNat ∧
      nodeHasChild (nodeWord s.tree s.dpos) (readBit s.bits s.rdptr.toNat) = true ∧
      (nodeChild (nodeWord s.tree s.dpos) (readBit s.bits s.rdptr.toNat)).toNat < s.ncount.toNat ∧
      nodeIsLeaf (nodeWord s.tree (nodeChild (nodeWord s.tree s.dpos) (readBit s.bits s.rdptr.toNat))) = true) :=
  ⟨⟨{ stateAB 0xF0000000 5 with rdptr := 5 }, by decide +kernel⟩, ⟨start [0x41, 0x20000000] 0 1, by decide +kernel⟩,
    ⟨start [0x41, 0x00020200] 0 1, by decide +kernel⟩, ⟨{ start treeH6 0x6E8ADC00 23 with rdptr := 1 }, by decide +kernel⟩,
    ⟨{ stateAB 0xF0000000 5 with rdptr := 4 }, by decide +kernel⟩⟩

/-- The code "110" of 'b', and the last code of the sequence, which ends at BITLEN. -/
theorem test_witness_DecbEmitsTheByte :
    (∃ s : State, s.fault = false ∧ s.rdptr.toNat + 3 ≤ s.bitlen.toNat ∧ s.bitsFrom s.rdptr.toNat 3 = [true, true, false] ∧
      nodeAt s.tree s.ncount s.dpos [true, true, false] = some 1 ∧ nodeIsLeaf (nodeWord s.tree 1) = true) ∧
    (∃ s : State, s.fault = false ∧ s.rdptr.toNat + 1 = s.bitlen.toNat ∧ s.bitsFrom s.rdptr.toNat 1 = [false] ∧
      nodeAt s.tree s.ncount s.dpos [false] = some 0 ∧ nodeIsLeaf (nodeWord s.tree 0) = true) :=
  ⟨⟨{ start treeH6 0x6E8ADC00 23 with rdptr := 1 }, by decide +kernel⟩,
    ⟨{ start treeH6 0x6E8ADC00 23 with rdptr := 22 }, by decide +kernel⟩⟩

/-- D2: the bits run out mid-code; D8: RDPTR above BITLEN, an empty path. -/
theorem test_witness_DecbRunsOutOfBits :
    (∃ s : State, s.fault = false ∧
      [true, true] = s.bitsFrom s.rdptr.toNat (s.bitlen.toNat - s.rdptr.toNat) ∧
      nodeAt s.tree s.ncount s.dpos [true, true] = some 6 ∧ nodeIsLeaf (nodeWord s.tree 6) = false) ∧
    (∃ s : State, s.fault = false ∧ [] = s.bitsFrom s.rdptr.toNat (s.bitlen.toNat - s.rdptr.toNat) ∧
      nodeAt s.tree s.ncount s.dpos [] = some 1) :=
  ⟨⟨start treeH6 0xC0000000 2, by decide +kernel⟩,
    ⟨{ start [0x41, 0x20000000] 0 1 with rdptr := 5 }, by decide +kernel⟩⟩

/-- D3: NO_CHILD at the first bit; D9: BAD_INDEX, child index equal to NCOUNT, at the second. -/
theorem test_witness_DecbFaultsAtTheFirstBadBit :
    (∃ s : State, s.fault = false ∧ s.rdptr.toNat + 0 < s.bitlen.toNat ∧ s.bitsFrom s.rdptr.toNat 0 = [] ∧
      nodeAt s.tree s.ncount s.dpos [] = some 1 ∧
      nodeHasChild (nodeWord s.tree 1) (readBit s.bits (s.rdptr.toNat + 0)) = false) ∧
    (∃ s : State, s.fault = false ∧ s.rdptr.toNat + 1 < s.bitlen.toNat ∧ s.bitsFrom s.rdptr.toNat 1 = [false] ∧
      nodeAt s.tree s.ncount s.dpos [false] = some 4 ∧ nodeIsLeaf (nodeWord s.tree 4) = false ∧
      nodeHasChild (nodeWord s.tree 4) (readBit s.bits (s.rdptr.toNat + 1)) = true ∧
      s.ncount.toNat ≤ (nodeChild (nodeWord s.tree 4) (readBit s.bits (s.rdptr.toNat + 1))).toNat) :=
  ⟨⟨start [0x41, 0x20000000] 0 1, by decide +kernel⟩, ⟨start treeD9 0 2, by decide +kernel⟩⟩

/-- A byte, the bits run out, a fault after a move. -/
theorem test_witness_DecbEqualsDsteps :
    (∃ s t : State, s.fault = false ∧ exec .decb s = .next t ∧ t.fault = false ∧ t.dempty = false) ∧
    (∃ s t : State, s.fault = false ∧ exec .decb s = .next t ∧ t.fault = false ∧ t.dempty = true) ∧
    (∃ s t : State, s.fault = false ∧ exec .decb s = .next t ∧ t.fault = true) :=
  ⟨⟨{ start treeH6 0x6E8ADC00 23 with rdptr := 1 }, _, rfl, rfl, by decide +kernel, by decide +kernel⟩,
    ⟨start treeH6 0xC0000000 2, _, rfl, rfl, by decide +kernel, by decide +kernel⟩,
    ⟨start treeD9 0 2, _, rfl, rfl, by decide +kernel⟩⟩

/-- "01" on the V-H3 tree is 'b', 'a'. -/
theorem test_witness_DecodeLoopMatchesStateMachine :
    ∃ s : State, s.fault = false ∧ s.rdptr = 0 ∧ s.dpos = s.root ∧ (∃ out t, decall 3 s = some (out, t)) ∧
      referenceDecode s.tree s.ncount s.root s.root (s.bitsFrom 0 s.bitlen.toNat) = some ([0x62, 0x61], 2) :=
  ⟨stateAB 0x40000000 2, rfl, rfl, by decide +kernel,
    (Option.isSome_iff_exists.mp (by decide +kernel : (decall 3 (stateAB 0x40000000 2)).isSome = true)).elim
      fun x h => ⟨x.1, x.2, h⟩, by decide +kernel⟩

theorem test_witness_DecodeFrame :
    (∃ s t : State, exec .decb s = .next t ∧ t.dvalid = false) ∧ ∃ s t : State, exec .dstep s = .next t ∧ t.fault = true :=
  ⟨⟨start treeH6 0xC0000000 2, _, rfl, by decide +kernel⟩, ⟨start [0x41, 0x20000000] 0 1, _, rfl, by decide +kernel⟩⟩

/-- NODE[3], bit 5 and the code RAM differ. -/
theorem test_witness_DecodeReadsOnlyTheEncodedValue :
    ∃ (s t : State) (tree' bits' : Memory), s.dpos.toNat < s.ncount.toNat ∧
      (∀ j : NodeIdx, j.toNat < s.ncount.toNat → nodeWord tree' j = nodeWord s.tree j) ∧
      (∀ p < s.bitlen.toNat, readBit bits' p = readBit s.bits p) ∧ exec .decb s = .next t :=
  ⟨stateAB 0xF0000000 5, _, wordsAt 0x1000 [0x61, 0x62, 0x20020100, 0x7F], wordsAt 0x8000 [0xF7FFFFFF],
    by decide +kernel, by decide +kernel, by decide +kernel, rfl⟩

/-! ### Witnesses: code-table builder and round trips -/

/-- The V-H3 tree: 3 nodes, NCOUNT = 3. -/
theorem test_witness_BuildtabRecordsLeafPaths :
    ∃ (s : State) (shape : Shape), s.fault = false ∧ shape.Represents s.tree s.ncount s.root ∧
      shape.size = s.ncount.toNat ∧ shape.depth ≤ 255 :=
  ⟨stateAB 0 0, .both .leaf .leaf, rfl,
    ⟨by decide +kernel, by decide +kernel, by decide +kernel, by decide +kernel,
      show nodeIsLeaf _ = true by decide +kernel, show nodeIsLeaf _ = true by decide +kernel⟩, rfl, by decide⟩

/-- With and without a fault (T2, T4). -/
theorem test_witness_Buildtab :
    (∃ s t : State, s.fault = false ∧ exec .buildtab s = .next t ∧ t.fault = false) ∧
    ∃ s t : State, s.fault = false ∧ exec .buildtab s = .next t ∧ t.fault ≠ s.fault :=
  ⟨⟨stateAB 0 0, _, rfl, rfl, by decide +kernel⟩, ⟨start [0x41, 0x20520000] 0 0, _, rfl, rfl, by decide +kernel⟩⟩

/-- A left child equal to NCOUNT; no left child and a right child equal to NCOUNT. -/
theorem test_witness_BuildtabBadRootChild :
    (∃ s : State, s.fault = false ∧ 1 ≤ s.ncount.toNat ∧ nodeHasLeft (nodeWord s.tree s.root) = true ∧
      s.ncount.toNat ≤ (nodeLeft (nodeWord s.tree s.root)).toNat) ∧
    (∃ s : State, s.fault = false ∧ 1 ≤ s.ncount.toNat ∧ nodeHasLeft (nodeWord s.tree s.root) = false ∧
      nodeHasRight (nodeWord s.tree s.root) = true ∧ s.ncount.toNat ≤ (nodeRight (nodeWord s.tree s.root)).toNat) :=
  ⟨⟨start [0x41, 0x00020200] 0 0, by decide +kernel⟩, ⟨start [0x41, 0x20200000] 0 0, by decide +kernel⟩⟩

/-- NCOUNT = 255 and NCOUNT = 256. -/
theorem test_witness_BuildtabSelfLoop :
    (∃ s : State, s.fault = false ∧ 1 ≤ s.ncount.toNat ∧ nodeHasLeft (nodeWord s.tree s.root) = true ∧
      nodeLeft (nodeWord s.tree s.root) = s.root ∧ s.ncount.toNat = 255) ∧
    (∃ s : State, s.fault = false ∧ 1 ≤ s.ncount.toNat ∧ nodeHasLeft (nodeWord s.tree s.root) = true ∧
      nodeLeft (nodeWord s.tree s.root) = s.root ∧ s.ncount.toNat = 256) :=
  ⟨⟨selfLoop 255, by decide +kernel⟩, ⟨selfLoop 256, by decide +kernel⟩⟩

theorem test_witness_BuildtabSmallTrees :
    (State.reset.fault = false ∧ State.reset.ncount = 1 ∧ nodeWord State.reset.tree 0 = 0) ∧
    ∃ s : State, s.fault = false ∧ s.ncount = 2 ∧ nodeWord s.tree 0 = (0x41 : Byte).setWidth 32 ∧
      nodeWord s.tree 1 = 0x20000000 :=
  ⟨by decide, start [0x41, 0x20000000] 0 0, by decide +kernel⟩

theorem test_witness_BuildtabIsPrefixFree :
    ∃ s t : State, s.fault = false ∧ exec .buildtab s = .next t ∧ t.fault = false ∧ codeValid t.code 0x61 = true ∧
      codePath t.code 0x61 <+: codePath t.code 0x61 :=
  ⟨stateAB 0 0, _, rfl, rfl, by decide +kernel, by decide +kernel, List.prefix_refl _⟩

/-- The code of 'a', "1", as the last bit of the sequence. -/
theorem test_witness_BuildtabAgreesWithDecoder :
    ∃ s t u : State, s.fault = false ∧ exec .buildtab s = .next t ∧ t.fault = false ∧ u.tree = t.tree ∧
      u.ncount = t.ncount ∧ codeValid t.code 0x61 = true ∧ (codeLen t.code 0x61).toNat = 1 ∧
      (∀ j < 1, readBit u.bits (63 + j) = codeBit t.code 0x61 j) ∧ 63 + 1 ≤ u.bitlen.toNat :=
  ⟨stateAB 0 0, buildTable (stateAB 0 0), { buildTable (stateAB 0 0) with bits := wordsAt 0x8000 [0, 1], bitlen := 64 },
    rfl, rfl, by decide +kernel, rfl, rfl, by decide +kernel, by decide +kernel, by decide +kernel, by decide +kernel⟩

/-- Two codes that fill the bit RAM exactly. -/
theorem test_witness_EncodeThenDecode :
    ∃ s t : State, s.fault = false ∧ exec .buildtab s = .next t ∧ t.fault = false ∧
      (∀ b ∈ ([0x61, 0x62] : List Byte), codeValid t.code b = true ∧ codeLen t.code b ≠ 0) ∧
      t.bitlen.toNat + (([0x61, 0x62] : List Byte).map fun b => (codeLen t.code b).toNat).sum = t.cap.toNat :=
  ⟨stateAB 0 62, buildTable (stateAB 0 62), rfl, rfl, by decide +kernel, by decide +kernel, by decide +kernel⟩

/-- No byte, one distinct byte, two: each clause of NCOUNT. -/
theorem test_witness_HostTreesBuildWithoutFault :
    State.reset.fault = false ∧ 0 = (present []).length ∧ 1 = (present [0x41]).length ∧
    2 = (present [0x62, 0x61, 0x61]).length := by
  decide +kernel

/-- A core of 32 bits: 32 bytes of one value fit, 33 do not. -/
theorem test_witness_HostEncodeCompletes :
    Config.BitcapLegal ({ State.reset with cap := 32 } : State).cap.toNat ∧
    hostEncode (List.replicate 32 0x41) { State.reset with cap := 32 } =
      some ⟨[0x41, 0x20000000], 32, [0xFFFFFFFF]⟩ ∧
    hostEncode (List.replicate 33 0x41) { State.reset with cap := 32 } = none := by
  decide +kernel

/-- V-H5 with one byte: the tree of two nodes and the sequence "1". -/
theorem test_witness_HostRoundTrip :
    Config.BitcapLegal State.reset.cap.toNat ∧ Config.BitcapLegal (start [] 0 0).cap.toNat ∧
    hostEncode [0x41] State.reset = some ⟨[0x41, 0x20000000], 1, [0x80000000]⟩ ∧ (start [] 0 0).fault = false ∧
    (1 : Word).toNat ≤ (start [] 0 0).cap.toNat := by
  decide +kernel

theorem test_witness_LoadtreeLoads :
    (∃ ws : List Word, 1 = ws.length ∧ ws.length ≤ 511) ∧ ∃ ws : List Word, 1 ≤ ws.length ∧ ws.length = 511 :=
  ⟨⟨[0], rfl, by decide⟩, ⟨List.replicate 511 0, by rw [List.length_replicate]; decide, List.length_replicate⟩⟩

/-! ### Witnesses: host accesses -/

/-- The edges of every region, for BITCAP = 32. -/
theorem test_witness_AccessAcceptance :
    Config.BitcapLegal 32 ∧
    (∀ off ∈ ([0x0028, 0x0FFC, 0x17FC, 0x3FFC, 0x4024, 0x7FFC, 0x8004, 0xFFFC] : List Offset),
      ¬ MappedOffset 32 off.toNat) ∧
    ¬ (0x0002 : Offset).toNat % 4 = 0 ∧ Size.byte ≠ .word ∧
    (∀ off ∈ ([0x0000, 0x0024, 0x1000, 0x17F8, 0x4000, 0x4020, 0x7FE0, 0x8000] : List Offset),
      off.toNat % 4 = 0 ∧ MappedOffset 32 off.toNat) := by
  refine ⟨by decide, ?_, by decide, by decide, ?_⟩ <;> simp [MappedOffset]

theorem test_witness_RamReads : Config.BitcapLegal 32 ∧ 510 < 511 ∧ (1 ≤ 8 ∧ 8 ≤ 8) ∧ 0 < 32 / 32 := by decide

theorem test_witness_RegisterWrites :
    ((0 : Word).toNat < 1 ∧ 511 < (512 : Word).toNat ∧ 1 ≤ (1 : Word).toNat ∧ (511 : Word).toNat ≤ 511) ∧
    (State.reset.cap.toNat < (262145 : Word).toNat ∧ (262144 : Word).toNat ≤ State.reset.cap.toNat) ∧
    (0x0024 : Offset) ∈ ([0x0000, 0x0004, 0x0008, 0x001C, 0x0020, 0x0024] : List Offset) := by
  decide

/-- The last node word and the bytes beside it; word 8 of an entry, whose last bit is dropped; a bit RAM of one word. -/
theorem test_witness_RamWrites :
    (510 < 511 ∧ 0x1000 + 4 * 510 + 4 ≤ 0x17FC ∧ (0 : NodeIdx).toNat ≠ 510) ∧
    ((1 : Byte) ≠ 0 ∧ 254 < 255 ∧ codeAddr 0 0 + 4 ≤ 0x4004) ∧
    ((1 ≤ 8 ∧ 8 ≤ 8) ∧ ¬ (8 = 8 ∧ 30 = 31) ∧ 223 / 32 + 1 ≠ 8 ∧ 0x4000 + 31 < codeAddr 0 8) ∧
    (Config.BitcapLegal 32 ∧ 0 < 32 / 32 ∧ 32 / 32 ≠ 0 ∧ bitWordAddr 0 + 4 ≤ 0x8004) := by
  decide

theorem test_witness_WindowAtBase : Config.hccBase + 65536 ≤ Config.hccBase + 65536 := Nat.le_refl _

/-! ### Witnesses: faults and whole-machine rules -/

theorem test_witness_RaiseRecordsFirstFault : State.reset.fault = false ∧ (faulted State.reset).fault = true := ⟨rfl, rfl⟩

/-- A refused read, and a command's own fault. -/
theorem test_witness_FaultsArePrecise :
    (∃ t : State, perform (.read 0x0028 .word) State.reset = .next t ∧ State.reset.fault = false ∧ t.fault = true) ∧
    ∃ t : State, perform (.write 0x000C .word 0x10000000) State.reset = .next t ∧ State.reset.fault = false ∧
      t.fault = true :=
  ⟨⟨_, rfl, rfl, by decide⟩, ⟨_, rfl, rfl, by decide⟩⟩

theorem test_witness_FaultRecordStays :
    ∃ t : State, perform (.write 0x0010 .word 0) (faulted State.reset) = .next t ∧ (faulted State.reset).fault = true ∧
      Request.write 0x0010 .word 0 ≠ .resetInput ∧
      Request.write 0x0010 .word 0 ≠ .write 0x000C .word 0x01000000 ∧
      Request.write 0x0010 .word 0 ≠ .write 0x000C .word 0x02000000 :=
  ⟨_, rfl, rfl, by decide, by decide, by decide⟩

theorem test_witness_DecodeFlagsChangeOnlyByDecode :
    ∃ t : State, perform (.write 0x0018 .word 0) State.reset = .next t ∧
      Request.write 0x0018 .word 0 ≠ .resetInput ∧
      Request.write 0x0018 .word 0 ≠ .write 0x000C .word 0x01000000 ∧
      Request.write 0x0018 .word 0 ≠ .write 0x000C .word 0x20000000 ∧
      Request.write 0x0018 .word 0 ≠ .write 0x000C .word 0x21000000 :=
  ⟨_, rfl, by decide, by decide, by decide, by decide⟩

/-- The first offset after the tree RAM. -/
theorem test_witness_TreeChangesOnlyByHostWrites :
    ∃ t : State, perform (.write 0x17FC .word 1) State.reset = .next t ∧
      Request.write 0x17FC .word 1 ≠ .resetInput ∧
      Request.write 0x17FC .word 1 ≠ .write 0x000C .word 0x01000000 ∧
      ∀ (off : Offset) (v : Word), Request.write 0x17FC .word 1 = .write off .word v →
        ¬ (0x1000 ≤ off.toNat ∧ off.toNat < 0x17FC) :=
  ⟨_, rfl, by decide, by decide, fun off v h => by cases h; decide⟩

theorem test_witness_NodesBeyondTheTreeAreNotRead :
    ∃ (s t : State) (tree' : Memory), Instr.buildtab ≠ .sreset ∧ s.dpos.toNat < s.ncount.toNat ∧
      (∀ j : NodeIdx, j.toNat < s.ncount.toNat → nodeWord tree' j = nodeWord s.tree j) ∧ exec .buildtab s = .next t :=
  ⟨stateAB 0 0, _, wordsAt 0x1000 [0x61, 0x62, 0x20020100, 0x7F], by decide, by decide +kernel, by decide +kernel, rfl⟩

end Sys2Proof.Tests
end

