-- ==== Sys2Proof/Proofs/Status.lean ====
section
/-! The STATUS word bit by bit (10_state.md R23, R36). -/

namespace Sys2Proof.Machine

theorem getLsbD_boolWord (b : Bool) (i : Nat) : (boolWord b).getLsbD i = (decide (i = 0) && b) := by
  cases b <;> simp [boolWord, BitVec.getLsbD_one]

/-- A flag placed at bit `k` of a word. -/
theorem getLsbD_boolWord_shiftLeft (b : Bool) {k : Nat} (hk : k < 32) (i : Nat) :
    (boolWord b <<< k).getLsbD i = (decide (i = k) && b) := by
  rw [BitVec.getLsbD_shiftLeft, getLsbD_boolWord]
  obtain hlt | rfl | hgt := Nat.lt_trichotomy i k
  · simp [hlt, hlt.ne]
  · simp [hk]
  · simp [hgt.ne', Nat.sub_ne_zero_of_lt hgt]

/-- A byte placed at bits 15:8 of a word. -/
theorem getLsbD_setWidth_shiftLeft_eight (c : Byte) (i : Nat) :
    (c.setWidth 32 <<< 8).getLsbD i = (decide (8 ≤ i) && c.getLsbD (i - 8)) := by
  rw [BitVec.getLsbD_shiftLeft, BitVec.getLsbD_setWidth]
  by_cases hi : i < 32
  · have hshift : i - 8 < 32 := by omega
    simp [hi, hshift, ← decide_not]
  · simp [hi, BitVec.getLsbD_of_ge c (i - 8) (by omega)]

theorem State.atRoot_eq_decide (s : State) : s.atRoot = decide (s.dpos = s.ncount - 1) :=
  beq_eq_decide _ _

/-- R23: the flags stand at bits 0 to 3, FCODE from bit 8 on. -/
theorem State.getLsbD_status (s : State) (i : Nat) :
    s.status.getLsbD i =
      ((decide (8 ≤ i) && s.fcode.getLsbD (i - 8)) || (decide (i = 3) && s.atRoot) || (decide (i = 2) && s.dempty) ||
        (decide (i = 1) && s.dvalid) || (decide (i = 0) && s.fault)) := by
  simp only [State.status, BitVec.getLsbD_or, getLsbD_setWidth_shiftLeft_eight, getLsbD_boolWord_shiftLeft,
    getLsbD_boolWord, Nat.reduceLT]

/-- Above the flags only FCODE is left. -/
theorem State.getLsbD_status_of_le (s : State) {i : Nat} (hi : 4 ≤ i) :
    s.status.getLsbD i = (decide (8 ≤ i) && s.fcode.getLsbD (i - 8)) := by
  have hflag (k : Nat) (hk : k < 4) : decide (i = k) = false := by simp; omega
  simp only [State.getLsbD_status, hflag, Nat.reduceLT, Bool.false_and, Bool.or_false]

theorem State.extractLsb'_status_fcode (s : State) : s.status.extractLsb' 8 8 = s.fcode := by
  apply BitVec.eq_of_getLsbD_eq
  intro i hi
  rw [BitVec.getLsbD_extractLsb', s.getLsbD_status_of_le (by omega)]
  simp [hi]

/-- A slice of STATUS that holds no flag and no bit of FCODE reads as 0. -/
theorem State.extractLsb'_status_reserved (s : State) {start len : Nat} (hflags : 4 ≤ start)
    (hfcode : start + len ≤ 8 ∨ 16 ≤ start) : s.status.extractLsb' start len = 0 := by
  apply BitVec.eq_of_getLsbD_eq
  intro i hi
  rw [BitVec.getLsbD_extractLsb', s.getLsbD_status_of_le (by omega)]
  obtain hbelow | habove := hfcode
  · have hlow : ¬ 8 ≤ start + i := by omega
    simp [hlow]
  · simp [BitVec.getLsbD_of_ge s.fcode (start + i - 8) (by omega)]

/-- Settles O43: each flag is one bit by `State.getLsbD_status`, bits 15:8 are FCODE, and the two slices left are reserved. -/
theorem statusFields : Obligations.StatusFields := by
  intro s
  refine ⟨?fault, ?dvalid, ?dempty, ?atroot, s.extractLsb'_status_reserved (by decide) (by decide),
    s.extractLsb'_status_fcode, s.extractLsb'_status_reserved (by decide) (by decide)⟩
  case atroot => rw [State.getLsbD_status, State.atRoot_eq_decide]; simp
  all_goals rw [State.getLsbD_status]; simp

end Sys2Proof.Machine
end

