-- ==== Sys2Proof/Proofs/Encoding.lean ====
section
/-! What the decoder accepts is exactly the command's own encoding (30_encoding.md R84, R85). -/

namespace Sys2Proof

/-- BYTE is the low byte of the operand field (R80). -/
theorem byteField_eq_extractLsb'_operandBits (w : Word) : byteField w = (operandBits w).extractLsb' 0 8 := by
  conv_lhs => rw [← opField_append_operandBits w]
  exact byteField_append _ _

/-- A word decodes only by a row of the opcode map that lists its OP and accepts its operand field (R84). -/
theorem exists_opRow_of_decode {w : Word} {i : Instr} (h : decode w = .ok i) :
    ∃ row ∈ opcodeMap, row.op = opField w ∧ row.format.accepts (operandBits w) = true ∧
      row.command (byteField w) = i := by
  unfold decode at h
  split at h
  case h_1 => cases h
  case h_2 row hfind =>
    split at h
    case isTrue haccepts =>
      have hop : row.op = opField w := by simpa using List.find?_some hfind
      exact ⟨row, List.mem_of_find?_eq_some hfind, hop, haccepts, by simpa using h⟩
    case isFalse => cases h

/-- A row's command, given the low byte of an operand field the row accepts, has that OP and that operand field. -/
theorem encode_command_of_mem_opcodeMap {row : OpRow} (hrow : row ∈ opcodeMap) {operand : BitVec 24}
    (haccepts : row.format.accepts operand = true) :
    encode (row.command (operand.extractLsb' 0 8)) = row.op ++ operand := by
  simp only [opcodeMap, List.mem_cons, List.not_mem_nil, or_false] at hrow
  obtain rfl | rfl | rfl | rfl | rfl | rfl | rfl := hrow
  -- ENCB's row is the only one with an operand; every other accepts the operand field 0 alone.
  case inr.inr.inr.inl =>
    have hoperand := eq_setWidth_of_cb (beq_iff_eq.mp haccepts)
    exact congrArg ((0x10 : Byte) ++ ·) hoperand.symm
  all_goals
    obtain rfl := beq_iff_eq.mp haccepts
    rfl

/-- The decoder answers a command on no word but the command's encoding (R84, R85). -/
theorem encode_eq_of_decode {w : Word} {i : Instr} (h : decode w = .ok i) : encode i = w := by
  obtain ⟨row, hrow, hop, haccepts, rfl⟩ := exists_opRow_of_decode h
  rw [byteField_eq_extractLsb'_operandBits, encode_command_of_mem_opcodeMap hrow haccepts, hop,
    opField_append_operandBits]

/-- ENCB's word meets the match 0x10000000 under the mask 0xFFFFFF00, whatever its BYTE (R84). -/
theorem encode_encb_and_mask (b : Byte) : encode (.encb b) &&& 0xFFFFFF00 = 0x10000000 := by
  have hbyte : b.setWidth 24 &&& (0xFFFF00 : BitVec 24) = 0 :=
    calc b.setWidth 24 &&& (0xFFFF00 : BitVec 24)
      _ = ((0 : BitVec 16) ++ b) &&& ((0xFFFF : BitVec 16) ++ (0 : Byte)) := by
        rw [BitVec.setWidth_eq_append (by decide)]; rfl
      _ = 0 := by rw [BitVec.and_append]; exact congrArg ((0 : BitVec 16) ++ ·) BitVec.and_zero
  calc encode (.encb b) &&& 0xFFFFFF00
    _ = ((0x10 : Byte) ++ b.setWidth 24) &&& ((0xFF : Byte) ++ (0xFFFF00 : BitVec 24)) := rfl
    _ = 0x10000000 := by rw [BitVec.and_append, hbyte]; rfl

end Sys2Proof

namespace Sys2Proof.Machine

/-- A CMD write of a word that is no command's encoding records ILLEGAL_CMD with the word, whatever the state (R85). -/
theorem perform_commandRequest_of_forall_encode_ne {w : Word} (h : ∀ i : Instr, encode i ≠ w) (s : State) :
    perform (commandRequest w) s = .next (s.raise .illegalCmd w) := by
  rw [commandRequest, perform_writeReg, writeReg, executeCommand]
  cases hdecode : decode w with
  | ok i => exact absurd (encode_eq_of_decode hdecode) (h i)
  | error e => rfl

/-- Settles O3: the excluded words are the encodings of the seven commands, and a word that decodes is one of them. -/
theorem illegalWordsFault : Obligations.IllegalWordsFault := by
  refine ⟨fun w s hnop hsreset hclrf hdstep hdecb hbuildtab hencb => ?illegal, fun w h => ?onlyNop⟩
  case illegal =>
    apply perform_commandRequest_of_forall_encode_ne
    intro i hi
    cases i with
    | nop => exact hnop hi.symm
    | sreset => exact hsreset hi.symm
    | clrf => exact hclrf hi.symm
    | encb b => exact hencb (hi ▸ encode_encb_and_mask b)
    | dstep => exact hdstep hi.symm
    | decb => exact hdecb hi.symm
    | buildtab => exact hbuildtab hi.symm
  case onlyNop => exact (encode_eq_of_decode h).symm

end Sys2Proof.Machine
end

