-- ==== Sys2Proof/Proofs/RegisterAccess.lean ====
section
/-! Host accesses to the registers and to the words of the RAMs (40_register_access.md): which word an accepted access reads or
writes, what the bits of that word are, and what a write leaves as it was. -/

namespace Sys2Proof.Machine

/-! ### Accepted accesses (R63, R110) -/

theorem perform_read_of_accepted {s : State} {off : Offset} {n : Size} {tgt : Target} (h : accepted s off n = some tgt) :
    perform (.read off n) s = .next (s.reply (readTarget s tgt)) := by
  simp only [perform, hostRead, h]

theorem perform_write_of_accepted {s : State} {off : Offset} {n : Size} {tgt : Target} (h : accepted s off n = some tgt)
    (v : Word) : perform (.write off n v) s = writeTarget tgt v s := by
  simp only [perform, hostWrite, h]

theorem perform_read_node (s : State) {i : Nat} (hi : i < 511) :
    perform (.read (BitVec.ofNat 16 (0x1000 + 4 * i)) .word) s = .next (s.reply (nodeWord s.tree (BitVec.ofNat 9 i))) :=
  perform_read_of_accepted (accepted_node s hi)

theorem perform_read_codeWord (s : State) (b : Byte) {k : Nat} (hk : k ≤ 8) :
    perform (.read (BitVec.ofNat 16 (codeAddr b k)) .word) s = .next (s.reply (readCodeWord s b k)) :=
  perform_read_of_accepted (accepted_codeWord s b hk)

theorem perform_read_bitWord {s : State} (hcap : s.cap.toNat ≤ 262144) {w : Nat} (hw : w < s.cap.toNat / 32) :
    perform (.read (BitVec.ofNat 16 (bitWordAddr w)) .word) s =
      .next (s.reply (Memory.readWord s.bits (bitWordAddr w))) :=
  perform_read_of_accepted (accepted_bitWord hcap hw)

theorem perform_write_codeWord (s : State) (b : Byte) {k : Nat} (hk : k ≤ 8) (v : Word) :
    perform (.write (BitVec.ofNat 16 (codeAddr b k)) .word v) s =
      .next { s with code := Memory.writeWord s.code (codeAddr b k) (storedCodeWord k v) } :=
  perform_write_of_accepted (accepted_codeWord s b hk) v

/-! ### The bits of a RAM word (R82, R83) -/

/-- Code bit `32 * (k - 1) + j` is bit `31 - j` of Wk. -/
theorem codeBit_eq_getLsbD_word (m : Memory) (b : Byte) {k j : Nat} (hk : 1 ≤ k) (hj : j < 32) :
    codeBit m b (32 * (k - 1) + j) = (Memory.readWord m (codeAddr b k)).getLsbD (31 - j) := by
  have hword : 1 + (32 * (k - 1) + j) / 32 = k := by omega
  have hbit : (32 * (k - 1) + j) % 32 = j := by omega
  rw [codeBit, hword, hbit]

/-- `BIT(32 * w + j)` is bit `31 - j` of bit word `w`. -/
theorem readBit_eq_getLsbD_word (m : Memory) (w : Nat) {j : Nat} (hj : j < 32) :
    readBit m (32 * w + j) = (Memory.readWord m (bitWordAddr w)).getLsbD (31 - j) := by
  have hword : (32 * w + j) / 32 = w := by omega
  have hbit : (32 * w + j) % 32 = j := by omega
  rw [readBit, hword, hbit]

/-- The mask of a bits word clears bit 0 of W8 and no other bit. -/
theorem getLsbD_and_codeWordMask (v : Word) (k : Nat) {i : Nat} (hi : i < 32) :
    (v &&& codeWordMask k).getLsbD i = if k = 8 ∧ i = 0 then false else v.getLsbD i := by
  have hw8 : ∀ i < 32, (0xFFFFFFFE : Word).getLsbD i = decide (i ≠ 0) := by decide
  have hfull : ∀ i < 32, (0xFFFFFFFF : Word).getLsbD i = true := by decide
  rw [BitVec.getLsbD_and, codeWordMask]
  by_cases hk : k = 8
  · rw [if_pos hk, hw8 i hi]
    by_cases h0 : i = 0 <;> simp [hk, h0]
  · rw [if_neg hk, hfull i hi]
    simp [hk]

/-- R113: a bits word reads as its code bits, bit 0 of W8 as 0. -/
theorem getLsbD_readCodeWord (s : State) (b : Byte) {k j : Nat} (hk : 1 ≤ k) (hj : j < 32) :
    (readCodeWord s b k).getLsbD (31 - j) =
      if k = 8 ∧ j = 31 then false else codeBit s.code b (32 * (k - 1) + j) := by
  have hlast : 31 - j = 0 ↔ j = 31 := by omega
  rw [readCodeWord, if_neg (by omega), getLsbD_and_codeWordMask _ _ (by omega), codeBit_eq_getLsbD_word _ _ hk hj]
  simp only [hlast]

/-- Settles O44: each word of a RAM is mapped, so its read returns the word; the bits of HDR, Wk and a bit word are those of
`headerWord`, `getLsbD_readCodeWord` and `readBit_eq_getLsbD_word`. -/
theorem ramReads : Obligations.RamReads := by
  intro s hcap
  obtain ⟨-, -, hcapLe⟩ := hcap
  refine ⟨fun i hi => perform_read_node s hi, fun b => ?header, fun b k hk hk8 => ?bits, fun w hw => ?bitWord⟩
  case header =>
    exact ⟨headerWord (codeValid s.code b) (codeLen s.code b), perform_read_codeWord s b (Nat.zero_le 8),
      headerWord_valid _ _, headerWord_len _ _, headerWord_reserved _ _⟩
  case bits => exact ⟨_, perform_read_codeWord s b hk8, fun j hj => getLsbD_readCodeWord s b hk hj⟩
  case bitWord =>
    exact ⟨_, perform_read_bitWord hcapLe hw, fun j hj => (readBit_eq_getLsbD_word s.bits w hj).symm⟩

/-! ### Writing a bits word of a code entry (R122) -/

/-- The code bits of the word written. -/
theorem codeBit_writeCode_same (m : Memory) (b : Byte) {k j : Nat} (hk : 1 ≤ k) (hj : j < 32) (w : Word) :
    codeBit (Memory.writeWord m (codeAddr b k) w) b (32 * (k - 1) + j) = w.getLsbD (31 - j) := by
  rw [codeBit_eq_getLsbD_word _ _ hk hj, Memory.readWord_writeWord_same]

/-- A code bit of another word is as before. -/
theorem codeBit_writeCode_of_ne (m : Memory) {b c : Byte} {k j : Nat} (hk : k ≤ 8) (hj : j < 256)
    (hne : c ≠ b ∨ j / 32 + 1 ≠ k) (w : Word) :
    codeBit (Memory.writeWord m (codeAddr b k) w) c j = codeBit m c j := by
  have hother : ¬ (c = b ∧ 1 + j / 32 = k) := fun ⟨hentry, hword⟩ =>
    hne.elim (· hentry) (· (by omega))
  rw [codeBit, readCode_writeCode _ (by omega) (by omega), if_neg hother, codeBit]

/-- Every header is as before a write of a bits word. -/
theorem readCode_header_writeCode (m : Memory) (b c : Byte) {k : Nat} (hk : 1 ≤ k) (hk8 : k ≤ 8) (w : Word) :
    Memory.readWord (Memory.writeWord m (codeAddr b k) w) (codeAddr c 0) = Memory.readWord m (codeAddr c 0) := by
  have hother : ¬ (c = b ∧ 0 = k) := by omega
  rw [readCode_writeCode _ (by omega) (by omega), if_neg hother]

theorem storedCodeWord_of_pos {k : Nat} (hk : 1 ≤ k) (v : Word) : storedCodeWord k v = v &&& codeWordMask k :=
  if_neg (by omega)

/-- Settles O51: the write is one `Memory.writeWord` of the masked value at Wk, so the word holds the bits kept by the mask and the
words of the code RAM beside it are as before. -/
theorem codeBitsWrite : Obligations.CodeBitsWrite := by
  intro s b k v hk hk8
  refine ⟨_, perform_write_codeWord s b hk8 v, ?written, ?dropped, ?bytes, ?headers, ?otherBits, rfl⟩
  case written =>
    intro j hj hkept
    have hnotLast : ¬ (k = 8 ∧ 31 - j = 0) := by omega
    rw [storedCodeWord_of_pos hk, codeBit_writeCode_same _ _ hk hj, getLsbD_and_codeWordMask _ _ (by omega),
      if_neg hnotLast]
  case dropped =>
    rintro rfl
    rw [Memory.readWord_writeWord_same, storedCodeWord_of_pos hk, getLsbD_and_codeWordMask _ _ (by omega)]
    simp
  case bytes => exact fun a ha => Memory.read_writeWord_outside _ _ _ ha
  case headers =>
    intro c
    have hheader := readCode_header_writeCode s.code b c hk hk8 (storedCodeWord k v)
    exact ⟨congrArg (·.getLsbD 31) hheader, congrArg (·.extractLsb' 0 8) hheader⟩
  case otherBits => exact fun c j hj hne => codeBit_writeCode_of_ne _ hk8 (by omega) hne _

/-! ### Reading and writing a register (R111, R115 to R118) -/

/-- Settles O42: `perform_readReg` for each of the ten registers. -/
theorem registerReads : Obligations.RegisterReads := fun s =>
  ⟨perform_readReg .id s, perform_readReg .cap s, perform_readReg .status s, perform_readReg .cmd s,
    perform_readReg .ncount s, perform_readReg .bitlen s, perform_readReg .rdptr s, perform_readReg .dpos s,
    perform_readReg .dout s, perform_readReg .finfo s⟩

theorem writeNcount_of_out_of_range {v : Word} (h : v.toNat < 1 ∨ 511 < v.toNat) (s : State) :
    writeNcount v s = s.raise .range (infoRange .ncount) :=
  if_pos h

theorem writeNcount_of_in_range {v : Word} (hpos : 1 ≤ v.toNat) (hle : v.toNat ≤ 511) (s : State) :
    writeNcount v s = { s with ncount := v.setWidth 9, dpos := (v - 1).setWidth 9 } :=
  if_neg (by simp only [Config.nmax]; omega)

/-- DPOS <- v - 1 is the root of the tree of NCOUNT <- v. -/
theorem setWidth_sub_one (v : Word) : (v - 1).setWidth 9 = v.setWidth 9 - 1 := by
  rw [BitVec.sub_eq_add_neg, BitVec.setWidth_add _ _ (by decide), BitVec.sub_eq_add_neg]
  rfl

theorem writeNcount_ncount_toNat {v : Word} (hpos : 1 ≤ v.toNat) (hle : v.toNat ≤ 511) (s : State) :
    (writeNcount v s).ncount.toNat = v.toNat := by
  rw [writeNcount_of_in_range hpos hle, BitVec.toNat_setWidth]
  exact Nat.mod_eq_of_lt (by omega)

/-- An accepted NCOUNT leaves the walk at the root of the new tree. -/
theorem writeNcount_dpos_eq_root {v : Word} (hpos : 1 ≤ v.toNat) (hle : v.toNat ≤ 511) (s : State) :
    (writeNcount v s).dpos = (writeNcount v s).root := by
  rw [writeNcount_of_in_range hpos hle]
  exact setWidth_sub_one v

/-- Settles O45: `writeNcount` checks the range; in it, v keeps its value in 9 bits and DPOS is the new root. -/
theorem ncountWrite : Obligations.NcountWrite := by
  intro s v
  refine ⟨fun hout => ?outOfRange, fun hpos hle => ?inRange⟩
  case outOfRange => exact (perform_writeReg .ncount v s).trans (congrArg _ (writeNcount_of_out_of_range hout s))
  case inRange =>
    have hncount := writeNcount_ncount_toNat hpos hle s
    have hroot := writeNcount_dpos_eq_root hpos hle s
    refine ⟨writeNcount v s, perform_writeReg .ncount v s, hncount, ?dpos, beq_iff_eq.mpr hroot, ?frame⟩
    case dpos => rw [hroot, State.root_toNat (by omega), hncount]
    case frame => rw [writeNcount_of_in_range hpos hle]

theorem writeBitlen_of_lt {v : Word} {s : State} (h : s.cap.toNat < v.toNat) :
    writeBitlen v s = s.raise .range (infoRange .bitlen) :=
  if_pos h

theorem writeBitlen_of_le {v : Word} {s : State} (h : v.toNat ≤ s.cap.toNat) :
    writeBitlen v s = { s with bitlen := v } :=
  if_neg (Nat.not_lt.mpr h)

/-- Settles O46: the two branches of `writeBitlen`. -/
theorem bitlenWrite : Obligations.BitlenWrite := fun s v =>
  ⟨fun habove => (perform_writeReg .bitlen v s).trans (congrArg _ (writeBitlen_of_lt habove)),
    fun hle => (perform_writeReg .bitlen v s).trans (congrArg _ (writeBitlen_of_le hle))⟩

theorem writeRdptr_of_lt {v : Word} {s : State} (h : s.cap.toNat < v.toNat) :
    writeRdptr v s = s.raise .range (infoRange .rdptr) :=
  if_pos h

theorem writeRdptr_of_le {v : Word} {s : State} (h : v.toNat ≤ s.cap.toNat) :
    writeRdptr v s = { s with rdptr := v, dpos := s.root } :=
  if_neg (Nat.not_lt.mpr h)

/-- Settles O47: the two branches of `writeRdptr`. -/
theorem rdptrWrite : Obligations.RdptrWrite := fun s v =>
  ⟨fun habove => (perform_writeReg .rdptr v s).trans (congrArg _ (writeRdptr_of_lt habove)),
    fun hle => (perform_writeReg .rdptr v s).trans (congrArg _ (writeRdptr_of_le hle))⟩

/-- The registers whose write always raises ACCESS_ERR (R118). -/
def readOnlyRegs : List Reg := [.id, .cap, .status, .dpos, .dout, .finfo]

theorem perform_write_of_mem_readOnlyRegs {r : Reg} (hr : r ∈ readOnlyRegs) (v : Word) (s : State) :
    perform (.write r.offset .word v) s = .next (s.raise .accessErr (infoAccess true r.offset .word)) := by
  rw [perform_writeReg]
  simp only [readOnlyRegs, List.mem_cons, List.not_mem_nil, or_false] at hr
  obtain rfl | rfl | rfl | rfl | rfl | rfl := hr <;> rfl

/-- Settles O48: the six offsets are those of the read-only registers. -/
theorem readOnlyWrites : Obligations.ReadOnlyWrites := by
  intro s v off hoff
  obtain ⟨r, hr, rfl⟩ : ∃ r ∈ readOnlyRegs, r.offset = off := List.mem_map.mp hoff
  exact perform_write_of_mem_readOnlyRegs hr v s

end Sys2Proof.Machine
end

