-- ==== Sys2Proof/Proofs/Control.lean ====
section
/-! The control commands (41_control.md R141, R143), which run whether or not a fault is recorded. -/

namespace Sys2Proof.Machine

theorem exec_nop (s : State) : exec .nop s = .next s := rfl

theorem exec_clrf (s : State) : exec .clrf s = .next s.clearFault := rfl

/-- With FAULT = 0 a coherent record already holds what CLRF writes (R23, R29). -/
theorem State.clearFault_of_recordOk {s : State} (hrecord : s.recordOk) (hfault : s.fault = false) :
    s.clearFault = s := by
  obtain ⟨hempty, -⟩ := hrecord
  obtain ⟨hfcode, hfinfo⟩ := hempty hfault
  rw [State.clearFault, ← hfault, ← hfcode, ← hfinfo]

/-- Settles O11: `exec_nop` has no premise on FAULT. -/
theorem nopChangesNothing : Obligations.NopChangesNothing := ⟨rfl, exec_nop⟩

/-- Settles O13: CLRF is `State.clearFault`, which leaves a state with an empty record as it is. -/
theorem clrfClearsTheRecord : Obligations.ClrfClearsTheRecord :=
  ⟨rfl, exec_clrf, fun s hrecord hfault =>
    (exec_clrf s).trans (congrArg _ (State.clearFault_of_recordOk hrecord hfault))⟩

end Sys2Proof.Machine
end

