-- ==== Sys2Proof/Proofs/Encoder.lean ====
section
/-! ENCB and runs of ENCB commands (42_encoder.md R150 to R152). Every ENCB that completes, and every run that raises no fault, is one
`State.appendBits`. -/

namespace Sys2Proof.Machine

/-! ### Appending bits to the sequence (R150) -/

/-- BIT(BITLEN + j) <- xs[j] for every j, then BITLEN <- BITLEN + |xs|: the effect of an ENCB that completes (R150). -/
def State.appendBits (s : State) (xs : List Bool) : State :=
  { s with bits := writeBits s.bits s.bitlen.toNat xs, bitlen := BitVec.ofNat 32 (s.bitlen.toNat + xs.length) }

@[simp] theorem State.appendBits_cap (s : State) (xs : List Bool) : (s.appendBits xs).cap = s.cap := rfl
@[simp] theorem State.appendBits_fault (s : State) (xs : List Bool) : (s.appendBits xs).fault = s.fault := rfl
@[simp] theorem State.appendBits_code (s : State) (xs : List Bool) : (s.appendBits xs).code = s.code := rfl

theorem State.appendBits_bitlen_toNat {s : State} {xs : List Bool} (h : s.bitlen.toNat + xs.length < 2 ^ 32) :
    (s.appendBits xs).bitlen.toNat = s.bitlen.toNat + xs.length :=
  (BitVec.toNat_ofNat _ _).trans (Nat.mod_eq_of_lt h)

@[simp] theorem State.appendBits_nil (s : State) : s.appendBits [] = s := by
  simp [State.appendBits, writeBits]

theorem State.appendBits_appendBits {s : State} {xs : List Bool} (h : s.bitlen.toNat + xs.length < 2 ^ 32)
    (ys : List Bool) : (s.appendBits xs).appendBits ys = s.appendBits (xs ++ ys) := by
  have hbitlen := State.appendBits_bitlen_toNat h
  rw [State.appendBits, hbitlen, State.appendBits, State.appendBits, writeBits_append, List.length_append, Nat.add_assoc]

/-- The bits appended stand from the old BITLEN on. -/
theorem State.bitsFrom_appendBits (s : State) (xs : List Bool) :
    (s.appendBits xs).bitsFrom s.bitlen.toNat xs.length = xs :=
  s.bitsFrom_writeBits s.bitlen.toNat xs

/-- Every bit below the old BITLEN or from the new BITLEN on keeps its value. -/
theorem State.readBit_appendBits_outside (s : State) {xs : List Bool} {p : Nat}
    (h : p < s.bitlen.toNat ∨ s.bitlen.toNat + xs.length ≤ p) :
    readBit (s.appendBits xs).bits p = readBit s.bits p := by
  have hout : ¬ (s.bitlen.toNat ≤ p ∧ p < s.bitlen.toNat + xs.length) := by omega
  exact (readBit_writeBits xs s.bits s.bitlen.toNat p).trans (if_neg hout)

/-! ### One ENCB (R150) -/

theorem encode_encb (b : Byte) : encode (.encb b) = 0x10000000 ||| b.setWidth 32 :=
  calc encode (.encb b)
    _ = ((0x10 : Byte) ++ b.setWidth 24).setWidth 32 := (BitVec.setWidth_eq _).symm
    _ = ((0x10 : Byte).setWidth 32 <<< 24) ||| (b.setWidth 24).setWidth 32 :=
      BitVec.setWidth_append_eq_shiftLeft_setWidth_or
    _ = 0x10000000 ||| b.setWidth 32 := by rw [BitVec.setWidth_setWidth (by decide)]; rfl

theorem exec_encb_faulted {s : State} (h : s.fault = true) (b : Byte) : exec (.encb b) s = .next s := by
  simp only [exec, execEncb, State.unlessFaulted_faulted h]

theorem encodeByte_of_noCode {s : State} {b : Byte} (hvalid : codeValid s.code b = false) :
    encodeByte b s = s.raise .noCode (infoByte b) := by
  simp [encodeByte, hvalid]

theorem encodeByte_of_overflow {s : State} {b : Byte} (hvalid : codeValid s.code b = true)
    (hover : s.cap.toNat < s.bitlen.toNat + (codeLen s.code b).toNat) :
    encodeByte b s = s.raise .bitOverflow (infoOverflow b (codeLen s.code b)) := by
  simp [encodeByte, hvalid, hover]

theorem encodeByte_of_fits {s : State} {b : Byte} (hvalid : codeValid s.code b = true)
    (hfits : s.bitlen.toNat + (codeLen s.code b).toNat ≤ s.cap.toNat) :
    encodeByte b s = s.appendBits (codePath s.code b) := by
  simp [encodeByte, hvalid, Nat.not_lt.mpr hfits, State.appendBits, codePath_length]

/-- Settles O15: the three branches of `encodeByte`; where it appends, the bits appended are the code's. -/
theorem encbAppendsTheCode : Obligations.EncbAppendsTheCode := by
  refine ⟨encode_encb, fun s b hfault => ?_⟩
  rw [exec_encb_clear hfault]
  refine ⟨fun hvalid => congrArg _ (encodeByte_of_noCode hvalid),
    fun hvalid hover => congrArg _ (encodeByte_of_overflow hvalid hover),
    fun hvalid hfits => ⟨_, congrArg _ (encodeByte_of_fits hvalid hfits), ?bitlen, ?appended, ?outside, rfl⟩⟩
  case bitlen =>
    have hcap := s.cap.isLt
    rw [State.appendBits_bitlen_toNat (by rw [codePath_length]; omega), codePath_length]
  case appended =>
    intro j hj
    have hcode := (State.bitsFrom_eq_iff _ _ _).mp (s.bitsFrom_appendBits (codePath s.code b)) j
      (by rwa [codePath_length])
    simpa [codePath] using hcode
  case outside =>
    intro p hp
    exact s.readBit_appendBits_outside (by rwa [codePath_length])

/-! ### Runs of ENCB (R151, R152) -/

theorem execAll_cons_of_next {i : Instr} {s u : State} (h : exec i s = .next u) (is : List Instr) :
    execAll (i :: is) s = execAll is u := by
  simp only [execAll, h]

theorem execAll_append_of_next {is : List Instr} {s u : State} (h : execAll is s = .next u) (js : List Instr) :
    execAll (is ++ js) s = execAll js u := by
  simp only [execAll_append, h]

/-- While FAULT = 1 a whole run of ENCB commands is dropped (R140). -/
theorem execAll_encb_faulted {s : State} (h : s.fault = true) (bs : List Byte) :
    execAll (bs.map Instr.encb) s = .next s := by
  induction bs with
  | nil => rfl
  | cons b bs ih => exact (execAll_cons_of_next (exec_encb_faulted h b) _).trans ih

/-- A run whose bytes all have a code, and whose codes fit, appends their concatenation (R151). -/
theorem execAll_encb_of_fits {s : State} {bs : List Byte} (hfault : s.fault = false)
    (hvalid : ∀ b ∈ bs, codeValid s.code b = true)
    (hfits : s.bitlen.toNat + (bs.flatMap (codePath s.code)).length ≤ s.cap.toNat) :
    execAll (bs.map Instr.encb) s = .next (s.appendBits (bs.flatMap (codePath s.code))) := by
  induction bs generalizing s with
  | nil => simp [execAll]
  | cons b bs ih =>
    have hcap := s.cap.isLt
    rw [List.forall_mem_cons] at hvalid
    obtain ⟨hb, hbs⟩ := hvalid
    rw [List.flatMap_cons, List.length_append] at hfits
    have hsmall : s.bitlen.toNat + (codePath s.code b).length < 2 ^ 32 := by omega
    have hhead : exec (.encb b) s = .next (s.appendBits (codePath s.code b)) := by
      rw [exec_encb_clear hfault, encodeByte_of_fits hb (by rw [← codePath_length]; omega)]
    have htail := ih (s := s.appendBits (codePath s.code b)) hfault hbs
      (by rw [State.appendBits_bitlen_toNat hsmall, State.appendBits_code, State.appendBits_cap]; omega)
    rw [State.appendBits_code, State.appendBits_appendBits hsmall] at htail
    rw [List.map_cons, List.flatMap_cons]
    exact (execAll_cons_of_next hhead _).trans htail

/-- A run that ends with no fault recorded has appended the concatenation of its codes, and BITLEN has not wrapped (R151). -/
theorem eq_appendBits_of_execAll_encb {s t : State} {bs : List Byte} (hfault : s.fault = false)
    (hrun : execAll (bs.map Instr.encb) s = .next t) (hclear : t.fault = false) :
    t = s.appendBits (bs.flatMap (codePath s.code)) ∧
      s.bitlen.toNat + (bs.flatMap (codePath s.code)).length < 2 ^ 32 := by
  induction bs generalizing s with
  | nil =>
    obtain rfl : s = t := Host.Outcome.next.inj hrun
    exact ⟨s.appendBits_nil.symm, s.bitlen.isLt⟩
  | cons b bs ih =>
    rw [List.map_cons, execAll_cons_of_next (exec_encb_clear hfault b)] at hrun
    obtain ⟨c, info, hraise⟩ | ⟨hvalid, hfits, -⟩ := encodeByte_cases b s
    · -- a fault recorded at this byte would still be recorded at the end
      rw [hraise, execAll_encb_faulted (s.raise_fault c info)] at hrun
      obtain rfl : s.raise c info = t := Host.Outcome.next.inj hrun
      exact absurd (s.raise_fault c info) (Bool.eq_false_iff.mp hclear)
    · have hcap := s.cap.isLt
      have hsmall : s.bitlen.toNat + (codePath s.code b).length < 2 ^ 32 := by rw [codePath_length]; omega
      rw [encodeByte_of_fits hvalid hfits] at hrun
      obtain ⟨heq, hlen⟩ := ih (s := s.appendBits (codePath s.code b)) hfault hrun
      rw [State.appendBits_code, State.appendBits_appendBits hsmall] at heq
      rw [State.appendBits_bitlen_toNat hsmall, State.appendBits_code, Nat.add_assoc] at hlen
      rw [List.flatMap_cons, List.length_append]
      exact ⟨heq, hlen⟩

/-- Settles O18: by induction over the run it is one `State.appendBits` of the codes' concatenation, in both directions. -/
theorem encbRunAppends : Obligations.EncbRunAppends := by
  refine ⟨fun s t bs hfault hrun hclear => ?appends, fun s bs bs' hperm => (hperm.map _).sum_eq,
    fun s bs hfault hvalid hfits => ?noFault⟩
  case appends =>
    obtain ⟨rfl, hlen⟩ := eq_appendBits_of_execAll_encb hfault hrun hclear
    rw [State.appendBits_bitlen_toNat hlen, ← flatMap_codePath_length]
    exact ⟨rfl, s.bitsFrom_appendBits _, fun p hp => s.readBit_appendBits_outside hp, rfl⟩
  case noFault =>
    rw [← flatMap_codePath_length] at hfits
    exact ⟨_, execAll_encb_of_fits hfault hvalid hfits, hfault⟩

/-- A run whose first code does not fit records BIT_OVERFLOW of that byte; the rest of it is dropped (R152). -/
theorem execAll_encb_of_overflow {s : State} {b : Byte} (hfault : s.fault = false) (hvalid : codeValid s.code b = true)
    (hover : s.cap.toNat < s.bitlen.toNat + (codeLen s.code b).toNat) (post : List Byte) :
    execAll ((b :: post).map Instr.encb) s = .next (s.raise .bitOverflow (infoOverflow b (codeLen s.code b))) := by
  have hhead : exec (.encb b) s = .next (s.raise .bitOverflow (infoOverflow b (codeLen s.code b))) := by
    rw [exec_encb_clear hfault, encodeByte_of_overflow hvalid hover]
  exact (execAll_cons_of_next hhead _).trans (execAll_encb_faulted (State.raise_fault _ _ _) post)

/-- Settles O19: `pre` is one `State.appendBits`, b raises BIT_OVERFLOW from there, and the drop while FAULT = 1 takes `post`. -/
theorem encbRunOverflows : Obligations.EncbRunOverflows := by
  intro s pre post b hfault hpre hb hfits hover
  rw [← flatMap_codePath_length] at hfits hover ⊢
  have hcap := s.cap.isLt
  have hbitlen := State.appendBits_bitlen_toNat (s := s) (xs := pre.flatMap (codePath s.code)) (by omega)
  have hrun : execAll ((pre ++ b :: post).map Instr.encb) s =
      .next ((s.appendBits (pre.flatMap (codePath s.code))).raise .bitOverflow (infoOverflow b (codeLen s.code b))) := by
    rw [List.map_append, execAll_append_of_next (execAll_encb_of_fits hfault hpre hfits)]
    exact execAll_encb_of_overflow (s := s.appendBits _) hfault hb (by rwa [hbitlen]) post
  rw [State.raise_clear (s := s.appendBits _) hfault] at hrun
  exact ⟨_, hrun, rfl, rfl, rfl, hbitlen, s.bitsFrom_appendBits _,
    fun p hp => s.readBit_appendBits_outside (hp.imp_right hbitlen.ge.trans), rfl⟩

end Sys2Proof.Machine
end

