-- ==== Sys2Proof/Proofs/Decoder.lean ====
section
/-! DSTEP and DECB (43_decoder.md R160 to R164): what each result of DecodeStep makes of a DSTEP, and a DECB as the DSTEP commands it
replaces. -/

namespace Sys2Proof.Machine

/-! ### The results of DecodeStep (R160) -/

theorem decodeStep_empty {s : State} {r : Nat} (hr : s.bitlen.toNat ≤ r) (d : NodeIdx) : decodeStep s r d = .empty :=
  if_pos hr

section
variable {s : State} {r : Nat} {d : NodeIdx} (hr : r < s.bitlen.toNat)
include hr

theorem decodeStep_noChild (hc : nodeHasChild (nodeWord s.tree d) (readBit s.bits r) = false) :
    decodeStep s r d = .fail .noChild (infoNoChild d (readBit s.bits r)) := by
  simp [decodeStep, Nat.not_le.mpr hr, hc]

theorem decodeStep_badIndex (hc : nodeHasChild (nodeWord s.tree d) (readBit s.bits r) = true)
    (hn : s.ncount.toNat ≤ (nodeChild (nodeWord s.tree d) (readBit s.bits r)).toNat) :
    decodeStep s r d = .fail .badIndex
      (infoBadIndex d (readBit s.bits r) (nodeChild (nodeWord s.tree d) (readBit s.bits r))) := by
  simp [decodeStep, Nat.not_le.mpr hr, hc, hn]

theorem decodeStep_emit (hc : nodeHasChild (nodeWord s.tree d) (readBit s.bits r) = true)
    (hn : (nodeChild (nodeWord s.tree d) (readBit s.bits r)).toNat < s.ncount.toNat)
    (hl : nodeIsLeaf (nodeWord s.tree (nodeChild (nodeWord s.tree d) (readBit s.bits r))) = true) :
    decodeStep s r d = .emit (r + 1) s.root
      (nodeValue (nodeWord s.tree (nodeChild (nodeWord s.tree d) (readBit s.bits r)))) := by
  simp [decodeStep, Nat.not_le.mpr hr, hc, Nat.not_le.mpr hn, hl]

end

/-! ### DSTEP (R161) -/

theorem decodeBit_of_empty {s : State} (h : decodeStep s s.rdptr.toNat s.dpos = .empty) :
    decodeBit s = s.decodedEmpty s.rdptr.toNat s.dpos := by
  simp only [decodeBit, h]

theorem decodeBit_of_fail {s : State} {c : FaultCode} {info : Word}
    (h : decodeStep s s.rdptr.toNat s.dpos = .fail c info) : decodeBit s = s.raise c info := by
  simp only [decodeBit, h]

theorem decodeBit_of_emit {s : State} {r : Nat} {d : NodeIdx} {v : Byte}
    (h : decodeStep s s.rdptr.toNat s.dpos = .emit r d v) : decodeBit s = s.decodedByte r d v := by
  simp only [decodeBit, h]

/-- With no bit left only DEMPTY and DVALID are written (R161, corner case 1). -/
theorem State.decodedEmpty_self (s : State) :
    s.decodedEmpty s.rdptr.toNat s.dpos = { s with dempty := true, dvalid := false } := by
  simp [State.decodedEmpty]

/-- Settles O20: one lemma per result of DecodeStep, the read position taken as a word again. -/
theorem dstepDecodesOneBit : Obligations.DstepDecodesOneBit := by
  refine ⟨rfl, ?_⟩
  rintro s _ _ _ _ hfault rfl rfl rfl rfl
  refine ⟨fun hr => ?empty, fun hr hc => ?noChild, fun hr hc hn => ?badIndex, fun hr hc hn hl => ?move,
    fun hr hc hn hl => ?emit⟩
  case move => rw [exec_dstep_of_move hfault (decodeStep_move hr hc hn hl), State.decodedMove, ofNat_toNat_succ]
  all_goals rw [exec_dstep_clear hfault]
  case empty => rw [decodeBit_of_empty (decodeStep_empty hr _), State.decodedEmpty_self]
  case noChild => rw [decodeBit_of_fail (decodeStep_noChild hr hc)]
  case badIndex => rw [decodeBit_of_fail (decodeStep_badIndex hr hc hn)]
  case emit =>
    rw [decodeBit_of_emit (decodeStep_emit hr hc hn hl), State.decodedByte, ofNat_toNat_succ, State.root]

/-! ### DSTEP commands along a path (R164) -/

/-- A read position below 2^32 is kept by RDPTR. -/
theorem toNat_ofNat_word {r : Nat} (h : r < 2 ^ 32) : (BitVec.ofNat 32 r).toNat = r :=
  (BitVec.toNat_ofNat _ _).trans (Nat.mod_eq_of_lt h)

/-- `u` is `s` but for what a DSTEP that moves may write: RDPTR, DPOS, DVALID and DEMPTY (R161). -/
def State.SameButWalk (s u : State) : Prop :=
  u = { s with rdptr := u.rdptr, dpos := u.dpos, dvalid := u.dvalid, dempty := u.dempty }

namespace State.SameButWalk
variable {s u : State} (h : s.SameButWalk u) (r : Nat) (d : NodeIdx)
include h

theorem fault_eq : u.fault = s.fault := by rw [h]

theorem decodeStep_eq : decodeStep u r d = decodeStep s r d := by rw [h]; rfl

theorem decodedEmpty_eq : u.decodedEmpty r d = s.decodedEmpty r d := by rw [h]; rfl

theorem decodedByte_eq (v : Byte) : u.decodedByte r d v = s.decodedByte r d v := by rw [h]; rfl

end State.SameButWalk

theorem State.decodedMove_sameButWalk (s : State) (r : Nat) (d : NodeIdx) : s.SameButWalk (s.decodedMove r d) := rfl

/-- The state DSTEP commands reach along a path of moves: the walk stands at the path's end, the rest is as before. -/
theorem exists_execAll_dstep_path {s : State} (hfault : s.fault = false) {path : List Bool} {d : NodeIdx}
    (hbits : s.bitsFrom s.rdptr.toNat path.length = path)
    (hlen : s.rdptr.toNat + path.length ≤ max s.rdptr.toNat s.bitlen.toNat)
    (hat : nodeAt s.tree s.ncount s.dpos path = some d)
    (hint : path ≠ [] → nodeIsLeaf (nodeWord s.tree d) = false) :
    ∃ u : State, execAll (List.replicate path.length .dstep) s = .next u ∧ s.SameButWalk u ∧
      u.rdptr.toNat = s.rdptr.toNat + path.length ∧ u.dpos = d := by
  refine ⟨_, execAll_dstep_path hfault hbits hlen hat hint, ?_⟩
  cases path with
  | nil => exact ⟨rfl, rfl, Option.some.inj hat⟩
  | cons b path =>
    have hrdptr := s.rdptr.isLt
    have hbitlen := s.bitlen.isLt
    rw [if_neg (List.cons_ne_nil b path)]
    exact ⟨s.decodedMove_sameButWalk _ _, toNat_ofNat_word (by omega), rfl⟩

/-- A further DSTEP at the path's end. -/
theorem execAll_replicate_dstep_succ {s u : State} {n : Nat} (h : execAll (List.replicate n .dstep) s = .next u)
    (hfault : u.fault = false) : execAll (List.replicate (n + 1) .dstep) s = .next (decodeBit u) := by
  rw [List.replicate_succ', execAll_append_of_next h, execAll_cons_of_next (exec_dstep_clear hfault)]
  rfl

/-! ### DECB (R162) -/

section
variable {s : State} {r : Nat} {d : NodeIdx}

theorem decodeByte_of_ranOut (h : decbLoop s (s.bitlen.toNat - s.rdptr.toNat) s.rdptr.toNat s.dpos = .ranOut r d) :
    decodeByte s = s.decodedEmpty r d := by
  simp only [decodeByte, h]

theorem decodeByte_of_failed {c : FaultCode} {info : Word}
    (h : decbLoop s (s.bitlen.toNat - s.rdptr.toNat) s.rdptr.toNat s.dpos = .failed c info) :
    decodeByte s = s.raise c info := by
  simp only [decodeByte, h]

theorem decodeByte_of_byte {v : Byte}
    (h : decbLoop s (s.bitlen.toNat - s.rdptr.toNat) s.rdptr.toNat s.dpos = .byte r d v) :
    decodeByte s = s.decodedByte r d v := by
  simp only [decodeByte, h]

end

/-- Settles O24: DSTEP commands along DECB's path of moves reach `u`, and one more DSTEP at `u` meets the DecodeStep result that ended
DECB. -/
theorem decbEqualsDsteps : Obligations.DecbEqualsDsteps := by
  intro s t hfault hexec
  obtain rfl : decodeByte s = t := Host.Outcome.next.inj ((exec_decb_clear hfault).symm.trans hexec)
  obtain ⟨path, d, hbits, hlen, hat, hint, hend⟩ := decbLoop_cases s _ s.rdptr.toNat s.dpos rfl
  obtain ⟨u, hrun, hsame, hrdptr, rfl⟩ := exists_execAll_dstep_path hfault hbits hlen hat hint
  have hclear : u.fault = false := hsame.fault_eq.trans hfault
  have hstep := hsame.decodeStep_eq u.rdptr.toNat u.dpos
  rw [← hrdptr] at hend
  have hsteps := execAll_replicate_dstep_succ hrun hclear
  obtain ⟨hr, hloop⟩ | ⟨c, info, hfail, hloop⟩ | ⟨r, d, v, hemit, hloop⟩ := hend
  · rw [decodeBit_of_empty (hstep.trans (decodeStep_empty hr _)), hsame.decodedEmpty_eq] at hsteps
    rw [decodeByte_of_ranOut hloop]
    refine ⟨fun _ => ?_, fun h => absurd h (by simp [hfault])⟩
    have hcount : u.rdptr.toNat - s.rdptr.toNat + 1 = path.length + 1 := by omega
    simpa [hcount] using hsteps
  · rw [decodeBit_of_fail (hstep.trans hfail)] at hsteps
    rw [decodeByte_of_failed hloop]
    refine ⟨fun h => absurd h (by simp),
      fun _ => ⟨s.raise_sameButRecord c info, path.length, _, hsteps, u.raise_fault c info, ?_⟩⟩
    simp [State.raise_clear hclear, State.raise_clear hfault, hrdptr]
  · rw [decodeBit_of_emit (hstep.trans hemit), hsame.decodedByte_eq] at hsteps
    rw [decodeByte_of_byte hloop]
    refine ⟨fun _ => ?_, fun h => absurd h (by simp [hfault])⟩
    obtain ⟨hr, rfl, -⟩ := of_decodeStep_emit hemit
    have hbitlen := s.bitlen.isLt
    have hcount : u.rdptr.toNat + 1 - s.rdptr.toNat = path.length + 1 := by omega
    rw [State.decodedByte_rdptr, toNat_ofNat_word (by omega), hcount]
    exact hsteps

end Sys2Proof.Machine
end

