-- ==== Sys2Proof/Proofs/DecodeLoop.lean ====
section
/-! The host's decode loop against the §4.5 state machine (43_decoder.md R163, 49_host_reference.md R197): every DECB performs the
machine's iterations up to the next leaf, and the loop collects what the machine outputs. -/

namespace Sys2Proof.Machine
open HostProgram

/-! ### The state machine from a read position on -/

/-- The §4.5 state machine run from read position `r` and node `d` over the bits left. -/
def State.machineFrom (s : State) (r : Nat) (d : NodeIdx) : Option (List Byte × NodeIdx) :=
  referenceDecode s.tree s.ncount s.root d (s.bitsFrom r (s.bitlen.toNat - r))

section
variable {s : State} {r : Nat} {d : NodeIdx}

theorem State.machineFrom_of_le (hr : s.bitlen.toNat ≤ r) : s.machineFrom r d = some ([], d) := by
  simp [State.machineFrom, Nat.sub_eq_zero_of_le hr, State.bitsFrom, referenceDecode]

/-- With a bit left the machine consumes it. -/
theorem State.machineFrom_of_lt (hr : r < s.bitlen.toNat) :
    s.machineFrom r d = referenceDecode s.tree s.ncount s.root d
      (readBit s.bits r :: s.bitsFrom (r + 1) (s.bitlen.toNat - (r + 1))) := by
  have hleft : s.bitlen.toNat - r = s.bitlen.toNat - (r + 1) + 1 := by omega
  rw [State.machineFrom, hleft, State.bitsFrom_succ]

/-- Where DecodeStep faults the machine has no move. -/
theorem State.machineFrom_of_fail {c : FaultCode} {info : Word} (h : decodeStep s r d = .fail c info) :
    s.machineFrom r d = none := by
  obtain ⟨_, e⟩ | ⟨hr, hc, -⟩ | ⟨hr, -, hn, -⟩ | ⟨_, _, _, _, e⟩ | ⟨_, _, _, _, e⟩ := decodeStep_cases s r d
  case inr.inl => simp [State.machineFrom_of_lt hr, referenceDecode, hc]
  case inr.inr.inl => simp [State.machineFrom_of_lt hr, referenceDecode, Nat.not_lt.mpr hn]
  all_goals rw [e] at h; cases h

/-- At a leaf the machine outputs its value and goes on from where DecodeStep does. -/
theorem State.machineFrom_of_emit {r' : Nat} {d' : NodeIdx} {v : Byte} (h : decodeStep s r d = .emit r' d' v) :
    s.machineFrom r d = (s.machineFrom r' d').map fun x => (v :: x.1, x.2) := by
  obtain ⟨hr, rfl, rfl, hc, hn, hl, rfl⟩ := of_decodeStep_emit h
  rw [State.machineFrom_of_lt hr, referenceDecode]
  simp only [hc, hn, hl, and_self, if_true, State.machineFrom]

/-- Along a path of moves the machine outputs nothing. -/
theorem State.machineFrom_of_path {path : List Bool} {d' : NodeIdx} (hbits : s.bitsFrom r path.length = path)
    (hlen : r + path.length ≤ max r s.bitlen.toNat) (hat : nodeAt s.tree s.ncount d path = some d')
    (hint : path ≠ [] → nodeIsLeaf (nodeWord s.tree d') = false) :
    s.machineFrom r d = s.machineFrom (r + path.length) d' := by
  have hleft : s.bitlen.toNat - r = path.length + (s.bitlen.toNat - (r + path.length)) := by omega
  rw [State.machineFrom, hleft, State.bitsFrom_add, hbits, referenceDecode_moves hat hint, State.machineFrom]

end

/-- DECB performs the machine's iterations up to and including the next leaf, or all of them where no leaf follows (R163). -/
theorem decodeByte_machineFrom_cases (s : State) :
    (∃ d : NodeIdx, s.machineFrom s.rdptr.toNat s.dpos = some ([], d) ∧
      decodeByte s = s.decodedEmpty (max s.rdptr.toNat s.bitlen.toNat) d) ∨
    (s.machineFrom s.rdptr.toNat s.dpos = none ∧ ∃ c info, decodeByte s = s.raise c info) ∨
    (∃ (r : Nat) (d : NodeIdx) (v : Byte), s.rdptr.toNat < r ∧ r ≤ s.bitlen.toNat ∧
      s.machineFrom s.rdptr.toNat s.dpos = (s.machineFrom r d).map (fun x => (v :: x.1, x.2)) ∧
      decodeByte s = s.decodedByte r d v) := by
  obtain ⟨path, d, hbits, hlen, hat, hint, hend⟩ := decbLoop_cases s _ s.rdptr.toNat s.dpos rfl
  rw [State.machineFrom_of_path hbits hlen hat hint]
  obtain ⟨hr, hloop⟩ | ⟨c, info, hfail, hloop⟩ | ⟨r, d', v, hemit, hloop⟩ := hend
  · have hmax : s.rdptr.toNat + path.length = max s.rdptr.toNat s.bitlen.toNat := by omega
    exact .inl ⟨d, State.machineFrom_of_le hr, hmax ▸ decodeByte_of_ranOut hloop⟩
  · exact .inr (.inl ⟨State.machineFrom_of_fail hfail, c, info, decodeByte_of_failed hloop⟩)
  · obtain ⟨hr, rfl, -⟩ := of_decodeStep_emit hemit
    exact .inr (.inr ⟨_, d', v, by omega, hr, State.machineFrom_of_emit hemit, decodeByte_of_byte hloop⟩)

/-! ### One round of the loop (R197) -/

theorem run_decb_status {s : State} (hfault : s.fault = false) :
    run [.cmd .decb, .rd (.reg .status)] s = .next ((decodeByte s).reply (decodeByte s).status) := by
  have hdecb : perform (Line.cmd .decb).request s = .next (decodeByte s) :=
    (perform_command (i := .decb) rfl s).trans (exec_decb_clear hfault)
  have hstatus : perform (Line.rd (.reg .status)).request (decodeByte s) =
      .next ((decodeByte s).reply (decodeByte s).status) :=
    perform_readReg .status _
  simp only [run, hdecb, hstatus]

theorem run_rd_dout (s : State) : run [.rd (.reg .dout)] s = .next (s.reply (s.dout.setWidth 32)) :=
  (run_singleton _ s).trans (perform_readReg .dout s)

/-- The state after a round that collects `v`: DECB's end and the two values read. -/
def State.afterRound (s : State) (r : Nat) (d : NodeIdx) (v : Byte) : State :=
  ((s.decodedByte r d v).reply (s.decodedByte r d v).status).reply (v.setWidth 32)

/-- The low byte of a byte read as a word (R111). -/
theorem extractLsb'_setWidth_word (b : Byte) : (b.setWidth 32).extractLsb' 0 8 = b := by
  rw [← BitVec.setWidth_eq_extractLsb' (by decide), BitVec.setWidth_setWidth (by decide), BitVec.setWidth_eq]

section
variable {s : State} (hfault : s.fault = false) (rounds : Nat)
include hfault

theorem decall_of_decodedEmpty {r : Nat} {d : NodeIdx} (h : decodeByte s = s.decodedEmpty r d) :
    decall (rounds + 1) s = some ([], (s.decodedEmpty r d).reply (s.decodedEmpty r d).status) := by
  obtain ⟨hstFault, hstDvalid, hstDempty, -⟩ := statusFields (s.decodedEmpty r d)
  rw [decall, run_decb_status hfault, h]
  simp only [State.reply_replies, List.headD_cons, hstFault, hstDvalid, hstDempty, State.decodedEmpty_fault, hfault,
    State.decodedEmpty_dvalid, State.decodedEmpty_dempty, Bool.false_eq_true, if_false, if_true, run]

theorem decall_of_raise {c : FaultCode} {info : Word} (h : decodeByte s = s.raise c info) :
    decall (rounds + 1) s = none := by
  obtain ⟨hstFault, -⟩ := statusFields (s.raise c info)
  rw [decall, run_decb_status hfault, h]
  simp only [State.reply_replies, List.headD_cons, hstFault, State.raise_fault, if_true]

theorem decall_of_decodedByte {r : Nat} {d : NodeIdx} {v : Byte} (h : decodeByte s = s.decodedByte r d v) :
    decall (rounds + 1) s = (decall rounds (s.afterRound r d v)).map fun x => (v :: x.1, x.2) := by
  obtain ⟨hstFault, hstDvalid, hstDempty, -⟩ := statusFields (s.decodedByte r d v)
  rw [decall, run_decb_status hfault, h]
  simp only [State.reply_replies, List.headD_cons, hstFault, hstDvalid, hstDempty, State.decodedByte_fault, hfault,
    State.decodedByte_dvalid, State.decodedByte_dempty, Bool.false_eq_true, if_false, if_true, run_rd_dout,
    State.reply_dout, State.decodedByte_dout, extractLsb'_setWidth_word, State.afterRound, List.singleton_append]

end

/-! ### The loop (R163) -/

theorem State.rdptr_afterRound_toNat {s : State} {r : Nat} (hr : r ≤ s.bitlen.toNat) (d : NodeIdx) (v : Byte) :
    (s.afterRound r d v).rdptr.toNat = r :=
  toNat_ofNat_word (hr.trans_lt s.bitlen.isLt)

/-- The machine goes on from the state after a round as from the position DECB left. -/
theorem State.machineFrom_afterRound {s : State} {r : Nat} (hr : r ≤ s.bitlen.toNat) (d : NodeIdx) (v : Byte) :
    (s.afterRound r d v).machineFrom (s.afterRound r d v).rdptr.toNat (s.afterRound r d v).dpos = s.machineFrom r d := by
  rw [State.rdptr_afterRound_toNat hr]
  rfl

/-- Whatever the loop collects, the machine outputs. -/
theorem machineFrom_of_decall {rounds : Nat} {s t : State} {out : List Byte} (hfault : s.fault = false)
    (h : decall rounds s = some (out, t)) : s.machineFrom s.rdptr.toNat s.dpos = some (out, t.dpos) := by
  induction rounds generalizing s out with
  | zero => cases h
  | succ rounds ih =>
    obtain ⟨d, hmachine, hdecb⟩ | ⟨-, c, info, hdecb⟩ | ⟨r, d, v, -, hr, hmachine, hdecb⟩ :=
      decodeByte_machineFrom_cases s
    · rw [decall_of_decodedEmpty hfault rounds hdecb] at h
      cases h
      exact hmachine
    · rw [decall_of_raise hfault rounds hdecb] at h
      cases h
    · rw [decall_of_decodedByte hfault rounds hdecb, Option.map_eq_some_iff] at h
      obtain ⟨⟨out', t'⟩, hrest, heq⟩ := h
      cases heq
      rw [hmachine, ← State.machineFrom_afterRound hr d v, ih (s := s.afterRound r d v) hfault hrest]
      rfl

/-- Where the machine meets no absent child and no bad index, one round per bit left and one more collect its output. -/
theorem exists_decall_of_machineFrom {rounds : Nat} {s : State} {out : List Byte} {d : NodeIdx}
    (hfault : s.fault = false) (hrdptr : s.rdptr.toNat ≤ s.bitlen.toNat)
    (hrounds : s.bitlen.toNat - s.rdptr.toNat < rounds)
    (h : s.machineFrom s.rdptr.toNat s.dpos = some (out, d)) :
    ∃ t : State, decall rounds s = some (out, t) ∧ t.rdptr = s.bitlen ∧ t.dpos = d := by
  induction rounds generalizing s out with
  | zero => exact absurd hrounds (Nat.not_lt_zero _)
  | succ rounds ih =>
    obtain ⟨d', hmachine, hdecb⟩ | ⟨hmachine, -⟩ | ⟨r, d', v, hlt, hr, hmachine, hdecb⟩ :=
      decodeByte_machineFrom_cases s
    · obtain ⟨rfl, rfl⟩ := Prod.mk.inj (Option.some.inj (hmachine.symm.trans h))
      refine ⟨_, decall_of_decodedEmpty hfault rounds hdecb, ?_, rfl⟩
      simp [Nat.max_eq_right hrdptr]
    · cases hmachine.symm.trans h
    · rw [hmachine, Option.map_eq_some_iff] at h
      obtain ⟨⟨out', d''⟩, hrest, heq⟩ := h
      cases heq
      have hnext := State.rdptr_afterRound_toNat hr d' v
      have hleft : s.bitlen.toNat - (s.afterRound r d' v).rdptr.toNat < rounds := by omega
      obtain ⟨t, hloop, ht⟩ := ih (s := s.afterRound r d' v) hfault (hnext.trans_le hr) hleft
        ((State.machineFrom_afterRound hr d' v).trans hrest)
      refine ⟨t, ?_, ht⟩
      rw [decall_of_decodedByte hfault rounds hdecb, hloop]
      rfl

/-- Settles O25: from RDPTR = 0 and DPOS at the root, `State.machineFrom` is the state machine over the whole sequence. -/
theorem decodeLoopMatchesStateMachine : Obligations.DecodeLoopMatchesStateMachine := by
  intro s hfault hrdptr hdpos
  have hstart : s.rdptr.toNat = 0 := by rw [hrdptr]; rfl
  have hmachine : s.machineFrom s.rdptr.toNat s.dpos =
      referenceDecode s.tree s.ncount s.root s.root (s.bitsFrom 0 s.bitlen.toNat) := by
    rw [hstart, hdpos]
    rfl
  rw [← hmachine]
  exact ⟨fun rounds out t => machineFrom_of_decall hfault,
    fun out d => exists_decall_of_machineFrom hfault (by omega) (by omega)⟩

end Sys2Proof.Machine
end

