-- ==== Sys2Proof/Proofs/TableBuild.lean ====
section
/-! The code table of a BUILDTAB that completes (44_table_build.md R182, R183): each valid code is the path from the root to a leaf that
holds its byte, so codes are prefix-free, and the decoder's iterations follow a code to its leaf. -/

namespace Sys2Proof.Machine

/-! ### The table of a BUILDTAB that completes (R180) -/

/-- A BUILDTAB that ends with no fault has recorded the leaf paths of a shape that fits. -/
theorem exists_shape_of_exec_buildtab {s t : State} (hfault : s.fault = false) (hexec : exec .buildtab s = .next t)
    (hdone : t.fault = false) :
    ∃ shape : Shape, shape.Represents s.tree s.ncount s.root ∧ shape.depth ≤ 255 ∧
      t = { s with code := recordPaths s.tree s.ncount s.root [] [] shape.leafPaths } := by
  obtain rfl : buildTable s = t := Host.Outcome.next.inj ((exec_buildtab_clear hfault).symm.trans hexec)
  obtain ⟨shape, hrep, -, hdepth, htable⟩ | ⟨c, info, -, hraise⟩ := buildTable_cases s
  · exact ⟨shape, hrep, hdepth, htable⟩
  · rw [hraise, State.raise_fault] at hdone
    cases hdone

/-- Each valid code leads from the root to a leaf that holds its byte. -/
theorem exists_leaf_of_exec_buildtab {s t : State} (hfault : s.fault = false) (hexec : exec .buildtab s = .next t)
    (hdone : t.fault = false) {b : Byte} (hvalid : codeValid t.code b = true) :
    ∃ c, nodeAt t.tree t.ncount t.root (codePath t.code b) = some c ∧ nodeIsLeaf (nodeWord t.tree c) = true ∧
      nodeValue (nodeWord t.tree c) = b := by
  obtain ⟨shape, hrep, hdepth, rfl⟩ := exists_shape_of_exec_buildtab hfault hexec hdone
  exact leaf_of_codeValid hrep hdepth hvalid

/-- Settles O34: the longer code would leave the leaf where the shorter one ends, so both end at one leaf, which holds both bytes. -/
theorem buildtabIsPrefixFree : Obligations.BuildtabIsPrefixFree := by
  intro s t hfault hexec hdone b c hb hc hprefix
  obtain ⟨i, hati, hleaf, rfl⟩ := exists_leaf_of_exec_buildtab hfault hexec hdone hb
  obtain ⟨j, hatj, -, rfl⟩ := exists_leaf_of_exec_buildtab hfault hexec hdone hc
  obtain ⟨rest, hrest⟩ := hprefix
  rw [← hrest] at hatj
  obtain rfl := eq_of_nodeAt_leaf_append hati hleaf hatj
  rw [List.append_nil, hati] at hatj
  rw [Option.some.inj hatj]

/-! ### Decode iterations along a code (R183) -/

theorem nodeAt_cons_eq_some_iff {tree : Memory} {n i c : NodeIdx} {x : Bool} {path : List Bool} :
    nodeAt tree n i (x :: path) = some c ↔
      nodeHasChild (nodeWord tree i) x = true ∧ (nodeChild (nodeWord tree i) x).toNat < n.toNat ∧
        nodeAt tree n (nodeChild (nodeWord tree i) x) path = some c := by
  simp [nodeAt, and_assoc]

/-- Where the next k + 1 bits lead from d to a leaf, k iterations move along them and one more emits the leaf's value; `nodes j` is the
tree position before iteration j. -/
theorem exists_decodeStep_nodes_to_leaf {s : State} {k r : Nat} {d c : NodeIdx} (hlen : r + (k + 1) ≤ s.bitlen.toNat)
    (hat : nodeAt s.tree s.ncount d (s.bitsFrom r (k + 1)) = some c) (hleaf : nodeIsLeaf (nodeWord s.tree c) = true) :
    ∃ nodes : Nat → NodeIdx, nodes 0 = d ∧
      (∀ j < k, decodeStep s (r + j) (nodes j) = .move (r + j + 1) (nodes (j + 1))) ∧
      decodeStep s (r + k) (nodes k) = .emit (r + k + 1) s.root (nodeValue (nodeWord s.tree c)) := by
  induction k generalizing r d with
  | zero =>
    rw [State.bitsFrom_succ] at hat
    obtain ⟨hchild, hlt, hend⟩ := nodeAt_cons_eq_some_iff.mp hat
    obtain rfl := Option.some.inj hend
    exact ⟨fun _ => d, rfl, fun j hj => absurd hj (Nat.not_lt_zero j), decodeStep_emit hlen hchild hlt hleaf⟩
  | succ k ih =>
    rw [State.bitsFrom_succ] at hat
    obtain ⟨hchild, hlt, hrest⟩ := nodeAt_cons_eq_some_iff.mp hat
    obtain ⟨nodes, hstart, hmoves, hemit⟩ := ih (by omega) hrest
    rw [State.bitsFrom_succ] at hrest
    have hmove := decodeStep_move (by omega) hchild hlt (not_leaf_of_nodeAt hrest)
    have hshift (j : Nat) : r + 1 + j = r + (j + 1) := by omega
    simp only [hshift] at hmoves hemit
    refine ⟨fun | 0 => d | j + 1 => nodes j, rfl, fun j hj => ?_, hemit⟩
    cases j with
    | zero => simpa only [Nat.add_zero, hstart] using hmove
    | succ j => exact hmoves j (Nat.lt_of_succ_lt_succ hj)

/-- Settles O35: the valid code leads from the root to a leaf that holds b, and the bits at r are that code. -/
theorem buildtabAgreesWithDecoder : Obligations.BuildtabAgreesWithDecoder := by
  rintro s t u b r m hfault hexec hdone htree hncount hvalid hm hpos hbits hlen
  obtain ⟨c, hat, hleaf, rfl⟩ := exists_leaf_of_exec_buildtab hfault hexec hdone hvalid
  have hcode : u.bitsFrom r m = codePath t.code (nodeValue (nodeWord t.tree c)) := by
    rw [codePath, ← hm]
    exact List.map_congr_left fun j hj => hbits j (List.mem_range.mp hj)
  obtain ⟨k, rfl⟩ := Nat.exists_eq_add_of_le' hpos
  rw [State.root, ← hcode, ← htree, ← hncount] at hat
  rw [← htree] at hleaf ⊢
  obtain ⟨nodes, hstart, hmoves, hemit⟩ := exists_decodeStep_nodes_to_leaf hlen hat hleaf
  exact ⟨nodes, hstart, fun j hj => hmoves j (Nat.lt_of_succ_lt_succ hj), hemit⟩

end Sys2Proof.Machine
end

