-- ==== Sys2Proof/Proofs/HostLines.lean ====
section
/-! What runs of host program lines do (30_encoding.md R88, R89, 49_host_reference.md R195 to R197): commands, the node words of
`loadtree`, the bit words of `loadbits`, and reads of bit words. -/

namespace Sys2Proof

/-- A command's own encoding decodes to it (R84). -/
theorem decode_encode (i : Instr) : decode (encode i) = .ok i := by
  cases i with
  | encb b =>
    have hbyte : byteField (encode (.encb b)) = b := (byteField_append _ _).trans (extractLsb'_setWidth_byte b)
    have haccepts : Format.cb.accepts (Instr.encb b).operandField = true := (Instr.encb b).wellFormed_of_byte
    rw [decode, opField_encode, operandBits_encode, hbyte]
    exact if_pos haccepts
  | _ => rfl

end Sys2Proof

namespace Sys2Proof.Machine
open HostProgram

/-! ### Commands and register reads -/

theorem run_cons_of_next {l : Line} {s u : State} (h : perform l.request s = .next u) (ls : List Line) :
    run (l :: ls) s = run ls u := by
  simp only [run, h]

theorem run_append_of_next {ls : List Line} {s u : State} (h : run ls s = .next u) (ls' : List Line) :
    run (ls ++ ls') s = run ls' u := by
  simp only [run_append, h]

theorem perform_cmd (i : Instr) (s : State) : perform (Line.cmd i).request s = exec i s :=
  perform_command (decode_encode i) s

/-- The lines of a list of commands run them one after the other. -/
theorem run_map_cmd (is : List Instr) (s : State) : run (is.map Line.cmd) s = execAll is s := by
  induction is generalizing s with
  | nil => rfl
  | cons i is ih =>
    obtain ⟨t, ht⟩ := exec_next i s
    rw [List.map_cons, run_cons_of_next ((perform_cmd i s).trans ht), execAll_cons_of_next ht, ih]

theorem run_encs (bs : List Byte) (s : State) : run (encs bs) s = execAll (bs.map Instr.encb) s := by
  rw [← run_map_cmd, List.map_map]
  rfl

theorem run_rd_reg (r : Reg) (s : State) : run [.rd (.reg r)] s = .next (s.reply (readReg s r)) :=
  (run_singleton _ s).trans (perform_readReg r s)

/-! ### Words stored one after the other -/

/-- `vs` stored as consecutive words from offset `a` on. -/
def Memory.storeWords (m : Memory) (a : Nat) : List Word → Memory
  | [] => m
  | v :: vs => Memory.storeWords (Memory.writeWord m a v) (a + 4) vs

theorem Memory.readWord_storeWords_below (m : Memory) (vs : List Word) {a b : Nat} (h : b + 4 ≤ a) :
    Memory.readWord (Memory.storeWords m a vs) b = Memory.readWord m b := by
  induction vs generalizing m a with
  | nil => rfl
  | cons v vs ih => exact (ih _ (by omega)).trans (Memory.readWord_writeWord_outside _ _ _ (.inl h))

theorem Memory.readWord_storeWords (m : Memory) (a : Nat) {vs : List Word} {i : Nat} (h : i < vs.length) :
    Memory.readWord (Memory.storeWords m a vs) (a + 4 * i) = vs[i] := by
  induction vs generalizing m a i with
  | nil => exact absurd h (Nat.not_lt_zero i)
  | cons v vs ih =>
    cases i with
    | zero => exact (Memory.readWord_storeWords_below _ vs (Nat.le_refl _)).trans (Memory.readWord_writeWord_same m a v)
    | succ i =>
      have haddr : a + 4 * (i + 1) = a + 4 + 4 * i := by omega
      rw [haddr]
      exact ih _ _ (Nat.lt_of_succ_lt_succ h)

/-! ### loadtree (R195) -/

theorem nodeAddr_ofNat {i : Nat} (h : i < 512) : nodeAddr (BitVec.ofNat 9 i) = 0x1000 + 4 * i := by
  rw [nodeAddr, BitVec.toNat_ofNat, Nat.mod_eq_of_lt h]

theorem run_wr_nodes {ws : List Word} {k : Nat} (h : k + ws.length ≤ 511) (s : State) :
    run ((ws.zipIdx k).map fun x => Line.wr (.node x.2) x.1) s =
      .next { s with tree := Memory.storeWords s.tree (0x1000 + 4 * k) (ws.map (· &&& nodeMask)) } := by
  induction ws generalizing k s with
  | nil => rfl
  | cons w ws ih =>
    rw [List.length_cons] at h
    have hwrite : perform (Line.wr (.node k) w).request s =
        .next { s with tree := Memory.writeWord s.tree (0x1000 + 4 * k) (w &&& nodeMask) } := by
      rw [← nodeAddr_ofNat (by omega)]
      exact perform_write_of_accepted (accepted_node s (by omega)) w
    rw [List.zipIdx_cons, List.map_cons, run_cons_of_next hwrite, ih (by omega)]
    rfl

/-- The state after `loadtree ws`: the words stored with their reserved bits dropped, and the walk at the new root (R195). -/
def State.loadTree (s : State) (ws : List Word) : State :=
  { s with
    tree := Memory.storeWords s.tree 0x1000 (ws.map (· &&& nodeMask))
    ncount := BitVec.ofNat 9 ws.length
    dpos := BitVec.ofNat 9 ws.length - 1 }

theorem run_loadtree {ws : List Word} (hpos : 1 ≤ ws.length) (hlen : ws.length ≤ 511) (s : State) :
    run (loadtree ws) s = .next (s.loadTree ws) := by
  have hcount : (BitVec.ofNat 32 ws.length).toNat = ws.length := toNat_ofNat_word (by omega)
  have hwidth : (BitVec.ofNat 32 ws.length).setWidth 9 = BitVec.ofNat 9 ws.length :=
    BitVec.setWidth_ofNat_of_le (by decide) _
  rw [loadtree, run_append_of_next (run_wr_nodes (by omega) s), run_singleton]
  refine (perform_writeReg .ncount _ _).trans (congrArg Host.Outcome.next ?_)
  rw [writeNcount_of_in_range (by omega) (by omega), setWidth_sub_one, hwidth]
  rfl

/-- The tree RAM and NCOUNT hold the words of a tree, stored as R81 says. -/
def State.HoldsTree (s : State) (ws : List Word) : Prop :=
  s.ncount.toNat = ws.length ∧
    ∀ i (h : i < ws.length), nodeWord s.tree (BitVec.ofNat 9 i) = ws[i] &&& nodeMask

theorem State.loadTree_holdsTree (s : State) {ws : List Word} (hlen : ws.length ≤ 511) :
    (s.loadTree ws).HoldsTree ws := by
  refine ⟨(BitVec.toNat_ofNat _ _).trans (Nat.mod_eq_of_lt (by omega)), fun i hi => ?_⟩
  rw [nodeWord, nodeAddr_ofNat (by omega), State.loadTree, Memory.readWord_storeWords _ _ (by rwa [List.length_map]),
    List.getElem_map]

/-- Two states that hold the same tree have the same NCOUNT. -/
theorem State.HoldsTree.ncount_eq {s t : State} {ws : List Word} (hs : s.HoldsTree ws) (ht : t.HoldsTree ws) :
    s.ncount = t.ncount :=
  BitVec.eq_of_toNat_eq (hs.1.trans ht.1.symm)

/-- Two states that hold the same tree have the same node words below NCOUNT. -/
theorem State.HoldsTree.nodeWord_eq {s t : State} {ws : List Word} (hs : s.HoldsTree ws) (ht : t.HoldsTree ws)
    {j : NodeIdx} (hj : j.toNat < s.ncount.toNat) : nodeWord s.tree j = nodeWord t.tree j := by
  obtain ⟨hncount, hwords⟩ := hs
  have hlt : j.toNat < ws.length := hncount ▸ hj
  have hindex : BitVec.ofNat 9 j.toNat = j := BitVec.eq_of_toNat_eq (Nat.mod_eq_of_lt j.isLt)
  rw [← hindex, hwords _ hlt, ht.2 _ hlt]

/-! ### loadbits and reads of bit words (R196, R197) -/

theorem run_wr_bitws {vs : List Word} {k : Nat} (s : State) (hcap : s.cap.toNat ≤ 262144)
    (h : k + vs.length ≤ s.cap.toNat / 32) :
    run ((vs.zipIdx k).map fun x => Line.wr (.bitw x.2) x.1) s =
      .next { s with bits := Memory.storeWords s.bits (bitWordAddr k) vs } := by
  induction vs generalizing k s with
  | nil => rfl
  | cons v vs ih =>
    rw [List.length_cons] at h
    have hwrite : perform (Line.wr (.bitw k) v).request s =
        .next { s with bits := Memory.writeWord s.bits (bitWordAddr k) v } :=
      perform_write_of_accepted (accepted_bitWord hcap (by omega)) v
    rw [List.zipIdx_cons, List.map_cons, run_cons_of_next hwrite, ih]
    · rfl
    · exact hcap
    · rw [Nat.add_right_comm]; exact h

theorem run_wr_bitlen_rdptr {s : State} {len : Word} (hlen : len.toNat ≤ s.cap.toNat) :
    run [.wr (.reg .bitlen) len, .wr (.reg .rdptr) 0] s =
      .next { s with bitlen := len, rdptr := 0, dpos := s.root } := by
  have hbitlen : perform (Line.wr (.reg .bitlen) len).request s = .next { s with bitlen := len } :=
    (perform_writeReg .bitlen len s).trans (congrArg Host.Outcome.next (writeBitlen_of_le hlen))
  rw [run_cons_of_next hbitlen, run_singleton]
  exact (perform_writeReg .rdptr 0 _).trans (congrArg Host.Outcome.next (writeRdptr_of_le (Nat.zero_le _)))

/-- The state after `loadbits len vs`: the bit words, BITLEN, and the decoder at the start (R89). -/
def State.loadBits (s : State) (len : Word) (vs : List Word) : State :=
  { s with bits := Memory.storeWords s.bits (bitWordAddr 0) vs, bitlen := len, rdptr := 0, dpos := s.root }

theorem run_loadbits {s : State} {len : Word} {vs : List Word} (hcap : s.cap.toNat ≤ 262144)
    (hvs : vs.length ≤ s.cap.toNat / 32) (hlen : len.toNat ≤ s.cap.toNat) :
    run (loadbits len vs) s = .next (s.loadBits len vs) := by
  rw [loadbits, run_append_of_next (run_wr_bitws s hcap (by omega))]
  exact run_wr_bitlen_rdptr hlen

/-- `BIT(j)` of the words loaded is the bit of its word (R83). -/
theorem State.readBit_loadBits (s : State) (len : Word) {vs : List Word} {j : Nat} (h : j / 32 < vs.length) :
    readBit (s.loadBits len vs).bits j = (vs.getD (j / 32) 0).getLsbD (31 - j % 32) := by
  have hword : bitWordAddr (j / 32) = bitWordAddr 0 + 4 * (j / 32) := by unfold bitWordAddr; omega
  rw [readBit, hword, State.loadBits, Memory.readWord_storeWords _ _ h, List.getD_eq_getElem _ _ h]

/-- Reads of bit words put their values in front of the replies, the last one first. -/
theorem run_rd_bitws {s : State} (hcap : s.cap.toNat ≤ 262144) {n : Nat} (h : n ≤ s.cap.toNat / 32) :
    run ((List.range n).map fun w => Line.rd (.bitw w)) s =
      .next { s with
        replies := ((List.range n).map fun w => Memory.readWord s.bits (bitWordAddr w)).reverse ++ s.replies } := by
  induction n with
  | zero => rfl
  | succ n ih =>
    rw [List.range_succ, List.map_append, run_append_of_next (ih (by omega)), List.map_singleton, run_singleton]
    refine (perform_read_bitWord ?_ ?_).trans (congrArg Host.Outcome.next ?_)
    · exact hcap
    · exact h
    · simp [State.reply]

end Sys2Proof.Machine
end

