-- ==== Sys2Proof/Proofs/HostTable.lean ====
section
/-! The code table BUILDTAB makes of a host tree (49_host_reference.md R198, R201, 44_table_build.md R181): every byte of the input has
a non-empty code that leads from the root to a leaf with its value. -/

namespace Sys2Proof.Machine
open HostProgram HostReference

/-! ### Bytes of leaves have entries (R180) -/

theorem exists_lastPath_of_mem_leafValues {tree : Memory} {n i : NodeIdx} {shape : Shape} {b : Byte}
    (hb : b ∈ leafValues tree n i shape) : ∃ p, lastPath tree n i shape.leafPaths b = some p := by
  obtain ⟨p, hp, hvalue⟩ := List.mem_map.mp hb
  refine Option.ne_none_iff_exists'.mp fun hnone => ?_
  have hempty := List.getLast?_eq_none_iff.mp hnone
  have hmem := (List.mem_filter (p := fun p => leafValue tree n i p == b)).mpr ⟨hp, beq_iff_eq.mpr hvalue⟩
  rw [hempty] at hmem
  cases hmem

theorem codeValid_of_mem_leafValues {tree : Memory} {n i : NodeIdx} {shape : Shape} {b : Byte}
    (hrep : shape.Represents tree n i) (hdepth : shape.depth ≤ 255) (hb : b ∈ leafValues tree n i shape) :
    codeValid (recordPaths tree n i [] [] shape.leafPaths) b = true := by
  obtain ⟨p, hp⟩ := exists_lastPath_of_mem_leafValues hb
  have hentry := entry_recordPaths tree n i [] shape.leafPaths b fun q hq => by
    obtain ⟨_, _, _, hlen⟩ := Shape.nodeAt_of_mem_leafPaths hrep hq
    omega
  rw [hp] at hentry
  exact hentry.1

/-! ### Codes that lead to their bytes (R183) -/

/-- The non-empty code of `b` leads from the root to a leaf with value `b`. -/
def State.CodeLeadsTo (s : State) (b : Byte) : Prop :=
  codePath s.code b ≠ [] ∧ ∃ c, nodeAt s.tree s.ncount s.root (codePath s.code b) = some c ∧
    nodeIsLeaf (nodeWord s.tree c) = true ∧ nodeValue (nodeWord s.tree c) = b

theorem not_leaf_of_represents {tree : Memory} {n i : NodeIdx} {shape : Shape} (hrep : shape.Represents tree n i)
    (hsize : 2 ≤ shape.size) : nodeIsLeaf (nodeWord tree i) = false := by
  cases shape with
  | leaf => exact absurd hsize (by decide)
  | left l => exact not_leaf_of_hasChild (b := false) hrep.1
  | right r => exact not_leaf_of_hasChild (b := true) hrep.2.1
  | both l r => exact not_leaf_of_hasChild (b := false) hrep.1

/-- Under an internal root no code is empty (R181). -/
theorem State.codeLeadsTo_of_valid {s t : State} (hfault : s.fault = false) (hexec : exec .buildtab s = .next t)
    (hdone : t.fault = false) (hroot : nodeIsLeaf (nodeWord t.tree t.root) = false) {b : Byte}
    (hvalid : codeValid t.code b = true) : t.CodeLeadsTo b := by
  obtain ⟨c, hat, hleaf, hvalue⟩ := exists_leaf_of_exec_buildtab hfault hexec hdone hvalid
  refine ⟨fun hnil => ?_, c, hat, hleaf, hvalue⟩
  rw [hnil] at hat
  obtain rfl := Option.some.inj hat
  cases hroot.symm.trans hleaf

/-! ### The table of a host tree (R201) -/

theorem State.HoldsTree.root_eq {s : State} {ws : List Word} (h : s.HoldsTree ws) (hpos : 1 ≤ ws.length) :
    s.root = BitVec.ofNat 9 (ws.length - 1) := by
  obtain ⟨hncount, -⟩ := h
  have hlt := s.ncount.isLt
  apply BitVec.eq_of_toNat_eq
  rw [State.root_toNat (by omega), hncount, BitVec.toNat_ofNat, Nat.mod_eq_of_lt (by omega)]

/-- The tree of an input that has a byte has an inner node. -/
theorem two_le_treeWords_length {bs : List Byte} (h : bs ≠ []) : 2 ≤ (treeWords bs).length := by
  have hpos : (present bs).length ≠ 0 := fun h0 => h (present_eq_nil.mp (List.length_eq_zero_iff.mp h0))
  rw [treeWords_length]
  split <;> omega

/-- BUILDTAB on the host's tree changes the code RAM only; then every byte of the input has an entry, and its code leads to it. -/
theorem exists_code_of_holdsTree {s : State} {bs : List Byte} (hfault : s.fault = false)
    (htree : s.HoldsTree (treeWords bs)) :
    ∃ code : Memory, exec .buildtab s = .next { s with code := code } ∧
      ∀ b ∈ bs, codeValid code b = true ∧ ({ s with code := code } : State).CodeLeadsTo b := by
  obtain ⟨hpos, -⟩ := treeWords_length_bounds bs
  have hpresent := present_length bs
  obtain ⟨shape, hrep, hsize, hdepth, hvalues⟩ := treeWords_shape htree.1 htree.2
  rw [← htree.root_eq hpos] at hrep hvalues
  have hdepth255 : shape.depth ≤ 255 := by omega
  have hexec : exec .buildtab s = .next _ :=
    (exec_buildtab_clear hfault).trans
      (congrArg Host.Outcome.next (buildTable_of_represents hrep (hsize.trans htree.1.symm).le hdepth255))
  refine ⟨_, hexec, fun b hb => ?_⟩
  have hne : bs ≠ [] := List.ne_nil_of_mem hb
  rw [if_neg hne] at hvalues
  have hvalid := codeValid_of_mem_leafValues hrep hdepth255 (hvalues.mem_iff.mpr (mem_present.mpr hb))
  have hroot := not_leaf_of_represents hrep (hsize ▸ two_le_treeWords_length hne)
  exact ⟨hvalid, State.codeLeadsTo_of_valid hfault hexec hfault hroot hvalid⟩

end Sys2Proof.Machine
end

