-- ==== Sys2Proof/Proofs/HostEncode.lean ====
section
/-! The host's encode program (49_host_reference.md R196, R198): what the core holds before the first ENCB, when the run of ENCB
commands records no fault, and the Encoded value read at the end. -/

namespace Sys2Proof.Machine
open HostProgram HostReference

/-! ### Before the first ENCB -/

/-- The core before the first ENCB of input `bs`: the host's tree is loaded, and its code table is built. -/
structure State.ReadyToEncode (s : State) (bs : List Byte) : Prop where
  fault : s.fault = false
  bitlen : s.bitlen = 0
  tree : s.HoldsTree (treeWords bs)
  entry : ∀ b ∈ bs, codeValid s.code b = true ∧ s.CodeLeadsTo b

theorem exists_run_buildtab (bs : List Byte) (s : State) :
    ∃ t : State, run ([.cmd .sreset] ++ loadtree (treeWords bs) ++ [.cmd .buildtab]) s = .next t ∧
      t.cap = s.cap ∧ t.ReadyToEncode bs := by
  obtain ⟨hpos, hlen⟩ := treeWords_length_bounds bs
  have hreset : run [.cmd .sreset] s = .next s.resetState := (run_singleton _ s).trans (perform_cmd .sreset s)
  have htree := s.resetState.loadTree_holdsTree hlen
  obtain ⟨code, hexec, hentry⟩ := exists_code_of_holdsTree (s := s.resetState.loadTree (treeWords bs)) rfl htree
  refine ⟨{ s.resetState.loadTree (treeWords bs) with code := code }, ?_, rfl, ⟨rfl, rfl, htree, hentry⟩⟩
  rw [List.append_assoc, run_append_of_next hreset, run_append_of_next (run_loadtree hpos hlen _), run_singleton]
  exact (perform_cmd .buildtab _).trans hexec

/-! ### The run of ENCB commands (R151, R152) -/

/-- A run of ENCB commands never takes BITLEN above BITCAP. -/
theorem bitlen_le_cap_of_execAll_encb {s t : State} {bs : List Byte} (hrun : execAll (bs.map Instr.encb) s = .next t)
    (hle : s.bitlen.toNat ≤ s.cap.toNat) : t.bitlen.toNat ≤ t.cap.toNat := by
  induction bs generalizing s with
  | nil =>
    obtain rfl : s = t := Host.Outcome.next.inj hrun
    exact hle
  | cons b bs ih =>
    cases hfault : s.fault with
    | true =>
      rw [execAll_encb_faulted hfault] at hrun
      obtain rfl := Host.Outcome.next.inj hrun
      exact hle
    | false =>
      rw [List.map_cons, execAll_cons_of_next (exec_encb_clear hfault b)] at hrun
      obtain ⟨c, info, hraise⟩ | ⟨hvalid, hfits, -⟩ := encodeByte_cases b s
      · rw [hraise] at hrun
        exact ih hrun (by simpa using hle)
      · have hcap := s.cap.isLt
        rw [encodeByte_of_fits hvalid hfits] at hrun
        refine ih hrun ?_
        rw [State.appendBits_bitlen_toNat (by rw [codePath_length]; omega), codePath_length]
        exact hfits

/-- Where every byte has a code, the run records no fault exactly if the codes fit; then it appends them. -/
theorem execAll_encb_clear_iff {s t : State} {bs : List Byte} (hfault : s.fault = false)
    (hvalid : ∀ b ∈ bs, codeValid s.code b = true) (hle : s.bitlen.toNat ≤ s.cap.toNat)
    (hrun : execAll (bs.map Instr.encb) s = .next t) :
    t.fault = false ↔ s.bitlen.toNat + (bs.flatMap (codePath s.code)).length ≤ s.cap.toNat := by
  constructor
  · intro hclear
    obtain ⟨rfl, hsmall⟩ := eq_appendBits_of_execAll_encb hfault hrun hclear
    rw [← State.appendBits_bitlen_toNat hsmall]
    exact bitlen_le_cap_of_execAll_encb hrun hle
  · intro hfits
    obtain rfl := Host.Outcome.next.inj ((execAll_encb_of_fits hfault hvalid hfits).symm.trans hrun)
    exact hfault

/-! ### The Encoded value (R40, R196) -/

/-- The Encoded value the encode program reads from a core it has encoded `bs` on. -/
def State.hostEncoded (s : State) (bs : List Byte) : Encoded where
  tree := treeWords bs
  len := s.bitlen
  words := (List.range ((s.bitlen.toNat + 31) / 32)).map fun w => Memory.readWord s.bits (bitWordAddr w)

theorem State.hostEncoded_words_length (s : State) (bs : List Byte) :
    (s.hostEncoded bs).words.length = ((s.hostEncoded bs).len.toNat + 31) / 32 := by
  simp [State.hostEncoded]

/-- The words read hold the bits of the sequence. -/
theorem State.getLsbD_hostEncoded_words (s : State) (bs : List Byte) {j : Nat} (h : j < s.bitlen.toNat) :
    ((s.hostEncoded bs).words.getD (j / 32) 0).getLsbD (31 - j % 32) = readBit s.bits j := by
  have hword : j / 32 < (s.hostEncoded bs).words.length := by
    rw [State.hostEncoded_words_length]
    show j / 32 < (s.bitlen.toNat + 31) / 32
    omega
  rw [List.getD_eq_getElem _ _ hword]
  simp [State.hostEncoded, readBit]

/-- The host's check of STATUS sees the fault flag. -/
theorem faultShown_reply_status (s : State) : faultShown (s.reply s.status) = s.fault :=
  (statusFields s).1

theorem run_buildtab_status {s t : State} {ls : List Line} (hbuild : run (ls ++ [.cmd .buildtab]) s = .next t) :
    run (ls ++ [.cmd .buildtab, .rd (.reg .status)]) s = .next (t.reply t.status) := by
  rw [List.append_cons, run_append_of_next hbuild]
  exact run_rd_reg .status t

theorem run_encs_status {s u : State} {bs : List Byte} (hencode : execAll (bs.map Instr.encb) s = .next u) :
    run (encs bs ++ [.rd (.reg .status)]) s = .next (u.reply u.status) := by
  rw [run_append_of_next ((run_encs bs s).trans hencode)]
  exact run_rd_reg .status u

section
variable {s t u : State} {bs : List Byte}
  (hbuild : run ([.cmd .sreset] ++ loadtree (treeWords bs) ++ [.cmd .buildtab]) s = .next t) (hclear : t.fault = false)
  (hencode : execAll (bs.map Instr.encb) (t.reply t.status) = .next u)
include hbuild hclear hencode

theorem hostEncode_of_faulted (hfault : u.fault = true) : hostEncode bs s = none := by
  simp only [hostEncode, run_buildtab_status hbuild, run_encs_status hencode, faultShown_reply_status, hclear, hfault,
    Bool.false_eq_true, if_false, if_true]

theorem hostEncode_of_clear (hfault : u.fault = false) (hcap : Config.BitcapLegal u.cap.toNat)
    (hlen : u.bitlen.toNat ≤ u.cap.toNat) : hostEncode bs s = some (u.hostEncoded bs) := by
  obtain ⟨hmultiple, -, hcapLe⟩ := hcap
  have hwords : (u.bitlen.toNat + 31) / 32 ≤ u.cap.toNat / 32 := by omega
  have hread := run_rd_bitws (s := (u.reply u.status).reply u.bitlen) hcapLe hwords
  simp only [hostEncode, run_buildtab_status hbuild, run_encs_status hencode, faultShown_reply_status, hclear, hfault,
    Bool.false_eq_true, if_false, run_rd_reg, readReg, State.reply_bitlen, State.reply_replies, List.headD_cons, hread]
  simp [State.hostEncoded, List.take_left']

end

/-! ### When the program completes (R198) -/

/-- The encode program completes exactly where the codes fit the bit RAM; it then reads the core with the codes appended. -/
theorem hostEncode_eq_some_iff {s t : State} {bs : List Byte} {e : Encoded}
    (hbuild : run ([.cmd .sreset] ++ loadtree (treeWords bs) ++ [.cmd .buildtab]) s = .next t)
    (hready : t.ReadyToEncode bs) (hcap : Config.BitcapLegal t.cap.toNat) :
    hostEncode bs s = some e ↔ (bs.flatMap (codePath t.code)).length ≤ t.cap.toNat ∧
      (t.appendBits (bs.flatMap (codePath t.code))).hostEncoded bs = e := by
  obtain ⟨hfault, hbitlen, -, hentry⟩ := hready
  have hstart : t.bitlen.toNat = 0 := by rw [hbitlen]; rfl
  have hle : t.bitlen.toNat ≤ t.cap.toNat := by omega
  obtain ⟨u, hencode⟩ := execAll_next (bs.map Instr.encb) (t.reply t.status)
  have hiff := execAll_encb_clear_iff (s := t.reply t.status) hfault (fun b hb => (hentry b hb).1) hle hencode
  rw [State.reply_bitlen, State.reply_code, State.reply_cap, hstart, Nat.zero_add] at hiff
  rw [← hiff]
  cases hu : u.fault with
  | true => simp [hostEncode_of_faulted hbuild hfault hencode hu]
  | false =>
    obtain ⟨rfl, -⟩ := eq_appendBits_of_execAll_encb (s := t.reply t.status) hfault hencode hu
    rw [hostEncode_of_clear hbuild hfault hencode hu hcap (bitlen_le_cap_of_execAll_encb hencode hle)]
    exact Option.some_inj.trans (and_iff_right rfl).symm

/-- The words of an Encoded value hold the bit sequence `xs` and no further word (R40, R83). -/
def HostReference.Encoded.HoldsBits (e : Encoded) (xs : List Bool) : Prop :=
  e.len.toNat = xs.length ∧ e.words.length = (e.len.toNat + 31) / 32 ∧
    ∀ j (h : j < xs.length), (e.words.getD (j / 32) 0).getLsbD (31 - j % 32) = xs[j]

/-- The Encoded value read with `xs` appended to an empty sequence holds `xs`. -/
theorem State.hostEncoded_appendBits_holdsBits {t : State} (hbitlen : t.bitlen = 0) (bs : List Byte) {xs : List Bool}
    (hsmall : xs.length < 2 ^ 32) : ((t.appendBits xs).hostEncoded bs).HoldsBits xs := by
  have hstart : t.bitlen.toNat = 0 := by rw [hbitlen]; rfl
  have hlen : (t.appendBits xs).bitlen.toNat = xs.length := by
    rw [State.appendBits_bitlen_toNat (by omega), hstart, Nat.zero_add]
  have hbits := t.bitsFrom_appendBits xs
  rw [hstart] at hbits
  refine ⟨hlen, State.hostEncoded_words_length _ bs, fun j hj => ?_⟩
  rw [State.getLsbD_hostEncoded_words _ bs (hlen ▸ hj), ← (State.bitsFrom_eq_iff _ 0 xs).mp hbits j hj, Nat.zero_add]

/-- Settles O38: by `hostEncode_eq_some_iff` from the state after BUILDTAB; its codes together are as long as the sum of their LEN. -/
theorem hostEncodeCompletes : Obligations.HostEncodeCompletes := by
  intro bs s hcap
  obtain ⟨t, hbuild, htcap, hready⟩ := exists_run_buildtab bs s
  have hiff (e : Encoded) := hostEncode_eq_some_iff (e := e) hbuild hready (htcap ▸ hcap)
  refine ⟨t, hbuild, ?_⟩
  rw [← htcap, ← flatMap_codePath_length]
  refine ⟨?completes, fun e he => ?value⟩
  case completes => simp [Option.isSome_iff_exists, hiff]
  case value =>
    obtain ⟨hfits, rfl⟩ := (hiff e).mp he
    exact ⟨rfl, State.hostEncoded_appendBits_holdsBits hready.bitlen bs (hfits.trans_lt t.cap.isLt)⟩

end Sys2Proof.Machine
end

