-- ==== Sys2Proof/Proofs/HostDecode.lean ====
section
/-! The host's decode program on an Encoded value (49_host_reference.md R197, R199): the loaded bits are the codes of the input, so the
§4.5 state machine outputs the input, and the decode loop collects it. -/

namespace Sys2Proof.Machine
open HostProgram HostReference

/-! ### The state machine over codes (R163, R183) -/

/-- The machine outputs the bytes whose codes it reads, and ends at the root. -/
theorem referenceDecode_flatMap_codePath {t : State} {bs : List Byte} (hcodes : ∀ b ∈ bs, t.CodeLeadsTo b) :
    referenceDecode t.tree t.ncount t.root t.root (bs.flatMap (codePath t.code)) = some (bs, t.root) := by
  induction bs with
  | nil => rfl
  | cons b bs ih =>
    rw [List.forall_mem_cons] at hcodes
    obtain ⟨⟨hne, c, hat, hleaf, hvalue⟩, hrest⟩ := hcodes
    rw [List.flatMap_cons, referenceDecode_leaf hne hat hleaf, ih hrest, hvalue]
    rfl

/-- A core with the same tree outputs the same bytes. -/
theorem referenceDecode_of_holdsTree {t v : State} {ws : List Word} (ht : t.HoldsTree ws) (hv : v.HoldsTree ws)
    (hpos : 1 ≤ ws.length) (xs : List Bool) :
    referenceDecode v.tree v.ncount v.root v.root xs = referenceDecode t.tree t.ncount t.root t.root xs := by
  have hroot : t.root.toNat < t.ncount.toNat := by
    rw [State.root_toNat (ht.1.symm ▸ hpos), ht.1]
    omega
  rw [State.root, hv.ncount_eq ht]
  exact referenceDecode_congr (fun j hj => (ht.nodeWord_eq hv hj).symm) hroot hroot xs

/-! ### The decode program (R197) -/

/-- The core when the decode loop starts. -/
def State.loadEncoded (s : State) (e : Encoded) : State := (s.loadTree e.tree).loadBits e.len e.words

theorem run_loadEncoded {s : State} {e : Encoded} {xs : List Bool} (hcap : Config.BitcapLegal s.cap.toNat)
    (hpos : 1 ≤ e.tree.length) (hlen : e.tree.length ≤ 511) (hbits : e.HoldsBits xs) (hfits : e.len.toNat ≤ s.cap.toNat) :
    run (loadtree e.tree ++ loadbits e.len e.words) s = .next (s.loadEncoded e) := by
  obtain ⟨hmultiple, -, hcapLe⟩ := hcap
  obtain ⟨-, hwords, -⟩ := hbits
  have hroom : e.words.length ≤ s.cap.toNat / 32 := by omega
  rw [run_append_of_next (run_loadtree hpos hlen s)]
  exact run_loadbits (s := s.loadTree e.tree) hcapLe hroom hfits

/-- The sequence loaded is the one the Encoded value holds. -/
theorem State.bitsFrom_loadEncoded (s : State) {e : Encoded} {xs : List Bool} (hbits : e.HoldsBits xs) :
    (s.loadEncoded e).bitsFrom 0 e.len.toNat = xs := by
  obtain ⟨hlen, hwords, hword⟩ := hbits
  rw [hlen, State.bitsFrom_eq_iff]
  intro j hj
  rw [Nat.zero_add, State.loadEncoded, State.readBit_loadBits _ _ (by omega), hword j hj]

/-- The decode program answers what the state machine outputs for the tree and the bits of the Encoded value. -/
theorem hostDecode_of_referenceDecode {s t : State} {e : Encoded} {xs : List Bool} {out : List Byte} {d : NodeIdx}
    (hfault : s.fault = false) (hcap : Config.BitcapLegal s.cap.toNat) (hpos : 1 ≤ e.tree.length)
    (htree : t.HoldsTree e.tree) (hbits : e.HoldsBits xs) (hfits : e.len.toNat ≤ s.cap.toNat)
    (hmachine : referenceDecode t.tree t.ncount t.root t.root xs = some (out, d)) :
    hostDecode e s = some out := by
  have hlen : e.tree.length ≤ 511 := by
    have hlt := t.ncount.isLt
    rw [htree.1] at hlt
    omega
  rw [← referenceDecode_of_holdsTree htree (s.loadTree_holdsTree hlen) hpos, ← s.bitsFrom_loadEncoded hbits] at hmachine
  obtain ⟨-, hloop⟩ := decodeLoopMatchesStateMachine (s.loadEncoded e) hfault rfl rfl
  obtain ⟨w, hcollected, -⟩ := hloop out d hmachine
  simp only [hostDecode, run_loadEncoded hcap hpos hlen hbits hfits]
  exact congrArg (Option.map Prod.fst) hcollected

/-- Settles O39: the Encoded value holds the codes of the input, and in the tree loaded from it each code leads to its byte. -/
theorem hostRoundTrip : Obligations.HostRoundTrip := by
  intro bs s s' e hcap hcap' hencode hfault hfits
  obtain ⟨t, hbuild, htcap, hready⟩ := exists_run_buildtab bs s
  obtain ⟨hcodes, rfl⟩ := (hostEncode_eq_some_iff hbuild hready (htcap ▸ hcap)).mp hencode
  have hbits := State.hostEncoded_appendBits_holdsBits hready.bitlen bs (hcodes.trans_lt t.cap.isLt)
  have hmachine := referenceDecode_flatMap_codePath fun b hb => (hready.entry b hb).2
  exact hostDecode_of_referenceDecode hfault hcap' (treeWords_length_bounds bs).1 hready.tree hbits hfits hmachine

end Sys2Proof.Machine
end

