-- ==== Sys2Proof/Proofs/CommandWords.lean ====
section
/-! The encoder and the decoder of command words as inverses (30_encoding.md R80, R84, R86). -/

namespace Sys2Proof

/-- Settles O2: `decode_encode` and `encode_eq_of_decode` are its two halves. -/
theorem decodeEncodeAgree : Obligations.DecodeEncodeAgree :=
  ⟨decode_encode, fun _ _ => encode_eq_of_decode⟩

/-- Settles O1: each listed word is the encoding of its command, ENCB's by `Machine.encode_encb`. -/
theorem listedWordsDecode : Obligations.ListedWordsDecode :=
  ⟨decode_encode .nop, decode_encode .sreset, decode_encode .clrf, decode_encode .dstep, decode_encode .decb,
    decode_encode .buildtab, fun b => Machine.encode_encb b ▸ decode_encode (.encb b)⟩

end Sys2Proof
end

