-- ==== Sys2Proof/Proofs/TableContents.lean ====
section
/-! What BUILDTAB leaves in the code RAM, on which trees it completes, and which fault it records on the others (44_table_build.md R180,
R181, R214). -/

namespace Sys2Proof.Machine

/-! ### The table of a shape that fits (R180) -/

section
variable {tree : Memory} {n i : NodeIdx} {shape : Shape} (hrep : shape.Represents tree n i) (hdepth : shape.depth ≤ 255)
include hrep hdepth

theorem length_le_of_mem_leafPaths : ∀ p ∈ shape.leafPaths, p.length ≤ 255 := fun p hp => by
  obtain ⟨-, -, -, hlen⟩ := Shape.nodeAt_of_mem_leafPaths hrep hp
  exact hlen.trans hdepth

theorem entry_of_lastPath_eq_some {b : Byte} {path : List Bool} (h : lastPath tree n i shape.leafPaths b = some path) :
    codeValid (recordPaths tree n i [] [] shape.leafPaths) b = true ∧
      codePath (recordPaths tree n i [] [] shape.leafPaths) b = path ∧
      ∀ j, path.length ≤ j → j < 255 → codeBit (recordPaths tree n i [] [] shape.leafPaths) b j = false := by
  have hentry := entry_recordPaths tree n i [] shape.leafPaths b (length_le_of_mem_leafPaths hrep hdepth)
  rwa [h] at hentry

theorem entry_of_lastPath_eq_none {b : Byte} (h : lastPath tree n i shape.leafPaths b = none) :
    codeValid (recordPaths tree n i [] [] shape.leafPaths) b = false ∧
      codeLen (recordPaths tree n i [] [] shape.leafPaths) b = 0 ∧
      ∀ j < 255, codeBit (recordPaths tree n i [] [] shape.leafPaths) b j = false := by
  have hentry := entry_recordPaths tree n i [] shape.leafPaths b (length_le_of_mem_leafPaths hrep hdepth)
  rw [h] at hentry
  obtain ⟨hvalid, hlen, hbits⟩ := hentry
  exact ⟨hvalid.trans (codeValid_nil b), hlen.trans (codeLen_nil b), fun j hj => (hbits j hj).trans (codeBit_nil b j)⟩

/-- The bytes with an entry are the values of the leaves. -/
theorem codeValid_recordPaths_iff {b : Byte} :
    codeValid (recordPaths tree n i [] [] shape.leafPaths) b = true ↔ b ∈ leafValues tree n i shape := by
  refine ⟨fun hvalid => ?_, codeValid_of_mem_leafValues hrep hdepth⟩
  cases hlast : lastPath tree n i shape.leafPaths b with
  | none =>
    obtain ⟨hinvalid, -⟩ := entry_of_lastPath_eq_none hrep hdepth hlast
    cases hinvalid.symm.trans hvalid
  | some path =>
    obtain ⟨hmem, hvalue⟩ := List.mem_filter.mp (List.mem_of_getLast? hlast)
    exact List.mem_map.mpr ⟨path, hmem, beq_iff_eq.mp hvalue⟩

/-- No code is longer than the shape is deep. -/
theorem codeLen_recordPaths_le (b : Byte) :
    (codeLen (recordPaths tree n i [] [] shape.leafPaths) b).toNat ≤ shape.depth := by
  cases hlast : lastPath tree n i shape.leafPaths b with
  | none =>
    obtain ⟨-, hlen, -⟩ := entry_of_lastPath_eq_none hrep hdepth hlast
    rw [hlen]
    exact Nat.zero_le _
  | some path =>
    obtain ⟨-, hpath, -⟩ := entry_of_lastPath_eq_some hrep hdepth hlast
    obtain ⟨hmem, -⟩ := List.mem_filter.mp (List.mem_of_getLast? hlast)
    obtain ⟨-, -, -, hlen⟩ := Shape.nodeAt_of_mem_leafPaths hrep hmem
    rwa [← codePath_length, hpath]

end

theorem exec_buildtab_of_represents {s : State} {shape : Shape} (hfault : s.fault = false)
    (hrep : shape.Represents s.tree s.ncount s.root) (hsize : shape.size ≤ s.ncount.toNat) (hdepth : shape.depth ≤ 255) :
    exec .buildtab s = .next { s with code := recordPaths s.tree s.ncount s.root [] [] shape.leafPaths } :=
  (exec_buildtab_clear hfault).trans (congrArg Host.Outcome.next (buildTable_of_represents hrep hsize hdepth))

/-- Settles O28: the walk records one entry per leaf path, and each entry is the last one recorded for its byte. -/
theorem buildtabRecordsLeafPaths : Obligations.BuildtabRecordsLeafPaths := by
  refine ⟨rfl, fun s shape hfault hrep hsize hdepth =>
    ⟨_, exec_buildtab_of_represents hfault hrep hsize hdepth, rfl, fun b => ?_⟩⟩
  split
  next hlast => exact entry_of_lastPath_eq_some hrep hdepth hlast
  next hlast => exact entry_of_lastPath_eq_none hrep hdepth hlast

/-- Settles O29: a walk that completes followed a shape that fits, and a walk of such a shape completes. -/
theorem buildtabFaultsExactlyOnBadTrees : Obligations.BuildtabFaultsExactlyOnBadTrees := by
  intro s t hfault hexec
  constructor
  · intro hdone
    obtain rfl := Host.Outcome.next.inj ((exec_buildtab_clear hfault).symm.trans hexec)
    obtain ⟨shape, hrep, hsize, hdepth, -⟩ | ⟨c, info, -, hraise⟩ := buildTable_cases s
    · exact ⟨shape, hrep, hsize, hdepth⟩
    · rw [hraise, State.raise_fault] at hdone
      cases hdone
  · rintro ⟨shape, hrep, hsize, hdepth⟩
    obtain rfl := Host.Outcome.next.inj ((exec_buildtab_of_represents hfault hrep hsize hdepth).symm.trans hexec)
    exact hfault

theorem exec_buildtab_faulted {s : State} (h : s.fault = true) : exec .buildtab s = .next s := by
  simp only [exec, execBuildtab, State.unlessFaulted_faulted h]

/-- Settles O30: BUILDTAB is dropped, replaces the code RAM, or raises one of its three faults. -/
theorem buildtabFrame : Obligations.BuildtabFrame := by
  intro s t hexec
  obtain hfault | hfault := Bool.eq_false_or_eq_true s.fault
  · obtain rfl := Host.Outcome.next.inj ((exec_buildtab_faulted hfault).symm.trans hexec)
    exact ⟨fun _ => rfl, fun hnew => absurd rfl hnew⟩
  · obtain rfl := Host.Outcome.next.inj ((exec_buildtab_clear hfault).symm.trans hexec)
    obtain ⟨shape, -, -, -, htable⟩ | ⟨c, info, hc, hraise⟩ := buildTable_cases s
    · rw [htable]
      exact ⟨fun _ => rfl, fun hnew => absurd rfl hnew⟩
    · have hcode : (s.raise c info).fcode = c.number := by rw [State.raise_clear hfault]
      rw [hraise]
      refine ⟨fun hold => ?_, fun _ => ⟨s.raise_sameButRecord c info, ?_⟩⟩
      · rw [State.raise_fault, hfault] at hold
        cases hold
      · rw [hcode]
        obtain rfl | rfl | rfl := hc
        · exact .inr (.inr rfl)
        · exact .inr (.inl rfl)
        · exact .inl rfl

/-! ### Walks that fault (R180, R214) -/

section
variable {s : State} {levels : Nat} {i : NodeIdx} {path : List Bool} {w : WalkState}

theorem walk_of_visits_full (h : s.ncount.toNat ≤ w.visits) :
    walk s levels i path w = .error (.treeLoop, infoNode i) := by
  unfold walk
  exact if_pos (by omega)

theorem walk_zero_of_left (hvisits : w.visits < s.ncount.toNat) (hleft : nodeHasLeft (nodeWord s.tree i) = true) :
    walk s 0 i path w = .error (.codeTooLong, infoNode i) := by
  have hleaf := not_leaf_of_hasChild (b := false) hleft
  simp [walk, Nat.not_le.mpr hvisits, hleaf]

theorem walk_of_badLeft (hvisits : w.visits < s.ncount.toNat) (hleft : nodeHasLeft (nodeWord s.tree i) = true)
    (hbad : s.ncount.toNat ≤ (nodeLeft (nodeWord s.tree i)).toNat) :
    walk s (levels + 1) i path w = .error (.badIndex, infoBadIndex i false (nodeLeft (nodeWord s.tree i))) := by
  have hleaf := not_leaf_of_hasChild (b := false) hleft
  simp [walk, Nat.not_le.mpr hvisits, hleaf, hleft, hbad]

theorem walk_of_badRight (hvisits : w.visits < s.ncount.toNat) (hleft : nodeHasLeft (nodeWord s.tree i) = false)
    (hright : nodeHasRight (nodeWord s.tree i) = true)
    (hbad : s.ncount.toNat ≤ (nodeRight (nodeWord s.tree i)).toNat) :
    walk s (levels + 1) i path w = .error (.badIndex, infoBadIndex i true (nodeRight (nodeWord s.tree i))) := by
  have hleaf := not_leaf_of_hasChild (b := true) hright
  simp [walk, Nat.not_le.mpr hvisits, hleaf, hleft, hright, hbad]

/-- A fault in the left subtree ends the walk. -/
theorem walk_of_left_error (hvisits : w.visits < s.ncount.toNat) (hleft : nodeHasLeft (nodeWord s.tree i) = true)
    (hlt : (nodeLeft (nodeWord s.tree i)).toNat < s.ncount.toNat) {e : FaultCode × Word}
    (herror : walk s levels (nodeLeft (nodeWord s.tree i)) (path ++ [false]) ⟨w.visits + 1, w.table⟩ = .error e) :
    walk s (levels + 1) i path w = .error e := by
  have hleaf := not_leaf_of_hasChild (b := false) hleft
  simp [walk, Nat.not_le.mpr hvisits, hleaf, hleft, Nat.not_le.mpr hlt, herror]

/-- At a node that is its own left child the visits pass NCOUNT or the path passes 255 bits, whichever comes first. -/
theorem walk_of_selfLoop (hlt : i.toNat < s.ncount.toNat) (hleft : nodeHasLeft (nodeWord s.tree i) = true)
    (hself : nodeLeft (nodeWord s.tree i) = i) :
    walk s levels i path w =
      .error (if w.visits + levels < s.ncount.toNat then .codeTooLong else .treeLoop, infoNode i) := by
  induction levels generalizing path w with
  | zero =>
    by_cases hvisits : w.visits < s.ncount.toNat
    · rw [walk_zero_of_left hvisits hleft, if_pos (by exact hvisits)]
    · rw [walk_of_visits_full (by omega), if_neg (by omega)]
  | succ levels ih =>
    by_cases hvisits : w.visits < s.ncount.toNat
    · have hrest := ih (path := path ++ [false]) (w := ⟨w.visits + 1, w.table⟩)
      rw [walk_of_left_error hvisits hleft (by rwa [hself]) (by rw [hself]; exact hrest), Nat.add_right_comm,
        ← Nat.add_assoc]
    · rw [walk_of_visits_full (by omega), if_neg (by omega)]

end

theorem exec_buildtab_of_walk_error {s : State} (hfault : s.fault = false) {c : FaultCode} {info : Word}
    (h : walk s 255 s.root [] ⟨0, []⟩ = .error (c, info)) : exec .buildtab s = .next (s.raise c info) := by
  have hwalk : walk s Config.maxCode s.root [] ⟨0, []⟩ = .error (c, info) := h
  rw [exec_buildtab_clear hfault, buildTable, hwalk]

/-- Settles O31: the walk's first visit is the root, and it looks at its left child first. -/
theorem buildtabBadRootChild : Obligations.BuildtabBadRootChild := fun _ hfault hpos =>
  ⟨fun hleft hbad => exec_buildtab_of_walk_error hfault (walk_of_badLeft hpos hleft hbad),
    fun hleft hright hbad => exec_buildtab_of_walk_error hfault (walk_of_badRight hpos hleft hright hbad)⟩

/-- Settles O32: `walk_of_selfLoop` with no visit made and 255 levels left. -/
theorem buildtabSelfLoop : Obligations.BuildtabSelfLoop := by
  intro s hfault hpos hleft hself
  have hroot : s.root.toNat < s.ncount.toNat := by
    rw [State.root_toNat hpos]
    omega
  have hwalk := walk_of_selfLoop (levels := 255) (path := []) (w := ⟨0, []⟩) hroot hleft hself
  refine ⟨fun hsmall => exec_buildtab_of_walk_error hfault ?_, fun hlarge => exec_buildtab_of_walk_error hfault ?_⟩
  · rw [hwalk, if_neg (by simpa using hsmall)]
  · rw [hwalk, if_pos (by simpa using hlarge)]

/-! ### The trees of an input with no byte and with one distinct byte (R181) -/

/-- BUILDTAB where a shape fits, by what its table holds. -/
theorem exists_table_of_represents {s : State} {shape : Shape} (hfault : s.fault = false)
    (hrep : shape.Represents s.tree s.ncount s.root) (hsize : shape.size ≤ s.ncount.toNat) (hdepth : shape.depth ≤ 255) :
    ∃ code : Memory, exec .buildtab s = .next { s with code := code } ∧
      (∀ b, codeValid code b = true ↔ b ∈ leafValues s.tree s.ncount s.root shape) ∧
      (∀ b, (codeLen code b).toNat ≤ shape.depth) ∧
      ∀ b path, lastPath s.tree s.ncount s.root shape.leafPaths b = some path → codePath code b = path := by
  refine ⟨_, exec_buildtab_of_represents hfault hrep hsize hdepth, fun _ => codeValid_recordPaths_iff hrep hdepth,
    codeLen_recordPaths_le hrep hdepth, fun b path hlast => ?_⟩
  obtain ⟨-, hpath, -⟩ := entry_of_lastPath_eq_some hrep hdepth hlast
  exact hpath

/-- A byte's word has no reserved bit of a node word. -/
theorem setWidth_and_nodeMask (v : Byte) : v.setWidth 32 &&& nodeMask = v.setWidth 32 := by
  revert v
  decide

theorem exec_buildtab_emptyTree {s : State} (hfault : s.fault = false) (hncount : s.ncount = 1)
    (hnode : nodeWord s.tree 0 = 0) :
    ∃ t : State, exec .buildtab s = .next t ∧ t.fault = false ∧
      ∀ b : Byte, (codeValid t.code b = true ↔ b = 0) ∧ codeLen t.code b = 0 := by
  have hroot : s.root = 0 := by rw [State.root, hncount]; rfl
  have hword : nodeWord s.tree s.root = 0 := hroot ▸ hnode
  have hrep : Shape.leaf.Represents s.tree s.ncount s.root := by rw [Shape.Represents, hword]; decide
  have hvalues : leafValues s.tree s.ncount s.root .leaf = [0] := by
    rw [leafValues, Shape.leafPaths, List.map_singleton, leafValue, nodeAt]
    exact congrArg (fun w => [nodeValue w]) hword
  have hsize : Shape.leaf.size ≤ s.ncount.toNat := by rw [hncount]; decide
  obtain ⟨code, hexec, hvalid, hlen, -⟩ := exists_table_of_represents hfault hrep hsize (by decide)
  refine ⟨_, hexec, hfault, fun b => ⟨?_, BitVec.eq_of_toNat_eq (Nat.le_zero.mp (hlen b))⟩⟩
  rw [hvalid, hvalues, List.mem_singleton]

theorem exec_buildtab_singleByteTree {s : State} {v : Byte} (hfault : s.fault = false) (hncount : s.ncount = 2)
    (hleafNode : nodeWord s.tree 0 = v.setWidth 32) (hrootNode : nodeWord s.tree 1 = 0x20000000) :
    ∃ t : State, exec .buildtab s = .next t ∧ t.fault = false ∧ codePath t.code v = [true] ∧
      ∀ b : Byte, codeValid t.code b = true ↔ b = v := by
  have hroot : s.root = 1 := by rw [State.root, hncount]; rfl
  have hword : nodeWord s.tree s.root = 0x20000000 := hroot ▸ hrootNode
  have hleft : nodeHasLeft (nodeWord s.tree s.root) = false := by rw [hword]; decide
  have hright : nodeHasRight (nodeWord s.tree s.root) = true := by rw [hword]; decide
  have hchild : nodeRight (nodeWord s.tree s.root) = 0 := by rw [hword]; decide
  have hlt : (nodeRight (nodeWord s.tree s.root)).toNat < s.ncount.toNat := by rw [hchild, hncount]; decide
  obtain ⟨hleaf, hvalue⟩ := leafWord v
  rw [setWidth_and_nodeMask, ← hleafNode] at hleaf hvalue
  have hrep : (Shape.right .leaf).Represents s.tree s.ncount s.root := ⟨hleft, hright, hlt, hchild ▸ hleaf⟩
  have hat : nodeAt s.tree s.ncount s.root [true] = some 0 :=
    nodeAt_cons_eq_some_iff.mpr ⟨hright, hlt, congrArg some hchild⟩
  have hleafValue : leafValue s.tree s.ncount s.root [true] = v := by simp only [leafValue, hat, hvalue]
  have hvalues : leafValues s.tree s.ncount s.root (.right .leaf) = [v] := congrArg (fun b => [b]) hleafValue
  have hlast : lastPath s.tree s.ncount s.root (Shape.right .leaf).leafPaths v = some [true] := by
    simp [lastPath, Shape.leafPaths, hleafValue]
  have hsize : (Shape.right .leaf).size ≤ s.ncount.toNat := by rw [hncount]; decide
  obtain ⟨code, hexec, hvalid, -, hpath⟩ := exists_table_of_represents hfault hrep hsize (by decide)
  refine ⟨_, hexec, hfault, hpath v _ hlast, fun b => ?_⟩
  rw [hvalid, hvalues, List.mem_singleton]

/-- Settles O33: the first tree is one leaf, the second a root with one leaf on its right. -/
theorem buildtabSmallTrees : Obligations.BuildtabSmallTrees :=
  ⟨fun _ => exec_buildtab_emptyTree, fun _ _ => exec_buildtab_singleByteTree⟩

end Sys2Proof.Machine
end

