-- ==== Sys2Proof/Proofs/RoundTrip.lean ====
section
/-! Loading a tree (49_host_reference.md R195), the table of every tree of the host's builder (R201), and encoding then decoding on one
core (42_encoder.md R151, 43_decoder.md R163, 44_table_build.md R183). -/

namespace Sys2Proof.Machine
open HostProgram HostReference

/-! ### loadtree (R195) -/

theorem Memory.readWord_storeWords_above (m : Memory) (vs : List Word) {a b : Nat} (h : a + 4 * vs.length ≤ b) :
    Memory.readWord (Memory.storeWords m a vs) b = Memory.readWord m b := by
  induction vs generalizing m a with
  | nil => rfl
  | cons v vs ih =>
    rw [List.length_cons] at h
    exact (ih _ (by omega)).trans (Memory.readWord_writeWord_outside _ _ _ (.inr (by omega)))

theorem State.nodeWord_loadTree_above (s : State) {ws : List Word} {i : NodeIdx} (h : ws.length ≤ i.toNat) :
    nodeWord (s.loadTree ws).tree i = nodeWord s.tree i :=
  Memory.readWord_storeWords_above _ _ (by rw [List.length_map]; unfold nodeAddr; omega)

/-- Settles O40: `run_loadtree` gives the state reached, `State.loadTree`, whose words are as stored. -/
theorem loadtreeLoads : Obligations.LoadtreeLoads := by
  intro s ws hpos hlen
  obtain ⟨hncount, hwords⟩ := s.loadTree_holdsTree hlen
  have hroot := State.root_toNat (hpos.trans hncount.ge)
  exact ⟨s.loadTree ws, run_loadtree hpos hlen s, hncount, hroot.trans (congrArg (· - 1) hncount), hwords,
    fun i hi => s.nodeWord_loadTree_above hi, rfl⟩

/-! ### The table of a host tree (R201, R181) -/

theorem codePath_eq_nil {m : Memory} {b : Byte} (h : codeLen m b = 0) : codePath m b = [] := by
  rw [codePath, h]
  rfl

/-- On a host tree of k distinct bytes BUILDTAB gives an entry to each of them, of at most max(1, k - 1) bits, and to no other byte. -/
theorem table_of_holdsTree {s : State} {bs : List Byte} {code : Memory} (hfault : s.fault = false)
    (htree : s.HoldsTree (treeWords bs)) (hexec : exec .buildtab s = .next { s with code := code }) (b : Byte) :
    (codeValid code b = true ↔ b ∈ bs ∨ bs = [] ∧ b = 0) ∧
      (codeLen code b).toNat ≤ max 1 ((present bs).length - 1) := by
  obtain ⟨hpos, -⟩ := treeWords_length_bounds bs
  have hpresent := present_length bs
  obtain ⟨shape, hrep, hsize, hdepth, hvalues⟩ := treeWords_shape htree.1 htree.2
  rw [← htree.root_eq hpos] at hrep hvalues
  have hdepth255 : shape.depth ≤ 255 := by omega
  obtain ⟨table, htable, hvalid, hlen, -⟩ :=
    exists_table_of_represents hfault hrep (hsize.trans htree.1.symm).le hdepth255
  obtain rfl : code = table := congrArg State.code (Host.Outcome.next.inj (hexec.symm.trans htable))
  refine ⟨?_, (hlen b).trans hdepth⟩
  rw [hvalid, hvalues.mem_iff]
  by_cases hempty : bs = []
  · simp [hempty]
  · simp [hempty, mem_present]

/-- Settles O37: the loaded core holds the host's tree, so BUILDTAB completes on it with the table of `table_of_holdsTree`. -/
theorem hostTreesBuildWithoutFault : Obligations.HostTreesBuildWithoutFault := by
  rintro s bs _ hfault rfl
  obtain ⟨hpos, hlen⟩ := treeWords_length_bounds bs
  have htree := s.loadTree_holdsTree hlen
  obtain ⟨code, hexec, hentry⟩ := exists_code_of_holdsTree (s := s.loadTree (treeWords bs)) hfault htree
  refine ⟨_, _, run_loadtree hpos hlen s, htree.1.trans (treeWords_length bs), hexec, rfl, hfault, fun b => ?_⟩
  obtain ⟨hvalid, hbound⟩ := table_of_holdsTree (s := s.loadTree (treeWords bs)) hfault htree hexec b
  refine ⟨hvalid, hbound, fun hb hzero => ?_⟩
  obtain ⟨-, hne, -⟩ := hentry b hb
  exact hne (codePath_eq_nil hzero)

/-! ### Encoding, then decoding from the old BITLEN (R151, R163, R183) -/

/-- The core set to decode from position `p` on. -/
def State.decodeFrom (s : State) (p : Word) : State := { s with rdptr := p, dpos := s.root }

theorem perform_write_rdptr {s : State} {p : Word} (h : p.toNat ≤ s.cap.toNat) :
    perform (.write 0x0018 .word p) s = .next (s.decodeFrom p) :=
  (perform_writeReg .rdptr p s).trans (congrArg Host.Outcome.next (writeRdptr_of_le h))

/-- From the old BITLEN on the machine reads the codes appended, and outputs their bytes. -/
theorem machineFrom_appended_codes {t : State} {bs : List Byte} (hcodes : ∀ b ∈ bs, t.CodeLeadsTo b)
    (hsmall : t.bitlen.toNat + (bs.flatMap (codePath t.code)).length < 2 ^ 32) :
    ((t.appendBits (bs.flatMap (codePath t.code))).decodeFrom t.bitlen).machineFrom t.bitlen.toNat t.root =
      some (bs, t.root) := by
  have hlen : (t.appendBits (bs.flatMap (codePath t.code))).bitlen.toNat - t.bitlen.toNat =
      (bs.flatMap (codePath t.code)).length := by
    rw [State.appendBits_bitlen_toNat hsmall, Nat.add_sub_cancel_left]
  show referenceDecode t.tree t.ncount t.root t.root ((t.appendBits (bs.flatMap (codePath t.code))).bitsFrom
    t.bitlen.toNat ((t.appendBits (bs.flatMap (codePath t.code))).bitlen.toNat - t.bitlen.toNat)) = _
  rw [hlen, State.bitsFrom_appendBits, referenceDecode_flatMap_codePath hcodes]

/-- Settles O36: the run appends the codes, each leads from the root to its byte, and the decode loop collects what the §4.5 state
machine outputs for them. -/
theorem encodeThenDecode : Obligations.EncodeThenDecode := by
  intro s t bs hfault hexec hdone hentry hfits
  rw [← flatMap_codePath_length] at hfits
  have hcap := t.cap.isLt
  have hcodes : ∀ b ∈ bs, t.CodeLeadsTo b := fun b hb =>
    ⟨codePath_ne_nil (hentry b hb).2, exists_leaf_of_exec_buildtab hfault hexec hdone (hentry b hb).1⟩
  have hencode := execAll_encb_of_fits hdone (fun b hb => (hentry b hb).1) hfits
  have hsmall : t.bitlen.toNat + (bs.flatMap (codePath t.code)).length < 2 ^ 32 := by omega
  have hbitlen := State.appendBits_bitlen_toNat hsmall
  have hmachine := machineFrom_appended_codes hcodes hsmall
  have hwrite := perform_write_rdptr (s := t.appendBits (bs.flatMap (codePath t.code))) (p := t.bitlen)
    (show t.bitlen.toNat ≤ t.cap.toNat by omega)
  obtain ⟨w, hloop, hrdptr, -⟩ := exists_decall_of_machineFrom
    (s := (t.appendBits (bs.flatMap (codePath t.code))).decodeFrom t.bitlen) hdone
    ((Nat.le_add_right _ _).trans hbitlen.ge) (Nat.lt_succ_self _) hmachine
  exact ⟨_, _, w, hencode, hwrite, hloop, hrdptr⟩

end Sys2Proof.Machine
end

