-- ==== Sys2Proof/Proofs/Invariant.lean ====
section
/-! The invariant of reachable states (10_state.md R37, R38; 20_memory.md R60; 30_encoding.md R81, R82; 60_exceptions.md R210): it holds
after a reset, and every update a request or a command makes keeps it. -/

namespace Sys2Proof.Machine

/-! ### Regions (R60) -/

theorem Memory.within_nil (lo hi : Nat) : Memory.within [] lo hi := fun _ hc => absurd hc List.not_mem_nil

theorem Memory.within_writeWord {m : Memory} {a lo hi : Nat} (h : Memory.within m lo hi) (hlo : lo ≤ a)
    (hhi : a + 4 ≤ hi) (v : Word) : Memory.within (Memory.writeWord m a v) lo hi := by
  intro c hc
  obtain hnew | hold := Memory.mem_writeWord hc
  · omega
  · exact h c hold

/-! ### Reserved bits (R81, R82) -/

theorem and_mask_and_not (v mask : Word) : v &&& mask &&& ~~~mask = 0 := by
  rw [BitVec.and_assoc, BitVec.and_not_self]
  exact BitVec.and_zero

/-- The reserved bits of HDR are its bits 30:8. -/
theorem and_not_headerMask_eq_zero_iff (w : Word) : w &&& ~~~headerMask = 0 ↔ w.extractLsb' 8 23 = 0 := by
  have hmask : ∀ i < 32, (~~~headerMask).getLsbD i = decide (8 ≤ i ∧ i < 31) := by decide
  constructor
  · intro h
    apply BitVec.eq_of_getLsbD_eq
    intro i hi
    have hbit := congrArg (BitVec.getLsbD · (8 + i)) h
    simp only [BitVec.getLsbD_and, hmask (8 + i) (by omega)] at hbit
    have hin : 8 ≤ 8 + i ∧ 8 + i < 31 := by omega
    simpa [hi, hin] using hbit
  · intro h
    apply BitVec.eq_of_getLsbD_eq
    intro i hi
    rw [BitVec.getLsbD_and, hmask i hi]
    by_cases hin : 8 ≤ i ∧ i < 31
    · have hbit := congrArg (BitVec.getLsbD · (i - 8)) h
      have hlt : i - 8 < 23 := by omega
      have hadd : 8 + (i - 8) = i := by omega
      simp only [BitVec.getLsbD_extractLsb', hlt, decide_true, Bool.true_and, hadd] at hbit
      simp [hbit]
    · simp [hin]

theorem storedCodeWord_zero (v : Word) : storedCodeWord 0 v = v &&& headerMask := rfl

/-- Bit 0 of W8 is beyond the last bit of a path of at most 255 bits. -/
theorem getLsbD_pathWord_eight {path : List Bool} (h : path.length ≤ 255) : (pathWord path 8).getLsbD 0 = false := by
  have hbit := getLsbD_packWord (fun t => path.getD (32 * (8 - 1) + t) false) (t := 31) (by decide)
  exact hbit.trans (List.getD_eq_default _ _ h)

/-! ### The three RAMs -/

/-- The tree RAM is canonical, inside its region, and its reserved bits are 0. -/
def TreeRamOk (m : Memory) : Prop :=
  Memory.wf m ∧ Memory.within m 0x1000 0x17FC ∧ ∀ i : NodeIdx, nodeWord m i &&& ~~~nodeMask = 0

/-- The code RAM is canonical, inside its region, and its reserved bits are 0. -/
def CodeRamOk (m : Memory) : Prop :=
  Memory.wf m ∧ Memory.within m 0x4000 0x8000 ∧
    (∀ b : Byte, Memory.readWord m (codeAddr b 0) &&& ~~~headerMask = 0) ∧
    ∀ b : Byte, (Memory.readWord m (codeAddr b 8)).getLsbD 0 = false

/-- The bit RAM of `cap` bits is canonical and inside its region. -/
def BitRamOk (cap : Nat) (m : Memory) : Prop :=
  Memory.wf m ∧ Memory.within m 0x8000 (0x8000 + cap / 8)

theorem treeRamOk_nil : TreeRamOk [] :=
  ⟨Memory.wf_nil, Memory.within_nil _ _, fun i => by rw [nodeWord, readWord_nil]; exact BitVec.zero_and⟩

theorem codeRamOk_nil : CodeRamOk [] :=
  ⟨Memory.wf_nil, Memory.within_nil _ _, fun b => by rw [readWord_nil]; exact BitVec.zero_and,
    fun b => by rw [readWord_nil]; exact BitVec.getLsbD_zero⟩

theorem bitRamOk_nil (cap : Nat) : BitRamOk cap [] := ⟨Memory.wf_nil, Memory.within_nil _ _⟩

theorem TreeRamOk.writeWord {m : Memory} (h : TreeRamOk m) {i : NodeIdx} (hi : i.toNat < 511) (v : Word) :
    TreeRamOk (Memory.writeWord m (nodeAddr i) (v &&& nodeMask)) := by
  obtain ⟨hwf, hwithin, hreserved⟩ := h
  refine ⟨Memory.wf_writeWord hwf _ _,
    Memory.within_writeWord hwithin (by unfold nodeAddr; omega) (by unfold nodeAddr; omega) _, fun j => ?_⟩
  rw [nodeWord_writeWord]
  split
  · exact and_mask_and_not v nodeMask
  · exact hreserved j

theorem CodeRamOk.writeWord {m : Memory} (h : CodeRamOk m) (b : Byte) {k : Nat} (hk : k ≤ 8) (v : Word) :
    CodeRamOk (Memory.writeWord m (codeAddr b k) (storedCodeWord k v)) := by
  obtain ⟨hwf, hwithin, hheader, hw8⟩ := h
  have hb := b.isLt
  refine ⟨Memory.wf_writeWord hwf _ _,
    Memory.within_writeWord hwithin (by unfold codeAddr; omega) (by unfold codeAddr; omega) _, fun c => ?_, fun c => ?_⟩
  · rw [readCode_writeCode _ (by omega) (by omega)]
    split
    next hsame =>
      rw [← hsame.2]
      exact and_mask_and_not v headerMask
    next => exact hheader c
  · rw [readCode_writeCode _ (by omega) (by omega)]
    split
    next hsame =>
      rw [← hsame.2, storedCodeWord_of_pos (by decide), getLsbD_and_codeWordMask _ _ (by decide)]
      rfl
    next => exact hw8 c

theorem CodeRamOk.writeEntry {m : Memory} (h : CodeRamOk m) (b : Byte) {path : List Bool} (hlen : path.length ≤ 255) :
    CodeRamOk (writeEntry m b path) := by
  obtain ⟨hwf, hwithin, hheader, hw8⟩ := h
  refine ⟨Memory.wf_writeEntry hwf _ _, fun c hc => (Memory.mem_writeEntry hc).elim id (hwithin c), fun c => ?_,
    fun c => ?_⟩
  · rw [readCode_writeEntry _ _ _ _ (by decide)]
    split
    · exact (and_not_headerMask_eq_zero_iff _).mpr (headerWord_reserved _ _)
    · exact hheader c
  · rw [readCode_writeEntry _ _ _ _ (by decide)]
    split
    · exact getLsbD_pathWord_eight hlen
    · exact hw8 c

theorem CodeRamOk.recordPaths {T : Memory} (h : CodeRamOk T) (tree : Memory) (n i : NodeIdx) {paths : List (List Bool)}
    (hlen : ∀ p ∈ paths, p.length ≤ 255) : CodeRamOk (recordPaths tree n i [] T paths) := by
  induction paths generalizing T with
  | nil => exact h
  | cons p ps ih =>
    rw [List.forall_mem_cons] at hlen
    exact ih (h.writeEntry (leafValue tree n i p) (path := p) hlen.1) hlen.2

theorem BitRamOk.writeWord {cap : Nat} {m : Memory} (h : BitRamOk cap m) {w : Nat} (hw : w < cap / 32) (v : Word) :
    BitRamOk cap (Memory.writeWord m (bitWordAddr w) v) := by
  obtain ⟨hwf, hwithin⟩ := h
  exact ⟨Memory.wf_writeWord hwf _ _,
    Memory.within_writeWord hwithin (by unfold bitWordAddr; omega) (by unfold bitWordAddr; omega) _⟩

theorem BitRamOk.writeBits {cap : Nat} {m : Memory} (h : BitRamOk cap m) (hcap : cap % 32 = 0) {p : Nat} {xs : List Bool}
    (hfits : p + xs.length ≤ cap) : BitRamOk cap (writeBits m p xs) := by
  obtain ⟨hwf, hwithin⟩ := h
  refine ⟨Memory.wf_writeBits hwf _ _, fun c hc => ?_⟩
  obtain ⟨j, hj, hlo, hhi⟩ | hold := Memory.mem_writeBits hc
  · unfold bitWordAddr at hlo hhi
    omega
  · exact hwithin c hold

/-! ### What each update keeps -/

theorem State.resetState_inv {s : State} (hcap : Config.BitcapLegal s.cap.toNat) : s.resetState.Inv := by
  obtain ⟨htwf, htwithin, htreserved⟩ := treeRamOk_nil
  obtain ⟨hcwf, hcwithin, hheader, hw8⟩ := codeRamOk_nil
  obtain ⟨hbwf, hbwithin⟩ := bitRamOk_nil s.cap.toNat
  exact ⟨hcap, Nat.le_refl 1, Nat.zero_lt_one, Nat.zero_le _, Nat.zero_le _,
    ⟨fun _ => ⟨rfl, rfl⟩, fun h => absurd h Bool.false_ne_true⟩,
    htwf, hcwf, hbwf, htwithin, hcwithin, hbwithin, htreserved, hheader, hw8⟩

namespace State.Inv
variable {s : State} (h : s.Inv)
include h

theorem treeRamOk : TreeRamOk s.tree := ⟨h.tree_wf, h.tree_within, h.node_reserved⟩

theorem codeRamOk : CodeRamOk s.code := ⟨h.code_wf, h.code_within, h.header_reserved, h.w8_reserved⟩

theorem bitRamOk : BitRamOk s.cap.toNat s.bits := ⟨h.bits_wf, h.bits_within⟩

theorem root_lt : s.root.toNat < s.ncount.toNat := by
  have hpos := h.ncount_pos
  rw [State.root_toNat hpos]
  omega

theorem withPort (port : List Request) : State.Inv { s with port := port } := { h with }

theorem reply (v : Word) : (s.reply v).Inv := { h with }

theorem clearFault : s.clearFault.Inv :=
  { h with record_ok := ⟨fun _ => ⟨rfl, rfl⟩, fun hf => absurd hf Bool.false_ne_true⟩ }

theorem raise (c : FaultCode) (info : Word) : (s.raise c info).Inv := by
  cases hf : s.fault with
  | true => rwa [State.raise_faulted hf]
  | false =>
    rw [State.raise_clear hf]
    exact { h with record_ok := ⟨fun hclear => absurd hclear.symm Bool.false_ne_true, fun _ => ⟨c, rfl⟩⟩ }

theorem withWalk {r : Word} (hr : r.toNat ≤ s.cap.toNat) {d : NodeIdx} (hd : d.toNat < s.ncount.toNat) (v : Byte)
    (dvalid dempty : Bool) :
    State.Inv { s with rdptr := r, dpos := d, dout := v, dvalid := dvalid, dempty := dempty } :=
  { h with dpos_lt := hd, rdptr_le := hr }

theorem withNcount {n d : NodeIdx} (hn : 1 ≤ n.toNat) (hd : d.toNat < n.toNat) :
    State.Inv { s with ncount := n, dpos := d } :=
  { h with ncount_pos := hn, dpos_lt := hd }

theorem withBitlen {v : Word} (hv : v.toNat ≤ s.cap.toNat) : State.Inv { s with bitlen := v } :=
  { h with bitlen_le := hv }

theorem withTree {m : Memory} (hm : TreeRamOk m) : State.Inv { s with tree := m } := by
  obtain ⟨hwf, hwithin, hreserved⟩ := hm
  exact { h with tree_wf := hwf, tree_within := hwithin, node_reserved := hreserved }

theorem withCode {m : Memory} (hm : CodeRamOk m) : State.Inv { s with code := m } := by
  obtain ⟨hwf, hwithin, hheader, hw8⟩ := hm
  exact { h with code_wf := hwf, code_within := hwithin, header_reserved := hheader, w8_reserved := hw8 }

theorem withBits {m : Memory} (hm : BitRamOk s.cap.toNat m) : State.Inv { s with bits := m } := by
  obtain ⟨hwf, hwithin⟩ := hm
  exact { h with bits_wf := hwf, bits_within := hwithin }

/-! ### Commands, requests, steps -/

/-- An ENCB that appends ends inside the bit RAM (R38, R150). -/
theorem encodeByte_appended {b : Byte} (hfits : s.bitlen.toNat + (codeLen s.code b).toNat ≤ s.cap.toNat) :
    State.Inv { s with
      bits := writeBits s.bits s.bitlen.toNat (codePath s.code b)
      bitlen := BitVec.ofNat 32 (s.bitlen.toNat + (codeLen s.code b).toNat) } := by
  obtain ⟨hmultiple, -, -⟩ := h.cap_legal
  have hbits := h.bitRamOk.writeBits hmultiple (xs := codePath s.code b) (by rwa [codePath_length])
  exact (h.withBits hbits).withBitlen ((Nat.mod_le _ _).trans hfits)

/-- A BUILDTAB that completes records paths of at most 255 bits (R82, R180). -/
theorem buildTable_recorded {shape : Shape} (hrep : shape.Represents s.tree s.ncount s.root)
    (hdepth : shape.depth ≤ 255) :
    State.Inv { s with code := recordPaths s.tree s.ncount s.root [] [] shape.leafPaths } :=
  h.withCode (codeRamOk_nil.recordPaths _ _ _ (length_le_of_mem_leafPaths hrep hdepth))

theorem of_exec {i : Instr} {t : State} (hexec : exec i s = .next t) : t.Inv := by
  have hposition {r : Nat} (hr : r = s.rdptr.toNat ∨ r ≤ s.bitlen.toNat) : (BitVec.ofNat 32 r).toNat ≤ s.cap.toNat := by
    have hbitlen := h.bitlen_le
    have hrdptr := h.rdptr_le
    exact (Nat.mod_le r (2 ^ 32)).trans (by omega)
  obtain ⟨rfl, -⟩ | ⟨-, rfl⟩ | ⟨-, rfl⟩ | ⟨-, c, info, rfl⟩ | ⟨-, b, -, -, hfits, rfl⟩ | ⟨-, -, hdecoded⟩ |
    ⟨-, -, shape, hrep, -, hdepth, rfl⟩ := exec_cases hexec
  · exact h
  · exact State.resetState_inv h.cap_legal
  · exact h.clearFault
  · exact h.raise c info
  · exact h.encodeByte_appended hfits
  · obtain ⟨r, d, hr, hd, hend⟩ | ⟨r, v, hr, rfl⟩ := hdecoded
    · have hdpos : d.toNat < s.ncount.toNat := hd.elim (fun hsame => hsame ▸ h.dpos_lt) id
      obtain rfl | rfl := hend
      · exact h.withWalk (hposition hr) hdpos s.dout false true
      · exact h.withWalk (hposition hr) hdpos s.dout false false
    · exact h.withWalk (hposition (.inr hr)) h.root_lt v true false
  · exact h.buildTable_recorded hrep hdepth

/-- An accepted NCOUNT leaves DPOS below it (R37, R115). -/
theorem writeNcount_stored {v : Word} (hpos : 1 ≤ v.toNat) (hle : v.toNat ≤ 511) :
    State.Inv { s with ncount := v.setWidth 9, dpos := (v - 1).setWidth 9 } := by
  have hncount : (v.setWidth 9).toNat = v.toNat := by
    rw [BitVec.toNat_setWidth]
    exact Nat.mod_eq_of_lt (by omega)
  have hroot : (v.setWidth 9 - 1 : NodeIdx).toNat = (v.setWidth 9).toNat - 1 :=
    State.root_toNat (s := { s with ncount := v.setWidth 9 }) (hpos.trans hncount.ge)
  refine h.withNcount (by omega) ?_
  rw [setWidth_sub_one, hroot]
  omega

theorem of_perform {q : Request} {t : State} (hperform : perform q s = .next t) : t.Inv := by
  obtain ⟨off, n, -, ⟨v, rfl⟩ | rfl⟩ | ⟨-, rfl⟩ | ⟨off, n, v, -, hwrite⟩ := perform_cases hperform
  · exact h.reply v
  · exact (h.raise _ _).reply 0
  · exact State.resetState_inv h.cap_legal
  · obtain ⟨c, info, rfl⟩ | ⟨hpos, hle, rfl⟩ | ⟨hv, rfl⟩ | ⟨hv, rfl⟩ | ⟨i, -, hi, -, rfl⟩ | ⟨b, k, hk, rfl⟩ | ⟨w, hw, rfl⟩ |
      ⟨i, -, -, -, hexec⟩ := hwrite
    · exact h.raise c info
    · exact h.writeNcount_stored hpos hle
    · exact h.withBitlen hv
    · exact h.withWalk hv h.root_lt s.dout s.dvalid s.dempty
    · exact h.withTree (h.treeRamOk.writeWord hi v)
    · exact h.withCode (h.codeRamOk.writeWord b hk v)
    · exact h.withBits (h.bitRamOk.writeWord hw v)
    · exact h.of_exec hexec

end State.Inv

/-- Everything a step can do: nothing, or the oldest request with it taken off the port (R62). -/
theorem step_cases {s t : State} (h : step s = .next t) :
    (s.port = [] ∧ t = s) ∨ ∃ q rest, s.port = q :: rest ∧ perform q { s with port := rest } = .next t := by
  unfold step at h
  split at h
  next hport => exact .inl ⟨hport, (Host.Outcome.next.inj h).symm⟩
  next q rest hport => exact .inr ⟨q, rest, hport, h⟩

/-- Settles O10: `State.Inv.of_perform` on the state with the request taken off the port. -/
theorem stepKeepsInv : Obligations.StepKeepsInv := by
  intro s t hinv hstep
  obtain ⟨-, rfl⟩ | ⟨q, rest, -, hperform⟩ := step_cases hstep
  · exact hinv
  · exact (hinv.withPort rest).of_perform hperform

/-- Settles O9: the reset state is its own reset, and its CAP is legal. -/
theorem resetInv : Obligations.ResetInv := State.resetState_inv (s := State.reset) (by decide)

end Sys2Proof.Machine
end

