-- ==== Sys2Proof/Proofs/Steps.lean ====
section
/-! Which request a step performs and which command it runs (20_memory.md R62, 40_register_access.md R119, 41_control.md R140), the reset
values (70_reset_and_hazards.md R240), and that CAP never changes (10_state.md R22). -/

namespace Sys2Proof.Machine

/-! ### Steps and commands (R62, R119, R140) -/

theorem step_of_port_cons {s : State} {q : Request} {rest : List Request} (h : s.port = q :: rest) :
    step s = perform q { s with port := rest } := by
  simp only [step, h]

theorem step_of_port_nil {s : State} (h : s.port = []) : step s = .next s := by
  simp only [step, h]

/-- Settles O4: the two branches of `step`. -/
theorem stepPerformsOldestRequest : Obligations.StepPerformsOldestRequest :=
  ⟨fun _ _ _ => step_of_port_cons, fun _ => step_of_port_nil⟩

/-- The request `withFetchWord` puts first is the CMD write of its word (log entry 3). -/
theorem step_withFetchWord (s : State) (w : Word) :
    step (s.withFetchWord 32 w.toNat) = perform (commandRequest w) s := by
  have hword : BitVec.ofNat 32 (w.toNat % 2 ^ 32) = w := by
    rw [Nat.mod_eq_of_lt w.isLt, BitVec.ofNat_toNat, BitVec.setWidth_eq]
  rw [step_of_port_cons rfl, hword]
  rfl

/-- Settles O5: the request is a CMD write, and `perform_command` runs the command its word decodes to. -/
theorem stepRunsDecodedCommand : Obligations.StepRunsDecodedCommand :=
  ⟨fun _ _ _ _ hport hdecode => (step_of_port_cons hport).trans (perform_command hdecode _),
    fun s i => (step_withFetchWord s (encode i)).trans (perform_command (decode_encode i) s)⟩

/-- Settles O6: an idle step completes, and so does every request. -/
theorem everyStepCompletes : Obligations.EveryStepCompletes := by
  intro s
  cases hport : s.port with
  | nil => exact ⟨s, step_of_port_nil hport⟩
  | cons q rest =>
    rw [step_of_port_cons hport]
    exact perform_next q _

/-- Settles O14: each of the four meanings drops itself while FAULT = 1. -/
theorem commandsDroppedWhileFaulted : Obligations.CommandsDroppedWhileFaulted := by
  intro s hfault
  refine ⟨exec_encb_faulted hfault, ?_, ?_, exec_buildtab_faulted hfault⟩
  · simp only [exec, execDstep, State.unlessFaulted_faulted hfault]
  · simp only [exec, execDecb, State.unlessFaulted_faulted hfault]

/-! ### Reset (R240) -/

/-- Settles O8: the registers as `State.reset` has them, and a RAM with no byte listed reads as 0. -/
theorem resetValues : Obligations.ResetValues :=
  ⟨rfl, rfl, rfl, rfl, rfl, rfl, rfl, rfl, rfl, rfl, rfl, by decide, fun _ => readWord_nil _,
    fun b => ⟨codeValid_nil b, codeLen_nil b, codeBit_nil b⟩,
    fun _ => (congrArg (BitVec.getLsbD · _) (readWord_nil _)).trans BitVec.getLsbD_zero⟩

/-- Settles O12: SRESET and the reset input are both `State.resetState`. -/
theorem resetsSetEveryElement : Obligations.ResetsSetEveryElement := ⟨rfl, fun _ => ⟨rfl, rfl⟩⟩

/-! ### Requests by what they leave alone (R62) -/

/-- `t` is `s` but for what a host write may store: NCOUNT, BITLEN, RDPTR, DPOS and the RAMs (R115 to R123). -/
def State.SameButStored (s t : State) : Prop :=
  t = { s with ncount := t.ncount, bitlen := t.bitlen, rdptr := t.rdptr, dpos := t.dpos, tree := t.tree, code := t.code,
               bits := t.bits }

namespace State.SameButStored
variable {s t : State} (h : s.SameButStored t)
include h

theorem cap_eq : t.cap = s.cap := by rw [h]

theorem fault_eq : t.fault = s.fault := by rw [h]

theorem fcode_eq : t.fcode = s.fcode := by rw [h]

theorem finfo_eq : t.finfo = s.finfo := by rw [h]

theorem dvalid_eq : t.dvalid = s.dvalid := by rw [h]

theorem dempty_eq : t.dempty = s.dempty := by rw [h]

end State.SameButStored

/-- Everything a request can do, by what it leaves alone; a write that runs a command is the CMD write of its encoding. -/
theorem perform_frame_cases {q : Request} {s t : State} (h : perform q s = .next t) :
    (∃ (off : Offset) (n : Size), q = .read off n ∧
      ((∃ v : Word, t = s.reply v) ∨ ∃ (c : FaultCode) (info : Word), t = (s.raise c info).reply 0)) ∨
    (q = .resetInput ∧ t = s.resetState) ∨
    (∃ (off : Offset) (n : Size) (v : Word), q = .write off n v ∧
      ((∃ (c : FaultCode) (info : Word), t = s.raise c info) ∨
        (s.SameButStored t ∧ (t.tree = s.tree ∨ n = .word ∧ 0x1000 ≤ off.toNat ∧ off.toNat < 0x17FC)) ∨
        ∃ i : Instr, q = commandRequest (encode i) ∧ exec i s = .next t)) := by
  obtain ⟨off, n, hq, hread | hrefused⟩ | hreset | ⟨off, n, v, hq, hwrite⟩ := perform_cases h
  · exact .inl ⟨off, n, hq, .inl hread⟩
  · exact .inl ⟨off, n, hq, .inr ⟨_, _, hrefused⟩⟩
  · exact .inr (.inl hreset)
  · refine .inr (.inr ⟨off, n, v, hq, ?_⟩)
    obtain hraise | ⟨-, -, rfl⟩ | ⟨-, rfl⟩ | ⟨-, rfl⟩ | ⟨i, rfl, hi, hoff, rfl⟩ | ⟨b, k, -, rfl⟩ | ⟨w, -, rfl⟩ |
      ⟨i, rfl, rfl, hdecode, hexec⟩ := hwrite
    · exact .inl hraise
    · exact .inr (.inl ⟨rfl, .inl rfl⟩)
    · exact .inr (.inl ⟨rfl, .inl rfl⟩)
    · exact .inr (.inl ⟨rfl, .inl rfl⟩)
    · unfold nodeAddr at hoff
      exact .inr (.inl ⟨rfl, .inr ⟨rfl, by omega, by omega⟩⟩)
    · exact .inr (.inl ⟨rfl, .inl rfl⟩)
    · exact .inr (.inl ⟨rfl, .inl rfl⟩)
    · rw [← encode_eq_of_decode hdecode] at hq
      exact .inr (.inr ⟨i, hq, hexec⟩)

/-! ### CAP (R22) -/

theorem exec_cap {i : Instr} {s t : State} (h : exec i s = .next t) : t.cap = s.cap := by
  obtain ⟨rfl, -⟩ | ⟨-, rfl⟩ | ⟨-, rfl⟩ | ⟨-, c, info, rfl⟩ | ⟨-, b, -, -, -, rfl⟩ |
    ⟨-, -, ⟨r, d, -, -, rfl | rfl⟩ | ⟨r, v, -, rfl⟩⟩ | ⟨-, -, shape, -, -, -, rfl⟩ := exec_cases h
  case inr.inr.inr.inl => exact s.raise_cap c info
  all_goals rfl

theorem perform_cap {q : Request} {s t : State} (h : perform q s = .next t) : t.cap = s.cap := by
  obtain ⟨_, _, -, ⟨v, rfl⟩ | ⟨c, info, rfl⟩⟩ | ⟨-, rfl⟩ | ⟨_, _, _, -, ⟨c, info, rfl⟩ | ⟨hstored, -⟩ | ⟨i, -, hexec⟩⟩ :=
    perform_frame_cases h
  · rfl
  · exact s.raise_cap c info
  · rfl
  · exact s.raise_cap c info
  · exact hstored.cap_eq
  · exact exec_cap hexec

/-- Settles O7: no request writes CAP. -/
theorem capIsConstant : Obligations.CapIsConstant := by
  intro s t hstep
  obtain ⟨-, rfl⟩ | ⟨q, rest, -, hperform⟩ := step_cases hstep
  · rfl
  · exact perform_cap (s := { s with port := rest }) hperform

end Sys2Proof.Machine
end

