-- ==== Sys2Proof/Proofs/CommandFrames.lean ====
section
/-! DECB along a path of bits (43_decoder.md R162), and what ENCB, DSTEP, DECB and BUILDTAB change and read: the frames of R150, R161 and
R162, and the parts of the RAMs that no command reads (10_state.md R32 to R34). -/

namespace Sys2Proof.Machine

/-! ### DECB along a path (R162) -/

/-- Where the bits from r on lead from d to a leaf, the loop emits the leaf's value. -/
theorem decbLoop_leaf {s : State} {path : List Bool} {k r : Nat} {d c : NodeIdx} (hne : path ≠ [])
    (hlen : r + path.length ≤ s.bitlen.toNat) (hbits : s.bitsFrom r path.length = path)
    (hat : nodeAt s.tree s.ncount d path = some c) (hleaf : nodeIsLeaf (nodeWord s.tree c) = true) :
    decbLoop s (path.length + k) r d = .byte (r + path.length) s.root (nodeValue (nodeWord s.tree c)) := by
  induction path generalizing r d with
  | nil => exact absurd rfl hne
  | cons b path ih =>
    rw [List.length_cons] at hlen hbits ⊢
    rw [State.bitsFrom_succ, List.cons.injEq] at hbits
    obtain ⟨rfl, hrest⟩ := hbits
    obtain ⟨hchild, hlt, hend⟩ := nodeAt_cons_eq_some_iff.mp hat
    have hr : r < s.bitlen.toNat := by omega
    rw [Nat.add_right_comm, decbLoop]
    cases path with
    | nil =>
      obtain rfl := Option.some.inj hend
      rw [decodeStep_emit hr hchild hlt hleaf]
      rfl
    | cons b' path =>
      have hnext := ih (List.cons_ne_nil _ _) (r := r + 1) (by omega) hrest hend
      have hsum : r + ((b' :: path).length + 1) = r + 1 + (b' :: path).length := by omega
      rw [decodeStep_move hr hchild hlt (not_leaf_of_nodeAt hend), hsum]
      exact hnext

/-- Settles O21: the loop has at least the path's bits left, and `decbLoop_leaf` follows the path. -/
theorem decbEmitsTheByte : Obligations.DecbEmitsTheByte := by
  refine ⟨rfl, fun s path c hfault hne hlen hbits hat hleaf => ?_⟩
  have hbitlen := s.bitlen.isLt
  obtain ⟨k, hk⟩ := Nat.exists_eq_add_of_le (show path.length ≤ s.bitlen.toNat - s.rdptr.toNat by omega)
  have hloop := hk ▸ decbLoop_leaf (k := k) hne hlen hbits hat hleaf
  exact ⟨_, (exec_decb_clear hfault).trans (congrArg Host.Outcome.next (decodeByte_of_byte hloop)),
    toNat_ofNat_word (by omega), rfl⟩

/-- Settles O22: the path takes every bit left, so the loop stops at its end. -/
theorem decbRunsOutOfBits : Obligations.DecbRunsOutOfBits := by
  intro s path d hfault hpath hat hint
  have hbitlen := s.bitlen.isLt
  have hrdptr := s.rdptr.isLt
  have hlen : path.length = s.bitlen.toNat - s.rdptr.toNat := by rw [hpath, State.bitsFrom_length]
  have hbits : s.bitsFrom s.rdptr.toNat path.length = path := by rw [hlen, ← hpath]
  have hloop := decbLoop_path (k := 0) hbits (by omega) hat hint
  rw [Nat.add_zero, hlen] at hloop
  have hend : s.rdptr.toNat + (s.bitlen.toNat - s.rdptr.toNat) = max s.rdptr.toNat s.bitlen.toNat := by omega
  rw [hend] at hloop
  exact ⟨_, (exec_decb_clear hfault).trans (congrArg Host.Outcome.next (decodeByte_of_ranOut hloop)),
    toNat_ofNat_word (by omega), rfl⟩

/-- DECB faults where the bits before the next one lead to a node at which DecodeStep fails. -/
theorem exec_decb_of_fail {s : State} {path : List Bool} {d : NodeIdx} {c : FaultCode} {info : Word}
    (hfault : s.fault = false) (hlen : s.rdptr.toNat + path.length < s.bitlen.toNat)
    (hbits : s.bitsFrom s.rdptr.toNat path.length = path) (hat : nodeAt s.tree s.ncount s.dpos path = some d)
    (hint : path ≠ [] → nodeIsLeaf (nodeWord s.tree d) = false)
    (hfail : decodeStep s (s.rdptr.toNat + path.length) d = .fail c info) : exec .decb s = .next (s.raise c info) := by
  obtain ⟨k, hk⟩ := Nat.exists_eq_add_of_lt (show path.length < s.bitlen.toNat - s.rdptr.toNat by omega)
  have hloop := decbLoop_path (k := k + 1) hbits (by omega) hat hint
  rw [← Nat.add_assoc, ← hk, decbLoop, hfail] at hloop
  exact (exec_decb_clear hfault).trans (congrArg Host.Outcome.next (decodeByte_of_failed hloop))

/-- Settles O23: the two failing branches of DecodeStep at the node reached. -/
theorem decbFaultsAtTheFirstBadBit : Obligations.DecbFaultsAtTheFirstBadBit := by
  rintro s path d _ hfault hlen hbits hat hint rfl
  exact ⟨fun hchild => exec_decb_of_fail hfault hlen hbits hat hint (decodeStep_noChild hlen hchild),
    fun hchild hbad => exec_decb_of_fail hfault hlen hbits hat hint (decodeStep_badIndex hlen hchild hbad)⟩

/-! ### Frames (R150, R161, R162) -/

/-- Settles O26: DSTEP and DECB are dropped, raise a fault, or end in one of the three updates of the walk. -/
theorem decodeFrame : Obligations.DecodeFrame := by
  intro s t i hi hexec
  obtain ⟨rfl, -⟩ | ⟨rfl, -⟩ | ⟨rfl, -⟩ | ⟨-, c, info, rfl⟩ | ⟨-, b, rfl, -⟩ | ⟨hfault, -, hdecoded⟩ | ⟨-, rfl, -⟩ :=
    exec_cases hexec
  case inl => exact ⟨rfl, fun _ => rfl, fun _ => rfl⟩
  case inr.inr.inr.inl =>
    have hrecord := s.raise_sameButRecord c info
    exact ⟨by simpa using hrecord, fun _ => s.raise_dout c info, fun _ => hrecord⟩
  case inr.inr.inr.inr.inr.inl =>
    have hclear : s.fault ≠ true := by rw [hfault]; exact Bool.false_ne_true
    obtain ⟨r, d, -, -, rfl | rfl⟩ | ⟨r, v, -, rfl⟩ := hdecoded
    · exact ⟨rfl, fun _ => rfl, fun h => absurd h hclear⟩
    · exact ⟨rfl, fun _ => rfl, fun h => absurd h hclear⟩
    · exact ⟨rfl, fun h => absurd h.symm Bool.false_ne_true, fun h => absurd h hclear⟩
  all_goals simp at hi

/-- Settles O16: ENCB is dropped, raises a fault, or writes the bits of its code from BITLEN on. -/
theorem encbFrame : Obligations.EncbFrame := by
  intro s t b hexec
  obtain hfault | hfault := Bool.eq_false_or_eq_true s.fault
  · obtain rfl := Host.Outcome.next.inj ((exec_encb_faulted hfault b).symm.trans hexec)
    exact ⟨rfl, fun _ _ => rfl⟩
  · obtain rfl := Host.Outcome.next.inj ((exec_encb_clear hfault b).symm.trans hexec)
    obtain ⟨c, info, hraise⟩ | ⟨-, -, hstored⟩ := encodeByte_cases b s
    · rw [hraise]
      exact ⟨by simpa using s.raise_sameButRecord c info, fun _ _ => by rw [State.raise_bits]⟩
    · rw [hstored]
      exact ⟨rfl, fun a ha => Memory.read_writeBits_outside (by rwa [codePath_length])⟩

/-! ### What the commands read (R32 to R34) -/

section
variable {s : State} {g : State → State} (hfault : (g s).fault = s.fault)
include hfault

/-- Recording a fault commutes with a change of the state that leaves the record alone. -/
theorem State.raise_comm {c : FaultCode} {info : Word}
    (hg : { g s with fault := true, fcode := c.number, finfo := info } =
      g { s with fault := true, fcode := c.number, finfo := info }) :
    (g s).raise c info = g (s.raise c info) := by
  cases hs : s.fault with
  | true => rw [State.raise_faulted hs, State.raise_faulted (hfault.trans hs)]
  | false => rw [State.raise_clear hs, State.raise_clear (hfault.trans hs), hg]

/-- A command's drop while FAULT = 1 commutes with such a change where its rule does. -/
theorem State.unlessFaulted_comm {f : State → State} (hf : f (g s) = g (f s)) :
    (g s).unlessFaulted f = g (s.unlessFaulted f) := by
  cases hs : s.fault with
  | true => rw [State.unlessFaulted_faulted hs, State.unlessFaulted_faulted (hfault.trans hs)]
  | false => rw [State.unlessFaulted_clear hs, State.unlessFaulted_clear (hfault.trans hs), hf]

end

/-- `s` with other contents of its three RAMs. -/
def State.withRams (tree code bits : Memory) (s : State) : State :=
  { s with tree := tree, code := code, bits := bits }

/-- `s` with another tree RAM. -/
def State.withTree (tree : Memory) (s : State) : State := { s with tree := tree }

/-- `s` with another code RAM. -/
def State.withCode (code : Memory) (s : State) : State := { s with code := code }

theorem State.raise_withRams (s : State) (tree code bits : Memory) (c : FaultCode) (info : Word) :
    (s.withRams tree code bits).raise c info = (s.raise c info).withRams tree code bits :=
  State.raise_comm (g := State.withRams tree code bits) rfl rfl

theorem State.raise_withTree (s : State) (tree : Memory) (c : FaultCode) (info : Word) :
    (s.withTree tree).raise c info = (s.raise c info).withTree tree :=
  State.raise_comm (g := State.withTree tree) rfl rfl

theorem State.raise_withCode (s : State) (code : Memory) (c : FaultCode) (info : Word) :
    (s.withCode code).raise c info = (s.raise c info).withCode code :=
  State.raise_comm (g := State.withCode code) rfl rfl

/-! ### ENCB reads its own entry only (R33, R150) -/

/-- ENCB reads CAP, BITLEN, and VALID and the code of its own entry. -/
theorem encodeByte_comm {s : State} {g : State → State} {b : Byte} (hcap : (g s).cap = s.cap)
    (hbitlen : (g s).bitlen = s.bitlen) (hvalid : codeValid (g s).code b = codeValid s.code b)
    (hpath : codePath (g s).code b = codePath s.code b)
    (hraise : ∀ c info, (g s).raise c info = g (s.raise c info))
    (happend : ∀ xs, (g s).appendBits xs = g (s.appendBits xs)) : encodeByte b (g s) = g (encodeByte b s) := by
  have hlen : codeLen (g s).code b = codeLen s.code b :=
    BitVec.eq_of_toNat_eq (by rw [← codePath_length, hpath, codePath_length])
  cases hs : codeValid s.code b with
  | false => rw [encodeByte_of_noCode hs, encodeByte_of_noCode (hvalid.trans hs), hraise]
  | true =>
    by_cases hfits : s.bitlen.toNat + (codeLen s.code b).toNat ≤ s.cap.toNat
    · rw [encodeByte_of_fits hs hfits, encodeByte_of_fits (hvalid.trans hs) (by rwa [hbitlen, hlen, hcap]), hpath,
        happend]
    · rw [encodeByte_of_overflow hs (by omega),
        encodeByte_of_overflow (hvalid.trans hs) (by rw [hbitlen, hlen, hcap]; omega), hlen, hraise]

/-- Settles O17: ENCB commutes with a change of the code RAM that keeps VALID and the code of its own entry. -/
theorem encbReadsOnlyItsEntry : Obligations.EncbReadsOnlyItsEntry := by
  intro s t b code' hvalid hpath hexec
  obtain rfl := Host.Outcome.next.inj hexec
  exact congrArg Host.Outcome.next (State.unlessFaulted_comm (g := State.withCode code') rfl
    (encodeByte_comm (g := State.withCode code') rfl rfl hvalid hpath (s.raise_withCode code') fun _ => rfl))

/-! ### DSTEP and DECB read the tree below NCOUNT and the bits below BITLEN only (R32, R34) -/

theorem decodeBit_of_move {s : State} {r : Nat} {d : NodeIdx} (h : decodeStep s s.rdptr.toNat s.dpos = .move r d) :
    decodeBit s = s.decodedMove r d := by
  simp only [decodeBit, h]

section
variable {s : State} {tree code bits : Memory} (hdpos : s.dpos.toNat < s.ncount.toNat)
  (htree : ∀ j : NodeIdx, j.toNat < s.ncount.toNat → nodeWord tree j = nodeWord s.tree j)
  (hbits : ∀ p < s.bitlen.toNat, readBit bits p = readBit s.bits p)
include hdpos htree hbits

theorem decodeBit_withRams : decodeBit (s.withRams tree code bits) = (decodeBit s).withRams tree code bits := by
  have hstep : decodeStep (s.withRams tree code bits) s.rdptr.toNat s.dpos = decodeStep s s.rdptr.toNat s.dpos :=
    decodeStep_congr rfl rfl htree hbits hdpos
  cases hs : decodeStep s s.rdptr.toNat s.dpos with
  | empty => rw [decodeBit_of_empty hs, decodeBit_of_empty (hstep.trans hs)]; rfl
  | fail c info => rw [decodeBit_of_fail hs, decodeBit_of_fail (hstep.trans hs), State.raise_withRams]
  | move r d => rw [decodeBit_of_move hs, decodeBit_of_move (hstep.trans hs)]; rfl
  | emit r d v => rw [decodeBit_of_emit hs, decodeBit_of_emit (hstep.trans hs)]; rfl

theorem decodeByte_withRams : decodeByte (s.withRams tree code bits) = (decodeByte s).withRams tree code bits := by
  have hloop : decbLoop (s.withRams tree code bits) (s.bitlen.toNat - s.rdptr.toNat) s.rdptr.toNat s.dpos =
      decbLoop s (s.bitlen.toNat - s.rdptr.toNat) s.rdptr.toNat s.dpos :=
    decbLoop_congr (s := s) (t := s.withRams tree code bits) rfl rfl htree hbits hdpos _ _
  cases hs : decbLoop s (s.bitlen.toNat - s.rdptr.toNat) s.rdptr.toNat s.dpos with
  | ranOut r d => rw [decodeByte_of_ranOut hs, decodeByte_of_ranOut (hloop.trans hs)]; rfl
  | failed c info => rw [decodeByte_of_failed hs, decodeByte_of_failed (hloop.trans hs), State.raise_withRams]
  | byte r d v => rw [decodeByte_of_byte hs, decodeByte_of_byte (hloop.trans hs)]; rfl

end

/-- Settles O27: DecodeStep and DECB's loop answer the same with the other RAMs. -/
theorem decodeReadsOnlyTheEncodedValue : Obligations.DecodeReadsOnlyTheEncodedValue := by
  rintro s t i tree' code' bits' (rfl | rfl) hdpos htree hbits hexec
  · obtain rfl := Host.Outcome.next.inj hexec
    exact congrArg Host.Outcome.next (State.unlessFaulted_comm (g := State.withRams tree' code' bits') rfl
      (decodeBit_withRams hdpos htree hbits))
  · obtain rfl := Host.Outcome.next.inj hexec
    exact congrArg Host.Outcome.next (State.unlessFaulted_comm (g := State.withRams tree' code' bits') rfl
      (decodeByte_withRams hdpos htree hbits))

/-! ### No command reads a node at or above NCOUNT (R32) -/

section
variable {s : State} {tree : Memory} (hdpos : s.dpos.toNat < s.ncount.toNat)
  (htree : ∀ j : NodeIdx, j.toNat < s.ncount.toNat → nodeWord tree j = nodeWord s.tree j)
include hdpos htree

theorem buildTable_withTree : buildTable (s.withTree tree) = (buildTable s).withTree tree := by
  have hroot : s.root.toNat < s.ncount.toNat := by
    rw [State.root_toNat (by omega)]
    omega
  have hwalk : walk (s.withTree tree) Config.maxCode (s.withTree tree).root [] ⟨0, []⟩ =
      walk s Config.maxCode s.root [] ⟨0, []⟩ :=
    walk_congr (s := s) (t := s.withTree tree) rfl htree _ _ hroot _ _
  unfold buildTable
  rw [hwalk]
  cases walk s Config.maxCode s.root [] ⟨0, []⟩ with
  | error e => exact s.raise_withTree tree e.1 e.2
  | ok w => rfl

theorem exec_decode_withTree {t : State} {i : Instr} (hi : i = .dstep ∨ i = .decb) (hexec : exec i s = .next t) :
    exec i (s.withTree tree) = .next (t.withTree tree) := by
  obtain ⟨hframe, -⟩ := decodeFrame s t i hi hexec
  have hcode : t.code = s.code := by rw [hframe]
  have hbits : t.bits = s.bits := by rw [hframe]
  refine (decodeReadsOnlyTheEncodedValue s t i tree s.code s.bits hi hdpos htree (fun _ _ => rfl) hexec).trans ?_
  rw [← hcode, ← hbits]
  rfl

end

/-- Settles O60: NOP, CLRF and ENCB read no node word, DSTEP and DECB only those below NCOUNT, and so does the walk of BUILDTAB. -/
theorem nodesBeyondTheTreeAreNotRead : Obligations.NodesBeyondTheTreeAreNotRead := by
  intro s t i tree' hi hdpos htree hexec
  cases i with
  | sreset => exact absurd rfl hi
  | nop => obtain rfl := Host.Outcome.next.inj hexec; rfl
  | clrf => obtain rfl := Host.Outcome.next.inj hexec; rfl
  | encb b =>
    obtain rfl := Host.Outcome.next.inj hexec
    exact congrArg Host.Outcome.next (State.unlessFaulted_comm (g := State.withTree tree') rfl
      (encodeByte_comm (g := State.withTree tree') rfl rfl rfl rfl (s.raise_withTree tree') fun _ => rfl))
  | dstep => exact exec_decode_withTree hdpos htree (.inl rfl) hexec
  | decb => exact exec_decode_withTree hdpos htree (.inr rfl) hexec
  | buildtab =>
    obtain rfl := Host.Outcome.next.inj hexec
    exact congrArg Host.Outcome.next (State.unlessFaulted_comm (g := State.withTree tree') rfl
      (buildTable_withTree hdpos htree))

end Sys2Proof.Machine
end

