-- ==== Sys2Proof/Proofs/HostAccess.lean ====
section
/-! Which host accesses are accepted (20_memory.md R60 to R63), and the writes of a node word, a code entry's header and a bit word with
their frames (40_register_access.md R120, R121, R123). -/

namespace Sys2Proof.Machine

/-! ### The window (R61) -/

/-- Settles O53: an offset has 16 bits, so HCC_BASE + off is in the window and gives off back. -/
theorem windowAtBase : Obligations.WindowAtBase := by
  constructor
  · intro off
    have hoff := off.isLt
    rw [windowOffset, if_pos (by omega), Nat.add_sub_cancel_left, BitVec.ofNat_toNat, BitVec.setWidth_eq]
  · intro address hout
    exact if_neg (by omega)

/-! ### Acceptance (R60, R63) -/

/-- The registers are the ten words below 0x28. -/
theorem exists_reg_offset_iff {off : Offset} (haligned : off.toNat % 4 = 0) :
    (∃ r ∈ Reg.all, r.offset = off) ↔ off.toNat < 0x28 := by
  have hlt : ∀ r ∈ Reg.all, r.offset.toNat < 0x28 := by decide
  have hreg : ∀ k < 10, ∃ r ∈ Reg.all, r.offset = BitVec.ofNat 16 (4 * k) := by decide
  constructor
  · rintro ⟨r, hr, rfl⟩
    exact hlt r hr
  · intro hlow
    obtain ⟨r, hr, hoffset⟩ := hreg (off.toNat / 4) (by omega)
    refine ⟨r, hr, hoffset.trans (BitVec.eq_of_toNat_eq ?_)⟩
    rw [Nat.mul_div_cancel' (Nat.dvd_of_mod_eq_zero haligned), BitVec.ofNat_toNat, BitVec.setWidth_eq]

/-- An aligned offset names a word exactly where the table of R60 maps it. -/
theorem target_isSome_iff {cap : Nat} (hcap : cap % 32 = 0) {off : Offset} (haligned : off.toNat % 4 = 0) :
    (target cap off).isSome = true ↔ MappedOffset cap off.toNat := by
  unfold target MappedOffset
  dsimp only
  split_ifs with hregs hnodes hnode hcode hword hbits
  · have hfind : ((Reg.all.find? fun r => r.offset == off).map Target.reg).isSome = true ↔
        ∃ r ∈ Reg.all, r.offset = off := by
      simp [List.find?_isSome]
    rw [hfind, exists_reg_offset_iff haligned]
    omega
  all_goals simp only [Option.isSome_some, Option.isSome_none, Bool.false_eq_true, true_iff, false_iff]; omega

theorem accepted_isSome_iff {s : State} (hcap : Config.BitcapLegal s.cap.toNat) (off : Offset) (n : Size) :
    (accepted s off n).isSome = true ↔ n = .word ∧ off.toNat % 4 = 0 ∧ MappedOffset s.cap.toNat off.toNat := by
  obtain ⟨hmultiple, -, -⟩ := hcap
  unfold accepted
  split_ifs with haccess
  · obtain ⟨hsize, haligned⟩ := haccess
    simp [target_isSome_iff hmultiple haligned, hsize, haligned]
  · simp only [Option.isSome_none, Bool.false_eq_true, false_iff]
    exact fun ⟨hsize, haligned, _⟩ => haccess ⟨hsize, haligned⟩

theorem perform_read_of_not_accepted {s : State} {off : Offset} {n : Size} (h : accepted s off n = none) :
    perform (.read off n) s = .next ((s.raise .accessErr (infoAccess false off n)).reply 0) := by
  simp only [perform, hostRead, h]

theorem perform_write_of_not_accepted {s : State} {off : Offset} {n : Size} (h : accepted s off n = none) (v : Word) :
    perform (.write off n v) s = .next (s.raise .accessErr (infoAccess true off n)) := by
  simp only [perform, hostWrite, h]

/-- Settles O41: `accepted_isSome_iff` decides which branch of the access is taken. -/
theorem accessAcceptance : Obligations.AccessAcceptance := by
  intro s off n hcap
  have hiff := accepted_isSome_iff hcap off n
  refine ⟨fun hrefused => ?_, fun hsize haligned hmapped => ?_⟩
  · rw [← hiff, Bool.not_eq_true, Option.isSome_eq_false_iff, Option.isNone_iff_eq_none] at hrefused
    exact ⟨perform_read_of_not_accepted hrefused, perform_write_of_not_accepted hrefused⟩
  · obtain ⟨tgt, htgt⟩ := Option.isSome_iff_exists.mp (hiff.mpr ⟨hsize, haligned, hmapped⟩)
    exact ⟨_, perform_read_of_accepted htgt⟩

/-! ### Writing a node word (R120) -/

theorem perform_write_node (s : State) {i : Nat} (hi : i < 511) (v : Word) :
    perform (.write (BitVec.ofNat 16 (0x1000 + 4 * i)) .word v) s =
      .next { s with tree := Memory.writeWord s.tree (0x1000 + 4 * i) (v &&& nodeMask) } := by
  rw [perform_write_of_accepted (accepted_node s hi), writeTarget, nodeAddr_ofNat (by omega)]

/-- Settles O49: the write is one `Memory.writeWord` of the masked value at NODE[i]. -/
theorem nodeWrite : Obligations.NodeWrite := by
  intro s i v hi
  refine ⟨_, perform_write_node s hi v, ?_, fun a ha => Memory.read_writeWord_outside _ _ _ ha, fun j hj => ?_, rfl⟩
  · rw [nodeWord, nodeAddr_ofNat (by omega)]
    exact Memory.readWord_writeWord_same _ _ _
  · exact Memory.readWord_writeWord_outside _ _ _ (by unfold nodeAddr; omega)

/-! ### Writing the header of a code entry (R121) -/

/-- The mask of HDR keeps VALID and LEN. -/
theorem getLsbD_and_headerMask (v : Word) {i : Nat} (hi : i < 32) :
    (v &&& headerMask).getLsbD i = (v.getLsbD i && decide (i < 8 ∨ i = 31)) := by
  have hmask : ∀ i < 32, headerMask.getLsbD i = decide (i < 8 ∨ i = 31) := by decide
  rw [BitVec.getLsbD_and, hmask i hi]

theorem extractLsb'_and_headerMask_len (v : Word) : (v &&& headerMask).extractLsb' 0 8 = v.extractLsb' 0 8 := by
  apply BitVec.eq_of_getLsbD_eq
  intro i hi
  simp only [BitVec.getLsbD_extractLsb', Nat.zero_add]
  rw [getLsbD_and_headerMask v (by omega)]
  simp [hi]

/-- The header of an entry after a header is written. -/
theorem readCode_header_writeHeader (m : Memory) (b c : Byte) (w : Word) :
    Memory.readWord (Memory.writeWord m (codeAddr b 0) w) (codeAddr c 0) =
      if c = b then w else Memory.readWord m (codeAddr c 0) := by
  rw [readCode_writeCode _ (by decide) (by decide)]
  simp

/-- Settles O50: the write is one `Memory.writeWord` of the masked value at HDR, whose reserved bits the mask clears. -/
theorem codeHeaderWrite : Obligations.CodeHeaderWrite := by
  intro s b v
  have hsame := Memory.readWord_writeWord_same s.code (codeAddr b 0) (v &&& headerMask)
  refine ⟨_, perform_write_codeWord s b (Nat.zero_le 8) v, ?valid, ?len, ?reserved,
    fun a ha => Memory.read_writeWord_outside _ _ _ ha, fun c hc => ?headers, fun c j hj => ?bits, rfl⟩
  all_goals rw [storedCodeWord_zero]
  case valid =>
    rw [codeValid, hsame, getLsbD_and_headerMask v (by decide)]
    simp
  case len => rw [codeLen, hsame, extractLsb'_and_headerMask_len]
  case reserved =>
    rw [hsame]
    exact (and_not_headerMask_eq_zero_iff _).mp (and_mask_and_not v headerMask)
  case headers =>
    have hheader := readCode_header_writeHeader s.code b c (v &&& headerMask)
    rw [if_neg hc] at hheader
    exact ⟨congrArg (·.getLsbD 31) hheader, congrArg (·.extractLsb' 0 8) hheader⟩
  case bits => exact codeBit_writeCode_of_ne _ (Nat.zero_le 8) (by omega) (.inr (Nat.succ_ne_zero _)) _

/-! ### Writing a bit word (R123) -/

theorem perform_write_bitWord {s : State} (hcap : s.cap.toNat ≤ 262144) {w : Nat} (hw : w < s.cap.toNat / 32)
    (v : Word) : perform (.write (BitVec.ofNat 16 (bitWordAddr w)) .word v) s =
      .next { s with bits := Memory.writeWord s.bits (bitWordAddr w) v } :=
  perform_write_of_accepted (accepted_bitWord hcap hw) v

/-- Settles O52: the write is one `Memory.writeWord` at the bit word. -/
theorem bitWordWrite : Obligations.BitWordWrite := by
  intro s w v hcap hw
  obtain ⟨-, -, hcapLe⟩ := hcap
  refine ⟨_, perform_write_bitWord hcapLe hw v, fun j hj => ?_, fun p hp => ?_,
    fun a ha => Memory.read_writeWord_outside _ _ _ ha, rfl⟩
  · rw [readBit_eq_getLsbD_word _ _ hj, Memory.readWord_writeWord_same]
  · rw [readBit, Memory.readWord_writeWord_outside _ _ _ (by unfold bitWordAddr; omega), readBit]

end Sys2Proof.Machine
end

