-- ==== Sys2Proof/Proofs/FaultRules.lean ====
section
/-! The fault record: its codes and layouts (60_exceptions.md R210, R225), what records it and what keeps it (R211, R212, R215); and two
further rules over every request (10_state.md R32, R35). -/

namespace Sys2Proof.Machine

/-! ### raise (R210 to R212) -/

/-- Settles O54: the two cases of `State.raise`, and the numbers as R210 lists them. -/
theorem raiseRecordsFirstFault : Obligations.RaiseRecordsFirstFault :=
  ⟨fun _ c info => ⟨fun h => State.raise_clear h c info, fun h => State.raise_faulted h c info⟩, rfl⟩

/-! ### FINFO layouts (R225) -/

/-- The value `x` in the field of a word that starts at bit k. -/
def wordField {w : Nat} (k : Nat) (x : BitVec w) : Word := x.setWidth 32 <<< k

section
variable {w : Nat} (x : BitVec w) {k : Nat} (hk : k + w ≤ 32)
include hk

theorem getLsbD_wordField (i : Nat) : (wordField k x).getLsbD i = (decide (k ≤ i) && x.getLsbD (i - k)) := by
  rw [wordField, BitVec.getLsbD_shiftLeft, BitVec.getLsbD_setWidth]
  by_cases hi : i < k + w
  · have h32 : i < 32 := by omega
    have hshift : i - k < 32 := by omega
    simp [h32, hshift, ← decide_not]
  · simp [BitVec.getLsbD_of_ge x (i - k) (by omega)]

@[simp] theorem extractLsb'_wordField_same : (wordField k x).extractLsb' k w = x := by
  apply BitVec.eq_of_getLsbD_eq
  intro i hi
  rw [BitVec.getLsbD_extractLsb', getLsbD_wordField x hk]
  simp [hi]

/-- A slice beside the field reads as 0. -/
@[simp] theorem extractLsb'_wordField_outside {start len : Nat} (h : start + len ≤ k ∨ k + w ≤ start) :
    (wordField k x).extractLsb' start len = 0 := by
  apply BitVec.eq_of_getLsbD_eq
  intro i hi
  rw [BitVec.getLsbD_extractLsb', getLsbD_wordField x hk]
  obtain hbelow | habove := h
  · have hlow : ¬ k ≤ start + i := by omega
    simp [hlow]
  · simp [BitVec.getLsbD_of_ge x (start + i - k) (by omega)]

end

/-- A flag is a slice of one bit. -/
theorem getLsbD_of_extractLsb'_one {v : Word} {k : Nat} {b : Bool} (h : v.extractLsb' k 1 = BitVec.ofBool b) :
    v.getLsbD k = b := by
  have hbit := congrArg (BitVec.getLsbD · 0) h
  simpa using hbit

theorem setWidth_eq_wordField {w : Nat} (x : BitVec w) : x.setWidth 32 = wordField 0 x := by simp [wordField]

theorem boolWord_shiftLeft_eq_wordField (b : Bool) (k : Nat) : boolWord b <<< k = wordField k (BitVec.ofBool b) := rfl

theorem infoAccess_eq_wordFields (isWrite : Bool) (off : Offset) (n : Size) :
    infoAccess isWrite off n = wordField 0 off ||| wordField 16 (BitVec.ofBool isWrite) ||| wordField 17 (n.code.setWidth 2) := by
  rw [infoAccess, setWidth_eq_wordField, boolWord_shiftLeft_eq_wordField]
  cases n <;> rfl

theorem infoOverflow_eq_wordFields (b len : Byte) : infoOverflow b len = wordField 0 b ||| wordField 8 len := by
  rw [infoOverflow, setWidth_eq_wordField]
  rfl

theorem infoNoChild_eq_wordFields (i : NodeIdx) (side : Bool) :
    infoNoChild i side = wordField 0 i ||| wordField 12 (BitVec.ofBool side) := by
  rw [infoNoChild, setWidth_eq_wordField, boolWord_shiftLeft_eq_wordField]

theorem infoBadIndex_eq_wordFields (i c : NodeIdx) (side : Bool) :
    infoBadIndex i side c = wordField 0 i ||| wordField 12 (BitVec.ofBool side) ||| wordField 16 c := by
  rw [infoBadIndex, setWidth_eq_wordField, boolWord_shiftLeft_eq_wordField]
  rfl

/-- Settles O55: each layout is fields that do not overlap, so a slice meets one of them or none. -/
theorem finfoLayouts : Obligations.FinfoLayouts := by
  refine ⟨fun isWrite off n => ?access, fun r => ?range, fun b => ?byte, fun b len => ?overflow, fun i => ?node,
    fun i side => ?noChild, fun i c side => ?badIndex⟩
  case access =>
    rw [infoAccess_eq_wordFields]
    refine ⟨?_, getLsbD_of_extractLsb'_one ?_, ?size, ?_⟩
    case size => cases n <;> simp [BitVec.extractLsb'_or, Size.code]
    all_goals simp [BitVec.extractLsb'_or]
  case range =>
    rw [infoRange, setWidth_eq_wordField]
    constructor <;> simp
  case byte =>
    rw [infoByte, setWidth_eq_wordField]
    constructor <;> simp
  case node =>
    rw [infoNode, setWidth_eq_wordField]
    constructor <;> simp
  case overflow =>
    rw [infoOverflow_eq_wordFields]
    refine ⟨?_, ?_, ?_⟩ <;> simp [BitVec.extractLsb'_or]
  case noChild =>
    rw [infoNoChild_eq_wordFields]
    refine ⟨?_, ?_, getLsbD_of_extractLsb'_one ?_, ?_⟩ <;> simp [BitVec.extractLsb'_or]
  case badIndex =>
    rw [infoBadIndex_eq_wordFields]
    refine ⟨?_, ?_, getLsbD_of_extractLsb'_one ?_, ?_, ?_, ?_⟩ <;> simp [BitVec.extractLsb'_or]

/-! ### What records a fault (R215) -/

theorem exists_raise_of_exec {i : Instr} {s t : State} (h : exec i s = .next t) (hclear : s.fault = false)
    (hfault : t.fault = true) : ∃ c info, t = s.raise c info := by
  have hne : s.fault ≠ true := by rw [hclear]; exact Bool.false_ne_true
  obtain ⟨rfl, -⟩ | ⟨-, rfl⟩ | ⟨-, rfl⟩ | ⟨-, hraise⟩ | ⟨-, b, -, -, -, rfl⟩ |
    ⟨-, -, ⟨r, d, -, -, rfl | rfl⟩ | ⟨r, v, -, rfl⟩⟩ | ⟨-, -, shape, -, -, -, rfl⟩ := exec_cases h
  case inr.inr.inr.inl => exact hraise
  case inr.inl => cases hfault
  case inr.inr.inl => cases hfault
  all_goals exact absurd hfault hne

/-- Settles O56: a refused read and a write that raises a fault only record it; no other request turns FAULT on. -/
theorem faultsArePrecise : Obligations.FaultsArePrecise := by
  intro s t q hperform hclear hfault
  have hne : s.fault ≠ true := by rw [hclear]; exact Bool.false_ne_true
  have hraise (c : FaultCode) (info : Word) := State.raise_clear hclear c info
  obtain ⟨_, _, rfl, ⟨v, rfl⟩ | ⟨c, info, rfl⟩⟩ | ⟨-, rfl⟩ | ⟨_, _, _, rfl, ⟨c, info, rfl⟩ | ⟨hstored, -⟩ | ⟨i, -, hexec⟩⟩ :=
    perform_frame_cases hperform
  · exact absurd hfault hne
  · rw [hraise]
    exact ⟨rfl, rfl⟩
  · cases hfault
  · rw [hraise]
    exact ⟨rfl, rfl⟩
  · exact absurd (hstored.fault_eq.symm.trans hfault) hne
  · obtain ⟨c, info, rfl⟩ := exists_raise_of_exec hexec hclear hfault
    rw [hraise]
    exact ⟨rfl, rfl⟩

/-! ### What keeps the record (R211, R212) -/

/-- `t` has the fault record of `s`. -/
def State.SameRecord (s t : State) : Prop := t.fault = s.fault ∧ t.fcode = s.fcode ∧ t.finfo = s.finfo

theorem State.sameRecord_refl (s : State) : s.SameRecord s := ⟨rfl, rfl, rfl⟩

theorem State.sameRecord_raise {s : State} (h : s.fault = true) (c : FaultCode) (info : Word) :
    s.SameRecord (s.raise c info) := by
  rw [State.raise_faulted h]
  exact s.sameRecord_refl

theorem exec_sameRecord {i : Instr} {s t : State} (h : exec i s = .next t) (hfault : s.fault = true)
    (hsreset : i ≠ .sreset) (hclrf : i ≠ .clrf) : s.SameRecord t := by
  have hne : s.fault ≠ false := by rw [hfault]; exact Bool.noConfusion
  obtain ⟨rfl, -⟩ | ⟨hi, -⟩ | ⟨hi, -⟩ | ⟨hclear, -⟩ | ⟨hclear, -⟩ | ⟨hclear, -⟩ | ⟨hclear, -⟩ := exec_cases h
  case inl => exact t.sameRecord_refl
  case inr.inl => exact absurd hi hsreset
  case inr.inr.inl => exact absurd hi hclrf
  all_goals exact absurd hclear hne

/-- Settles O57: with a fault recorded `raise` changes nothing, and of the commands only SRESET and CLRF write the record. -/
theorem faultRecordStays : Obligations.FaultRecordStays := by
  intro s t q hperform hfault hreset hsreset hclrf
  suffices hsame : s.SameRecord t by
    obtain ⟨hkept, hrecord⟩ := hsame
    exact ⟨hkept.trans hfault, hrecord⟩
  obtain ⟨_, _, -, ⟨v, rfl⟩ | ⟨c, info, rfl⟩⟩ | ⟨hq, -⟩ | ⟨_, _, _, -, ⟨c, info, rfl⟩ | ⟨hstored, -⟩ | ⟨i, rfl, hexec⟩⟩ :=
    perform_frame_cases hperform
  · exact s.sameRecord_refl
  · exact State.sameRecord_raise hfault c info
  · exact absurd hq hreset
  · exact State.sameRecord_raise hfault c info
  · exact ⟨hstored.fault_eq, hstored.fcode_eq, hstored.finfo_eq⟩
  · refine exec_sameRecord hexec hfault ?_ ?_
    · rintro rfl
      exact hsreset rfl
    · rintro rfl
      exact hclrf rfl

/-! ### What changes DVALID, DEMPTY and the tree (R35, R32) -/

theorem exec_decodeFlags {i : Instr} {s t : State} (h : exec i s = .next t) (hsreset : i ≠ .sreset) (hdstep : i ≠ .dstep)
    (hdecb : i ≠ .decb) : t.dvalid = s.dvalid ∧ t.dempty = s.dempty := by
  obtain ⟨rfl, -⟩ | ⟨hi, -⟩ | ⟨-, rfl⟩ | ⟨-, c, info, rfl⟩ | ⟨-, b, -, -, -, rfl⟩ | ⟨-, hi, -⟩ |
    ⟨-, -, shape, -, -, -, rfl⟩ := exec_cases h
  case inr.inl => exact absurd hi hsreset
  case inr.inr.inr.inl => exact ⟨s.raise_dvalid c info, s.raise_dempty c info⟩
  case inr.inr.inr.inr.inr.inl => exact absurd hi (not_or.mpr ⟨hdstep, hdecb⟩)
  all_goals exact ⟨rfl, rfl⟩

/-- Settles O58: of the commands only SRESET, DSTEP and DECB write the flags, and no other request does. -/
theorem decodeFlagsChangeOnlyByDecode : Obligations.DecodeFlagsChangeOnlyByDecode := by
  intro s t q hperform hreset hsreset hdstep hdecb
  obtain ⟨_, _, -, ⟨v, rfl⟩ | ⟨c, info, rfl⟩⟩ | ⟨hq, -⟩ | ⟨_, _, _, -, ⟨c, info, rfl⟩ | ⟨hstored, -⟩ | ⟨i, rfl, hexec⟩⟩ :=
    perform_frame_cases hperform
  · exact ⟨rfl, rfl⟩
  · exact ⟨s.raise_dvalid c info, s.raise_dempty c info⟩
  · exact absurd hq hreset
  · exact ⟨s.raise_dvalid c info, s.raise_dempty c info⟩
  · exact ⟨hstored.dvalid_eq, hstored.dempty_eq⟩
  · refine exec_decodeFlags hexec ?_ ?_ ?_
    · rintro rfl
      exact hsreset rfl
    · rintro rfl
      exact hdstep rfl
    · rintro rfl
      exact hdecb rfl

theorem exec_tree {i : Instr} {s t : State} (h : exec i s = .next t) (hsreset : i ≠ .sreset) : t.tree = s.tree := by
  obtain ⟨rfl, -⟩ | ⟨hi, -⟩ | ⟨-, rfl⟩ | ⟨-, c, info, rfl⟩ | ⟨-, b, -, -, -, rfl⟩ |
    ⟨-, -, ⟨r, d, -, -, rfl | rfl⟩ | ⟨r, v, -, rfl⟩⟩ | ⟨-, -, shape, -, -, -, rfl⟩ := exec_cases h
  case inr.inl => exact absurd hi hsreset
  case inr.inr.inr.inl => exact s.raise_tree c info
  all_goals rfl

/-- Settles O59: a write that stores a node word is at an offset of the tree RAM, and of the commands only SRESET writes the tree. -/
theorem treeChangesOnlyByHostWrites : Obligations.TreeChangesOnlyByHostWrites := by
  intro s t q hperform hreset hsreset hwrites
  obtain ⟨_, _, -, ⟨v, rfl⟩ | ⟨c, info, rfl⟩⟩ | ⟨hq, -⟩ |
    ⟨off, n, v, hq, ⟨c, info, rfl⟩ | ⟨-, hkept | ⟨rfl, hregion⟩⟩ | ⟨i, rfl, hexec⟩⟩ := perform_frame_cases hperform
  · rfl
  · exact s.raise_tree c info
  · exact absurd hq hreset
  · exact s.raise_tree c info
  · exact hkept
  · exact absurd hregion (hwrites off v hq)
  · refine exec_tree hexec ?_
    rintro rfl
    exact hsreset rfl

end Sys2Proof.Machine
end
